-- ==== Sys2Proof/Word.lean ====
section
/-! DEFINITION. The word types of the HUFF core (spec 00_scope.md R7). -/

namespace Sys2Proof

/-- A host register, a command word, a count or a node weight: 32 bits, unsigned (R7, R9). -/
abbrev Word := BitVec 32

/-- An output FIFO entry: 16 bits (R7, R43). -/
abbrev Entry := BitVec 16

/-- A packed byte (R69). -/
abbrev Byte := BitVec 8

/-- A bit counter or a bit limit: 64 bits (R7). -/
abbrev Count := BitVec 64

/-- `WMAX`, the largest weight (R7). -/
def wmax : Nat := 4294967295

end Sys2Proof
end

