-- ==== Sys2Proof/Config.lean ====
section
/-! DEFINITION. What an implementation fixes (spec 00_scope.md R4 to R6 and R8, 20_memory.md R60) and the one free value
of the machine (20_memory.md R67). -/

namespace Sys2Proof

/-- The parameters of one HUFF block. `State` carries them as data that no step writes, so that every statement over
all states holds for every configuration (log 1, log 2). -/
structure Config where
  /-- `NSYM`, the number of symbol ids (R4). -/
  nsym : Nat
  /-- `CODE_MAX`, the longest code in bits (R5). -/
  codeMax : Nat
  /-- `OFIFO_DEPTH`, the capacity of the output FIFO (R6). -/
  ofifoDepth : Nat
  /-- `HUFF_BASE`, where the platform maps the register window (R60). -/
  huffBase : Nat
  deriving DecidableEq, Repr

/-- The constraints the spec puts on the parameters (R4, R5, R6, R60). -/
abbrev Config.Valid (c : Config) : Prop :=
  1 ≤ c.nsym ∧ c.nsym ≤ 65536 ∧ 1 ≤ c.codeMax ∧ c.codeMax ≤ 8192 ∧
  8 ≤ c.ofifoDepth ∧ (c.codeMax + 7) / 8 ≤ c.ofifoDepth ∧ c.ofifoDepth ≤ 65535 ∧ c.huffBase % 256 = 0

/-- The spec's default configuration (R4, R5, R6). DESIGN CHOICE: `HUFF_BASE` is OPEN in the spec (D13); 0 here (log 2). -/
def Config.standard : Config :=
  { nsym := 256, codeMax := 255, ofifoDepth := 64, huffBase := 0 }

/-- `NNODE_MAX = 2*NSYM - 1` (R8). -/
def Config.nnodeMax (c : Config) : Nat := 2 * c.nsym - 1

/-- `NCW = ceil(CODE_MAX / 32)` (R8). -/
def Config.ncw (c : Config) : Nat := (c.codeMax + 31) / 32

/-- `HEAP_MAX = NSYM` (R8). -/
def Config.heapMax (c : Config) : Nat := c.nsym

/-- FREE VALUE: what the n-th read of an inexact register returns while BUSY = 1 (R67, U1). It has no body, so no proof
can depend on what it is; `State.draws` counts the draws, so two reads may differ (log 5). -/
opaque Config.freeRead : Nat → Word

end Sys2Proof
end

