-- ==== Sys2Proof/Machine/State.lean ====
section
/-! DEFINITION. The state of the HUFF core as plain data (10_state.md R20 to R46), what the outside does to it
(20_memory.md R64), the reasons a step can stop, and the state after reset. -/

namespace Sys2Proof.Machine

/-- The error codes ERRCODE can hold (60_exceptions.md R221). The reserved codes 0x0D to 0xFF have no constructor: they
are never written. -/
inductive ErrCode where
  /-- 0x00: no error recorded. -/
  | none
  /-- 0x01: illegal command word. -/
  | eill
  /-- 0x02: a CMD write while PENDING holds a command. -/
  | ebusy
  /-- 0x03: the command is illegal in the current phase. -/
  | estate
  /-- 0x04: a symbol id at or above NSYM. -/
  | esym
  /-- 0x05: an index or argument out of range. -/
  | earg
  /-- 0x06: a weight would exceed 2^32-1. -/
  | eovf
  /-- 0x07: PK_SYM of a symbol with no code. -/
  | enocode
  /-- 0x08: a leaf deeper than CODE_MAX. -/
  | ecodelen
  /-- 0x09: two codes of the table are equal or one begins another. -/
  | ebadtable
  /-- 0x0A: the decoder accumulator can match no code. -/
  | enomatch
  /-- 0x0B: limit mode, the last bits end no code. -/
  | epartial
  /-- 0x0C: limit mode, fewer bits than the limit. -/
  | eshort
  deriving DecidableEq, Repr

/-- The builder phase BSTATE (R39). The value 3 never occurs and has no constructor. -/
inductive Phase where
  | empty
  | seeded
  | built
  deriving DecidableEq, Repr

/-- A node-store entry, the source's `TreeNode` (R35). KIND is the constructor. -/
inductive Node where
  /-- KIND = LEAF: WEIGHT and SYM. -/
  | leaf (weight : Word) (sym : Nat)
  /-- KIND = INTERNAL: WEIGHT, LEFT and RIGHT. -/
  | internal (weight : Word) (left right : Nat)
  deriving DecidableEq, Repr

/-- A code-table entry: CODE_LEN and CODE_VAL (R33). Length 0 means no code (R10). -/
structure CodeEntry where
  len : Nat
  val : Nat
  deriving DecidableEq, Repr

/-- What the engine latch holds: a command word and the two argument snapshots (R42). -/
structure Latch where
  cmd : Word
  a0 : Word
  a1 : Word
  deriving DecidableEq, Repr

/-- The two agents of the machine (R64). -/
inductive Agent where
  | host
  | engine
  deriving DecidableEq, Repr

/-- The size of a host access (R68). Only a single 32-bit access is supported. -/
inductive AccessWidth where
  | byte
  | half
  | word
  | burst
  deriving DecidableEq, Repr

/-- One thing the outside does: a host access at a platform address (R61, R62), or a change of the platform's reset
input (R250, R252). -/
inductive HostOp where
  | read (width : AccessWidth) (addr : Nat)
  | write (width : AccessWidth) (addr : Nat) (v : Word)
  | assertReset
  | releaseReset
  deriving DecidableEq, Repr

/-- A finite array held as the list of its entries that differ from the reset value, in rising index order: the one
canonical form of the arrays FREQ, CODE and CBUF (log 12). -/
abbrev Table (α : Type) := List (Nat × α)

/-- Why a step stops. None of them is an error of the spec: those are recorded in ERRCODE and the machine goes on. -/
inductive Fault where
  /-- Raised by the scheduler when the latched command is held for FIFO room and the host makes no further access: no
  agent has an enabled step (U11, R258). Safe: it is the spec's own stuck state. -/
  | hang
  /-- Raised by the scheduler when the latch is empty and the host has made its last access: the run is over (R77). Safe:
  the model stops where the hardware idles. -/
  | runOver
  /-- Raised by BLD_STEP, BLD_FINISH, PQ_PEEK, HEAP_RD and EXTRACT when they would read a heap position or node-store
  entry that holds no value (U10). Safe, and unreachable: the invariant of Safety.lean rules it out. -/
  | undefinedEntry
  deriving DecidableEq, Repr

/-- What the model gives no meaning to. -/
inductive Refusal where
  /-- Raised by `exec` for an instruction that has no meaning yet. Safe. -/
  | notModelled (mnemonic : String)
  /-- Raised by a host access that is not one aligned 32-bit access inside the register window (R68, U3). Safe. -/
  | unsupportedAccess
  /-- Raised by a host access while the platform holds the block in reset (R78, R252, U4). Safe. -/
  | accessInReset
  deriving DecidableEq, Repr

/-- Everything the spec gives the machine, its configuration, and what the outside will do and has seen. -/
structure State where
  /-- The parameters (R4 to R6, R60); no step writes them. -/
  cfg : Config
  /-- PENDING (R42). -/
  pending : Option Latch
  /-- ARG0 (R27). -/
  arg0 : Word
  /-- ARG1 (R27). -/
  arg1 : Word
  /-- RESULT0 (R28). -/
  result0 : Word
  /-- RESULT1 (R28). -/
  result1 : Word
  /-- RESULT2 (R28). -/
  result2 : Word
  /-- ERRCODE (R29). -/
  errcode : ErrCode
  /-- ERRINFO (R30). -/
  errinfo : Word
  /-- The output FIFO, head first (R43). -/
  ofifo : List Entry
  /-- FREQ (R32). -/
  freq : Table Word
  /-- CODE_LEN and CODE_VAL (R33). -/
  codes : Table CodeEntry
  /-- CBUF (R34). -/
  cbuf : Table Word
  /-- The defined node-store entries, index 0 first (R35); NNODES is its length (R36). -/
  nodes : List Node
  /-- The defined heap positions, H[0] first (R37); HSIZE is its length. -/
  heap : List Nat
  /-- ROOT when ROOT_VALID = 1 (R38). -/
  root : Option Nat
  /-- BSTATE (R39). -/
  bstate : Phase
  /-- PK_ACTIVE (R40). -/
  pkActive : Bool
  /-- PK_ACC (R40). -/
  pkAcc : BitVec 7
  /-- PK_NB (R40). -/
  pkNb : BitVec 3
  /-- PK_BITCNT (R40). -/
  pkBitcnt : Count
  /-- DEC_ACTIVE (R41). -/
  decActive : Bool
  /-- LIMIT_EN (R41). -/
  limitEn : Bool
  /-- DEC_NBITS (R41). -/
  decNbits : Count
  /-- ACC (R41). -/
  acc : Nat
  /-- ACC_LEN (R41). -/
  accLen : Nat
  /-- DEC_BITCNT (R41). -/
  decBitcnt : Count
  /-- DEC_RESIDUE (R41). -/
  decResidue : Nat
  /-- The model's own: the platform holds the block in reset (R252, log 9). -/
  inReset : Bool
  /-- The model's own: what the outside will do, oldest first (log 3). -/
  hostOps : List HostOp
  /-- The model's own: the values the host's reads returned, oldest first (R77, log 3). -/
  hostReads : List Word
  /-- The model's own: the free scheduler's choices where both agents could step (R64, log 4). -/
  turns : List Agent
  /-- The model's own: how many free reads have been drawn (R67, log 5). -/
  draws : Nat
  deriving DecidableEq, Repr

/-- The reset state of R46 for a configuration, with nothing for the outside to do (log 19). -/
def State.resetWith (cfg : Config) : State :=
  { cfg := cfg, pending := none, arg0 := 0, arg1 := 0, result0 := 0, result1 := 0, result2 := 0,
    errcode := .none, errinfo := 0, ofifo := [], freq := [], codes := [], cbuf := [], nodes := [], heap := [],
    root := none, bstate := .empty, pkActive := false, pkAcc := 0, pkNb := 0, pkBitcnt := 0, decActive := false,
    limitEn := false, decNbits := 0, acc := 0, accLen := 0, decBitcnt := 0, decResidue := 0, inReset := false,
    hostOps := [], hostReads := [], turns := [], draws := 0 }

/-- The machine right after reset, in the spec's default configuration (R46, log 1). -/
def State.reset : State := State.resetWith Config.standard

end Sys2Proof.Machine
end

