-- ==== Sys2Proof/Machine/Ops.lean ====
section
/-! DEFINITION. The named operations over the arrays, the FIFO, the registers and the error state that every command
shares, the reset action, and bit strings. -/

namespace Sys2Proof.Machine

/-! ### Arrays (log 12) -/

/-- `A[k]`: the listed value, or the reset value `d` when `k` is not listed. -/
def Table.get {α : Type} (d : α) (t : Table α) (k : Nat) : α :=
  match t with
  | [] => d
  | (j, v) :: rest => if j = k then v else Table.get d rest k

/-- The entries of `t` but those of index `k`. -/
def Table.drop {α : Type} (t : Table α) (k : Nat) : Table α := t.filter (fun e => e.1 != k)

/-- Put an entry in front of the first one with a higher index. -/
def Table.place {α : Type} (k : Nat) (v : α) : Table α → Table α
  | [] => [(k, v)]
  | (j, u) :: rest => if k < j then (k, v) :: (j, u) :: rest else (j, u) :: Table.place k v rest

/-- `A[k] <- v`. Writing the reset value `d` removes the entry, so equal arrays are equal lists. -/
def Table.set {α : Type} [DecidableEq α] (d : α) (t : Table α) (k : Nat) (v : α) : Table α :=
  if v = d then Table.drop t k else Table.place k v (Table.drop t k)

/-- Every index of `t` is above `lo`, and they rise. -/
def Table.risesFrom {α : Type} (t : Table α) (lo : Nat) : Bool :=
  match t with
  | [] => true
  | (j, _) :: rest => decide (lo < j) && Table.risesFrom rest j

/-- The indices of `t` rise. -/
def Table.rises {α : Type} (t : Table α) : Bool :=
  match t with
  | [] => true
  | (j, _) :: rest => Table.risesFrom rest j

/-- The canonical form: rising indices below `size`, and no entry equal to the reset value `d`. -/
def Table.wf {α : Type} [DecidableEq α] (d : α) (size : Nat) (t : Table α) : Bool :=
  Table.rises t && t.all (fun e => decide (e.1 < size) && decide (e.2 ≠ d))

/-- The entry of a symbol without a code (R33). -/
def CodeEntry.absent : CodeEntry := { len := 0, val := 0 }

/-- `FREQ[s]` (R32). -/
def State.freqOf (s : State) (sym : Nat) : Word := Table.get 0 s.freq sym

/-- `FREQ[s] <- v` (R32). -/
def State.setFreq (s : State) (sym : Nat) (v : Word) : State := { s with freq := Table.set 0 s.freq sym v }

/-- `(CODE_LEN[s], CODE_VAL[s])` (R33). -/
def State.codeOf (s : State) (sym : Nat) : CodeEntry := Table.get CodeEntry.absent s.codes sym

/-- `(CODE_LEN[s], CODE_VAL[s]) <- e` (R33). -/
def State.setCode (s : State) (sym : Nat) (e : CodeEntry) : State :=
  { s with codes := Table.set CodeEntry.absent s.codes sym e }

/-- `CBUF[w]` (R34). -/
def State.cbufOf (s : State) (w : Nat) : Word := Table.get 0 s.cbuf w

/-- `CBUF[w] <- v` (R34). -/
def State.setCbuf (s : State) (w : Nat) (v : Word) : State := { s with cbuf := Table.set 0 s.cbuf w v }

/-- `CBUFV`, the staging buffer read as one value (R34). -/
def State.cbufValue (s : State) : Nat :=
  ((List.range s.cfg.ncw).map (fun w => (s.cbufOf w).toNat * 2 ^ (32 * w))).sum

/-! ### The output FIFO -/

/-- `push` of each entry in turn at the tail (R11, R43). The engine never calls it without room (R66). -/
def State.pushAll (s : State) (es : List Entry) : State := { s with ofifo := s.ofifo ++ es }

/-! ### Errors: the block's exception mechanism -/

/-- `record(E, w)`: the first error wins (R224). This is all that taking an exception does (R226). -/
def State.record (s : State) (e : ErrCode) (w : Word) : State :=
  if s.errcode = .none then { s with errcode := e, errinfo := w } else s

/-- ERR_CLR's action, the return from an error: it lifts the lock and restores nothing else (R102, R226). -/
def State.clearError (s : State) : State := { s with errcode := .none, errinfo := 0 }

/-! ### Reset -/

/-- The reset action (R251): every state element to its reset value in one transition. The configuration is no state
(R20), and what the outside does, has read and decides is not the block's. -/
def State.resetAction (s : State) : State :=
  { State.resetWith s.cfg with
    inReset := s.inReset, hostOps := s.hostOps, hostReads := s.hostReads, turns := s.turns, draws := s.draws }

/-! ### Bit strings -/

/-- The `len` low bits of `v` as a bit string, most significant first (R10): the code of an entry, the bits of a byte. -/
def bitsOf : Nat → Nat → List Bool
  | 0, _ => []
  | len + 1, v => v.testBit len :: bitsOf len v

end Sys2Proof.Machine
end

