-- ==== Sys2Proof/Machine/Operands.lean ====
section
/-! DEFINITION. The operands of a latched command and the checks commands make on them (30_encoding.md R88,
60_exceptions.md R223). -/

namespace Sys2Proof.Machine

/-- `cmd`, the latched command word (R11). With an empty latch, where the engine never executes, it reads 0 (log 11). -/
def State.cmd (s : State) : Word :=
  match s.pending with
  | some l => l.cmd
  | none => 0

/-- `a0`, the ARG0 value latched with the command (R11, R63). -/
def State.a0 (s : State) : Word :=
  match s.pending with
  | some l => l.a0
  | none => 0

/-- `a1`, the ARG1 value latched with the command (R11, R63). -/
def State.a1 (s : State) : Word :=
  match s.pending with
  | some l => l.a1
  | none => 0

/-- `a0[15:0]`, CODE_WR's length (R88). -/
def State.lengthArg (s : State) : Nat := s.a0.toNat % 65536

/-- `{a1, a0}`, DEC_START's bit limit (R69, R88). -/
def State.limitArg (s : State) : Count := s.a1 ++ s.a0

/-- `raise E` (R224): record the error with the latched word; the command ends with no other effect. -/
def State.raise (s : State) (e : ErrCode) : State := s.record e s.cmd

/-- The first check that fails, in the order of R223. -/
def firstError : List (Bool × ErrCode) → Option ErrCode
  | [] => none
  | (bad, e) :: rest => if bad then some e else firstError rest

/-- Run a command's checks in order: raise the first that fails, else do its effect. -/
def State.guarded (s : State) (checks : List (Bool × ErrCode))
    (effect : Host.Outcome State Fault Refusal) : Host.Outcome State Fault Refusal :=
  match firstError checks with
  | some e => .next (s.raise e)
  | none => effect

/-- ESYM: a symbol id at or above NSYM (R88). -/
def State.badSym (s : State) (sym : Nat) : Bool × ErrCode := (decide (s.cfg.nsym ≤ sym), .esym)

/-- EARG: a code word index at or above NCW (R88). -/
def State.badWord (s : State) (w : Nat) : Bool × ErrCode := (decide (s.cfg.ncw ≤ w), .earg)

/-- ESTATE: a stream is open (R150, R171, R193). -/
def State.streamOpen (s : State) : Bool × ErrCode := (s.pkActive || s.decActive, .estate)

/-- ESTATE: no packer stream is open (R172, R173). -/
def State.noPacker (s : State) : Bool × ErrCode := (!s.pkActive, .estate)

/-- ESTATE: no decoder stream is open (R195, R196). -/
def State.noDecoder (s : State) : Bool × ErrCode := (!s.decActive, .estate)

end Sys2Proof.Machine
end

