-- ==== Sys2Proof/Machine/Flags.lean ====
section
/-! DEFINITION. The values that are functions of other state: the symbols with a code, NCODES and MAXLEN (10_state.md R33),
BUSY and the encodings of the error code and the builder phase (R25, R29, R39). -/

namespace Sys2Proof.Machine

/-- The code of ERRCODE (R221). -/
def ErrCode.value : ErrCode → Nat
  | .none => 0x00
  | .eill => 0x01
  | .ebusy => 0x02
  | .estate => 0x03
  | .esym => 0x04
  | .earg => 0x05
  | .eovf => 0x06
  | .enocode => 0x07
  | .ecodelen => 0x08
  | .ebadtable => 0x09
  | .enomatch => 0x0A
  | .epartial => 0x0B
  | .eshort => 0x0C

/-- The two bits of BSTATE (R39). -/
def Phase.value : Phase → Nat
  | .empty => 0
  | .seeded => 1
  | .built => 2

/-- The symbols with a code, in ascending id (R33). -/
def State.codedSyms (s : State) : List Nat :=
  (List.range s.cfg.nsym).filter (fun sym => (s.codeOf sym).len != 0)

/-- NCODES (R33). -/
def State.ncodes (s : State) : Nat := s.codedSyms.length

/-- MAXLEN (R33): the greatest length, or 0. -/
def State.maxLen (s : State) : Nat :=
  (List.range s.cfg.nsym).foldl (fun m sym => max m (s.codeOf sym).len) 0

/-- BUSY (R25, R42). -/
def State.busy (s : State) : Bool := s.pending.isSome

/-- The room in the output FIFO, `OFIFO_DEPTH - OUT_COUNT` (R65). -/
def State.room (s : State) : Nat := s.cfg.ofifoDepth - s.ofifo.length

end Sys2Proof.Machine
end

