-- ==== Sys2Proof/Machine/Queue.lean ====
section
/-! DEFINITION. The priority queue and the merge, over a node store and a heap array (42_builder.md R121 to R125). The
array layout of the heap is the one R123 states (and marks as general knowledge, GK1). -/

namespace Sys2Proof.Machine

/-- WEIGHT of a node (R35). -/
def Node.weight : Node → Word
  | .leaf w _ => w
  | .internal w _ _ => w

/-- `WEIGHT[n]`. A caller has checked that entry n is defined (log 10). -/
def weightAt (nodes : List Node) (n : Nat) : Word :=
  match nodes[n]? with
  | some node => node.weight
  | none => 0

/-- The heap order `less(x, y)`: by weight, equal weights by node index (R121). -/
def less (nodes : List Node) (x y : Nat) : Bool :=
  decide ((weightAt nodes x).toNat < (weightAt nodes y).toNat) ||
    (weightAt nodes x == weightAt nodes y && decide (x < y))

/-- `H[i]`. A caller has checked that position i is defined. -/
def heapAt (h : List Nat) (i : Nat) : Nat := h.getD i 0

/-- `swap H[i], H[j]`. -/
def swapAt (h : List Nat) (i j : Nat) : List Nat := (h.set i (heapAt h j)).set j (heapAt h i)

/-- R123's loop from position i: move up while less than the parent. The first argument bounds the rounds; i rounds
are always enough, since the parent's position is lower. -/
def siftUp (nodes : List Node) : Nat → List Nat → Nat → List Nat
  | 0, h, _ => h
  | fuel + 1, h, i =>
    if i = 0 then h
    else if less nodes (heapAt h i) (heapAt h ((i - 1) / 2)) then
      siftUp nodes fuel (swapAt h i ((i - 1) / 2)) ((i - 1) / 2)
    else h

/-- `heap_insert(n)` (R123): put n at the end and restore the order bottom-up. -/
def heapInsert (nodes : List Node) (h : List Nat) (n : Nat) : List Nat :=
  siftUp nodes h.length (h ++ [n]) h.length

/-- The better of position j and the child position c, which counts only below HSIZE (R124). -/
def betterChild (nodes : List Node) (h : List Nat) (j c : Nat) : Nat :=
  if c < h.length && less nodes (heapAt h c) (heapAt h j) then c else j

/-- R124's loop from position i: swap with the least child while a child is less. The first argument bounds the rounds;
HSIZE rounds are always enough, since a child's position is higher. -/
def siftDown (nodes : List Node) : Nat → List Nat → Nat → List Nat
  | 0, h, _ => h
  | fuel + 1, h, i =>
    let j := betterChild nodes h (betterChild nodes h i (2 * i + 1)) (2 * i + 2)
    if j = i then h else siftDown nodes fuel (swapAt h i j) j

/-- `heap_remove_min()` (R124): the root, and the heap with the last element in its place, order restored top-down. -/
def heapRemoveMin (nodes : List Node) (h : List Nat) : Option (Nat × List Nat) :=
  match h with
  | [] => none
  | m :: rest =>
    match rest.getLast? with
    | none => some (m, [])
    | some last => some (m, siftDown nodes rest.length (last :: rest.dropLast) 0)

/-- A node store with its heap. -/
abbrev Forest := List Node × List Nat

/-- Allocate a node at index NNODES and insert it into the heap (R122, R123). -/
def Forest.add (f : Forest) (node : Node) : Forest :=
  (f.1 ++ [node], heapInsert (f.1 ++ [node]) f.2 f.1.length)

/-- `merge()` (R125): the two least nodes become the left and the right child of a new node, which is inserted. The
sum is stored into the 32-bit WEIGHT; BLD_SEED's check keeps it from wrapping (R126). It is called only when HSIZE >= 2;
below that it changes nothing. -/
def merge (f : Forest) : Forest :=
  match heapRemoveMin f.1 f.2 with
  | none => f
  | some (a, h1) =>
    match heapRemoveMin f.1 h1 with
    | none => f
    | some (b, h2) => Forest.add (f.1, h2) (.internal (weightAt f.1 a + weightAt f.1 b) a b)

/-- `while HSIZE >= 2: merge()`, with the number of merges done (R129). The first argument bounds the rounds; HSIZE
rounds are always enough, since a merge shortens the heap by one. -/
def mergeAll : Nat → Forest → Forest × Nat
  | 0, f => (f, 0)
  | fuel + 1, f =>
    if f.2.length < 2 then (f, 0)
    else
      let rest := mergeAll fuel (merge f)
      (rest.1, rest.2 + 1)

/-- One leaf per symbol with a non-zero count, in the given order, each inserted as it is allocated (R126). -/
def seedLeaves (s : State) : List Nat → Forest → Forest
  | [], f => f
  | sym :: rest, f =>
    if s.freqOf sym = 0 then seedLeaves s rest f
    else seedLeaves s rest (Forest.add f (.leaf (s.freqOf sym) sym))

/-- The exact sum of all counts (R126). -/
def State.freqTotal (s : State) : Nat := ((List.range s.cfg.nsym).map (fun sym => (s.freqOf sym).toNat)).sum

/-- Every heap position refers to a defined node-store entry (U10, log 10). -/
def State.heapDefined (s : State) : Bool := s.heap.all (fun n => decide (n < s.nodes.length))

end Sys2Proof.Machine
end

