-- ==== Sys2Proof/Machine/Builder.lean ====
section
/-! DEFINITION. The tree builder commands (42_builder.md R126 to R132). -/

namespace Sys2Proof.Machine

/-- BLD_SEED (R126). On EOVF any earlier tree stays. -/
def execBldSeed (s : State) : Host.Outcome State Fault Refusal :=
  s.guarded [(decide (wmax < s.freqTotal), .eovf)]
    (let f := seedLeaves s (List.range s.cfg.nsym) ([], [])
     .next { s with
       nodes := f.1, heap := f.2, root := none, bstate := .seeded, result0 := BitVec.ofNat 32 f.1.length })

/-- BLD_STEP (R128): one merge. -/
def execBldStep (s : State) : Host.Outcome State Fault Refusal :=
  s.guarded [(s.bstate != .seeded || decide (s.heap.length < 2), .estate)]
    (if s.heapDefined then
      let f := merge (s.nodes, s.heap)
      .next { s with
        nodes := f.1, heap := f.2, result0 := BitVec.ofNat 32 s.nodes.length,
        result1 := weightAt f.1 s.nodes.length }
    else .fault .undefinedEntry)

/-- BLD_FINISH (R129): merge until at most one node is queued, and fix the root, which stays in the heap. -/
def execBldFinish (s : State) : Host.Outcome State Fault Refusal :=
  s.guarded [(s.bstate != .seeded, .estate)]
    (if s.heapDefined then
      let m := mergeAll s.heap.length (s.nodes, s.heap)
      .next { s with
        nodes := m.1.1, heap := m.1.2, root := m.1.2.head?, bstate := .built,
        result0 := BitVec.ofNat 32 m.2,
        result1 := match m.1.2.head? with
          | some r => weightAt m.1.1 r
          | none => 0 }
    else .fault .undefinedEntry)

/-- Report a heap entry and its weight (R130, R131). -/
def State.reportQueued (s : State) (n : Nat) : Host.Outcome State Fault Refusal :=
  match s.nodes[n]? with
  | some node => .next { s with result0 := BitVec.ofNat 32 n, result1 := node.weight }
  | none => .fault .undefinedEntry

/-- PQ_PEEK (R130): the minimum of the queue, not removed. -/
def execPqPeek (s : State) : Host.Outcome State Fault Refusal :=
  s.guarded [(s.heap.isEmpty, .estate)] (s.reportQueued (heapAt s.heap 0))

/-- HEAP_RD (R131): one heap position. -/
def execHeapRd (idx : Nat) (s : State) : Host.Outcome State Fault Refusal :=
  s.guarded [(decide (s.heap.length ≤ idx), .earg)] (s.reportQueued (heapAt s.heap idx))

/-- NODE_RD (R132): one node-store entry; RESULT1 bit 31 tells an internal node. -/
def execNodeRd (idx : Nat) (s : State) : Host.Outcome State Fault Refusal :=
  match s.nodes[idx]? with
  | none => .next (s.raise .earg)
  | some (.leaf w sym) =>
    .next { s with result0 := w, result1 := BitVec.ofNat 32 sym, result2 := 0 }
  | some (.internal w l r) =>
    .next { s with result0 := w, result1 := 0x80000000 + BitVec.ofNat 32 l, result2 := BitVec.ofNat 32 r }

end Sys2Proof.Machine
end

