-- ==== Sys2Proof/Machine/Control.lean ====
section
/-! DEFINITION. The control commands (40_control.md). -/

namespace Sys2Proof.Machine

/-- NOP (R100): nothing. -/
def execNop (s : State) : Host.Outcome State Fault Refusal := .next s

/-- SOFT_RESET (R101). It is acted on in the host's CMD write (R63) and never latched; executed from a latch, its rule
still is the reset action (log 14). -/
def execSoftReset (s : State) : Host.Outcome State Fault Refusal := .next s.resetAction

/-- ERR_CLR (R102). -/
def execErrClr (s : State) : Host.Outcome State Fault Refusal := .next s.clearError

end Sys2Proof.Machine
end

