-- ==== Sys2Proof/Machine/Extractor.lean ====
section
/-! DEFINITION. The code extractor and code table commands (43_extractor.md R151 to R156). -/

namespace Sys2Proof.Machine

/-- `walk(n, v, d)` (R151): the leaves below node n with the path to each, left subtree first, or none when it would
read an entry that holds no value. The first argument bounds the depth; NNODES is always enough, since a child's index
is below its parent's (R48(b)). -/
def walk (nodes : List Node) : Nat → Nat → Nat → Nat → Option (List (Nat × CodeEntry))
  | 0, _, _, _ => none
  | fuel + 1, n, v, d =>
    match nodes[n]? with
    | none => none
    | some (.leaf _ sym) => some [(sym, { len := d, val := v })]
    | some (.internal _ l r) =>
      match walk nodes fuel l (2 * v) (d + 1), walk nodes fuel r (2 * v + 1) (d + 1) with
      | some ls, some rs => some (ls ++ rs)
      | _, _ => none

/-- The codes the tree gives (R151): none without a root, the code "0" for a single leaf, else the walk's paths. -/
def State.treeCodes (s : State) : Option (List (Nat × CodeEntry)) :=
  match s.root with
  | none => some []
  | some r =>
    match s.nodes[r]? with
    | none => none
    | some (.leaf _ sym) => some [(sym, { len := 1, val := 0 })]
    | some (.internal _ _ _) => walk s.nodes s.nodes.length r 0 0

/-- The temporary table T of R151: each recorded code written into the empty table. -/
def tableOf (leaves : List (Nat × CodeEntry)) : Table CodeEntry :=
  leaves.foldl (fun t e => Table.set CodeEntry.absent t e.1 e.2) []

/-- Replace the code table and report NCODES and MAXLEN (R151). -/
def State.installCodes (s : State) (t : Table CodeEntry) : State :=
  { s with
    codes := t,
    result0 := BitVec.ofNat 32 ({ s with codes := t } : State).ncodes,
    result1 := BitVec.ofNat 32 ({ s with codes := t } : State).maxLen }

/-- EXTRACT (R151). On ECODELEN the table is unchanged. -/
def execExtract (s : State) : Host.Outcome State Fault Refusal :=
  s.guarded [(s.bstate != .built, .estate), s.streamOpen]
    (match s.treeCodes with
     | none => .fault .undefinedEntry
     | some leaves =>
       s.guarded [(leaves.any (fun e => decide (s.cfg.codeMax < e.2.len)), .ecodelen)]
         (.next (s.installCodes (tableOf leaves))))

/-- CODE_RD (R153): the length, and word w of the value. -/
def execCodeRd (w sym : Nat) (s : State) : Host.Outcome State Fault Refusal :=
  s.guarded [s.badSym sym, s.badWord w]
    (.next { s with
      result0 := BitVec.ofNat 32 (s.codeOf sym).len,
      result1 := BitVec.ofNat 32 ((s.codeOf sym).val / 2 ^ (32 * w)) })

/-- CODE_CLR (R154): every entry without a code. -/
def execCodeClr (s : State) : Host.Outcome State Fault Refusal :=
  s.guarded [s.streamOpen] (.next { s with codes := [] })

/-- CBUF_WR (R155): `CBUF[w] <- a0`. -/
def execCbufWr (w : Nat) (s : State) : Host.Outcome State Fault Refusal :=
  s.guarded [s.badWord w] (.next (s.setCbuf w s.a0))

/-- CODE_WR (R156): the low L bits of CBUF become the code of the symbol, with L = a0[15:0]. -/
def execCodeWr (sym : Nat) (s : State) : Host.Outcome State Fault Refusal :=
  s.guarded [s.streamOpen, s.badSym sym, (decide (s.cfg.codeMax < s.lengthArg), .earg)]
    (.next (s.setCode sym { len := s.lengthArg, val := s.cbufValue % 2 ^ s.lengthArg }))

end Sys2Proof.Machine
end

