-- ==== Sys2Proof/Machine/Frequency.lean ====
section
/-! DEFINITION. The frequency table commands (41_frequency.md). -/

namespace Sys2Proof.Machine

/-- FREQ_CLR (R111): every count 0. -/
def execFreqClr (s : State) : Host.Outcome State Fault Refusal := .next { s with freq := [] }

/-- FREQ_WR (R112): `FREQ[s] <- a0`. -/
def execFreqWr (sym : Nat) (s : State) : Host.Outcome State Fault Refusal :=
  s.guarded [s.badSym sym] (.next (s.setFreq sym s.a0))

/-- FREQ_INC (R113): one more occurrence; EOVF at the maximum, never a wrap. -/
def execFreqInc (sym : Nat) (s : State) : Host.Outcome State Fault Refusal :=
  s.guarded [s.badSym sym, (s.freqOf sym == 0xFFFFFFFF, .eovf)] (.next (s.setFreq sym (s.freqOf sym + 1)))

/-- FREQ_RD (R114): `RESULT0 <- FREQ[s]`. -/
def execFreqRd (sym : Nat) (s : State) : Host.Outcome State Fault Refusal :=
  s.guarded [s.badSym sym] (.next { s with result0 := s.freqOf sym })

end Sys2Proof.Machine
end

