-- ==== Sys2Proof/Machine/Matcher.lean ====
section
/-! DEFINITION. The bit-matcher decoder commands (45_decoder.md R190 to R196). -/

namespace Sys2Proof.Machine

/-- `prefix(s, t)` (R191): the code of the first entry is how the code of the second begins, equal codes included. -/
def CodeEntry.begins (a b : CodeEntry) : Bool :=
  decide (a.len ≤ b.len) && b.val / 2 ^ (b.len - a.len) == a.val

/-- The table is valid: no code of one symbol begins the code of another (R191). -/
def State.tableValid (s : State) : Bool :=
  s.codedSyms.all (fun x => s.codedSyms.all (fun y => x == y || !(s.codeOf x).begins (s.codeOf y)))

/-- `lookup(len, v)` (R192). On a valid table at most one symbol has the code; on another it is the lowest (log 15). -/
def State.lookup (s : State) (len v : Nat) : Option Nat :=
  (List.range s.cfg.nsym).find? (fun sym => s.codeOf sym == { len := len, val := v })

/-- The part of the decoder that a bit changes: ACC, ACC_LEN, DEC_BITCNT, the symbols pushed, and whether ENOMATCH has
stopped the byte (R194). -/
structure Match where
  acc : Nat
  accLen : Nat
  bitcnt : Count
  out : List Entry
  stopped : Bool
  deriving DecidableEq, Repr

/-- `dec_bit(b)` (R194). -/
def decBit (s : State) (b : Bool) (m : Match) : Match :=
  if s.limitEn && decide (s.decNbits.toNat ≤ m.bitcnt.toNat) then m
  else
    match s.lookup (m.accLen + 1) (2 * m.acc + b.toNat) with
    | some sym =>
      { m with acc := 0, accLen := 0, bitcnt := m.bitcnt + 1, out := m.out ++ [BitVec.ofNat 16 sym] }
    | none =>
      { m with
        acc := 2 * m.acc + b.toNat, accLen := m.accLen + 1, bitcnt := m.bitcnt + 1,
        stopped := decide (s.maxLen ≤ m.accLen + 1) }

/-- DEC_BYTE's loop: bit after bit until ENOMATCH (R195). -/
def decBits (s : State) : List Bool → Match → Match
  | [], m => m
  | b :: bs, m =>
    let m' := decBit s b m
    if m'.stopped then m' else decBits s bs m'

/-- What DEC_BYTE makes of a byte, most significant bit first (R195). -/
def State.matchByte (s : State) (byte : Byte) : Match :=
  decBits s (bitsOf 8 byte.toNat)
    { acc := s.acc, accLen := s.accLen, bitcnt := s.decBitcnt, out := [], stopped := false }

/-- DEC_START (R193). -/
def execDecStart (limit : Bool) (s : State) : Host.Outcome State Fault Refusal :=
  s.guarded [s.streamOpen, (!s.tableValid, .ebadtable)]
    (.next { s with
      ofifo := [], acc := 0, accLen := 0, decBitcnt := 0, decResidue := 0, limitEn := limit,
      decNbits := if limit then s.limitArg else 0, decActive := true })

/-- DEC_BYTE (R195). ENOMATCH is recorded after the bits before it took effect, and closes the stream (R227(a)). -/
def execDecByte (byte : Byte) (s : State) : Host.Outcome State Fault Refusal :=
  s.guarded [s.noDecoder]
    (let m := s.matchByte byte
     let t : State := { s.pushAll m.out with acc := m.acc, accLen := m.accLen, decBitcnt := m.bitcnt }
     .next (if m.stopped then { t with decActive := false }.raise .enomatch else t))

/-- The error DEC_END records after terminating (R196): ESHORT before EPARTIAL, both in limit mode only. -/
def State.endError (s : State) : Option ErrCode :=
  firstError [(s.limitEn && decide (s.decBitcnt.toNat < s.decNbits.toNat), .eshort),
              (s.limitEn && decide (0 < s.accLen), .epartial)]

/-- DEC_END (R196): terminate, keeping the residue's length. -/
def execDecEnd (s : State) : Host.Outcome State Fault Refusal :=
  s.guarded [s.noDecoder]
    (let t : State := { s with decResidue := s.accLen, acc := 0, accLen := 0, decActive := false }
     .next (match s.endError with
       | some e => t.raise e
       | none => t))

end Sys2Proof.Machine
end

