-- ==== Sys2Proof/Machine/Packer.lean ====
section
/-! DEFINITION. The bit-packer commands (44_packer.md R171 to R173). -/

namespace Sys2Proof.Machine

/-- R172's loop: append bits to an accumulator of `nb` pending bits, a byte out whenever it holds 8, the oldest bit most
significant. Answers the bytes pushed, the accumulator and its bit count. -/
def packBits : List Bool → Byte → Nat → List Byte × Byte × Nat
  | [], acc, nb => ([], acc, nb)
  | b :: bs, acc, nb =>
    let acc' := 2 * acc + BitVec.ofNat 8 b.toNat
    if nb + 1 = 8 then
      let rest := packBits bs 0 0
      (acc' :: rest.1, rest.2)
    else packBits bs acc' (nb + 1)

/-- What PK_SYM makes of a symbol's code: the loop from the packer's pending bits (R172). -/
def State.packSym (s : State) (sym : Nat) : List Byte × Byte × Nat :=
  packBits (bitsOf (s.codeOf sym).len (s.codeOf sym).val) (s.pkAcc.setWidth 8) s.pkNb.toNat

/-- A byte as a FIFO entry, `zext_16` (R43). -/
def byteEntry (b : Byte) : Entry := b.setWidth 16

/-- The checks of PK_SYM, in order (R172). -/
def State.pkSymChecks (s : State) (sym : Nat) : List (Bool × ErrCode) :=
  [s.noPacker, s.badSym sym, ((s.codeOf sym).len == 0, .enocode)]

/-- The entries PK_FLUSH pushes: the padded partial byte, if there is one (R173). -/
def State.flushEntries (s : State) : List Entry :=
  if s.pkNb = 0 then []
  else [byteEntry (s.pkAcc.setWidth 8 <<< (8 - s.pkNb.toNat))]

/-- PK_START (R171). -/
def execPkStart (s : State) : Host.Outcome State Fault Refusal :=
  s.guarded [s.streamOpen]
    (.next { s with ofifo := [], pkAcc := 0, pkNb := 0, pkBitcnt := 0, pkActive := true })

/-- PK_SYM (R172): append one symbol's code. -/
def execPkSym (sym : Nat) (s : State) : Host.Outcome State Fault Refusal :=
  s.guarded (s.pkSymChecks sym)
    (let p := s.packSym sym
     .next { s.pushAll (p.1.map byteEntry) with
       pkAcc := p.2.1.setWidth 7, pkNb := BitVec.ofNat 3 p.2.2,
       pkBitcnt := s.pkBitcnt + BitVec.ofNat 64 (s.codeOf sym).len })

/-- PK_FLUSH (R173): pad and close. PK_BITCNT stays readable. -/
def execPkFlush (s : State) : Host.Outcome State Fault Refusal :=
  s.guarded [s.noPacker]
    (.next { s.pushAll s.flushEntries with pkAcc := 0, pkNb := 0, pkActive := false })

end Sys2Proof.Machine
end

