-- ==== Sys2Proof/Syntax.lean ====
section
/-! DEFINITION. The command set of the HUFF core: one constructor per row of spec/opcode_table.json (30_encoding.md R89). -/

namespace Sys2Proof

/-- The 24 commands (R89) with the operand fields of their formats (R81 to R87). A SYM, IDX or W field is an unsigned
number (R88); BYTE is a packed byte; L is the limit-enable flag. -/
inductive Instr where
  /-- R100, format N. -/
  | nop
  /-- R101, format N. -/
  | softReset
  /-- R102, format N. -/
  | errClr
  /-- R111, format N. -/
  | freqClr
  /-- R112, format S. -/
  | freqWr (sym : Nat)
  /-- R113, format S. -/
  | freqInc (sym : Nat)
  /-- R114, format S. -/
  | freqRd (sym : Nat)
  /-- R126, format N. -/
  | bldSeed
  /-- R128, format N. -/
  | bldStep
  /-- R129, format N. -/
  | bldFinish
  /-- R130, format N. -/
  | pqPeek
  /-- R131, format I. -/
  | heapRd (idx : Nat)
  /-- R132, format I. -/
  | nodeRd (idx : Nat)
  /-- R151, format N. -/
  | extract
  /-- R153, format SW. -/
  | codeRd (w sym : Nat)
  /-- R154, format N. -/
  | codeClr
  /-- R155, format W. -/
  | cbufWr (w : Nat)
  /-- R156, format S. -/
  | codeWr (sym : Nat)
  /-- R171, format N. -/
  | pkStart
  /-- R172, format S. -/
  | pkSym (sym : Nat)
  /-- R173, format N. -/
  | pkFlush
  /-- R193, format F. -/
  | decStart (limit : Bool)
  /-- R195, format B. -/
  | decByte (byte : Byte)
  /-- R196, format N. -/
  | decEnd
  deriving DecidableEq, Repr

end Sys2Proof
end

