-- ==== Sys2Proof/Machine/Dispatch.lean ====
section
/-! DEFINITION. What each command does (30_encoding.md R89): one arm per constructor. -/

namespace Sys2Proof.Machine

def exec (i : Instr) (s : State) : Host.Outcome State Fault Refusal :=
  match i with
  -- control
  | .nop => Sys2Proof.Machine.execNop s
  | .softReset => Sys2Proof.Machine.execSoftReset s
  | .errClr => Sys2Proof.Machine.execErrClr s
  -- frequency table
  | .freqClr => Sys2Proof.Machine.execFreqClr s
  | .freqWr sym => Sys2Proof.Machine.execFreqWr sym s
  | .freqInc sym => Sys2Proof.Machine.execFreqInc sym s
  | .freqRd sym => Sys2Proof.Machine.execFreqRd sym s
  -- tree builder and priority queue
  | .bldSeed => Sys2Proof.Machine.execBldSeed s
  | .bldStep => Sys2Proof.Machine.execBldStep s
  | .bldFinish => Sys2Proof.Machine.execBldFinish s
  | .pqPeek => Sys2Proof.Machine.execPqPeek s
  | .heapRd idx => Sys2Proof.Machine.execHeapRd idx s
  | .nodeRd idx => Sys2Proof.Machine.execNodeRd idx s
  -- code extractor and code table
  | .extract => Sys2Proof.Machine.execExtract s
  | .codeRd w sym => Sys2Proof.Machine.execCodeRd w sym s
  | .codeClr => Sys2Proof.Machine.execCodeClr s
  | .cbufWr w => Sys2Proof.Machine.execCbufWr w s
  | .codeWr sym => Sys2Proof.Machine.execCodeWr sym s
  -- bit-packer
  | .pkStart => Sys2Proof.Machine.execPkStart s
  | .pkSym sym => Sys2Proof.Machine.execPkSym sym s
  | .pkFlush => Sys2Proof.Machine.execPkFlush s
  -- decoder
  | .decStart limit => Sys2Proof.Machine.execDecStart limit s
  | .decByte byte => Sys2Proof.Machine.execDecByte byte s
  | .decEnd => Sys2Proof.Machine.execDecEnd s

end Sys2Proof.Machine
end

