-- ==== Sys2Proof/WellFormed.lean ====
section
/-! DEFINITION. Which instructions have an encoding: every operand fits its field (30_encoding.md R82 to R85, R88). -/

namespace Sys2Proof

/-- A symbol id fits the 16-bit SYM field (R82, R83). -/
def symFits (sym : Nat) : Bool := decide (sym < 65536)

/-- A heap position or node index fits the 17-bit IDX field (R84). -/
def idxFits (idx : Nat) : Bool := decide (idx < 131072)

/-- A word index fits the 8-bit W field (R83, R85). -/
def wordIndexFits (w : Nat) : Bool := decide (w < 256)

/-- Every operand fits the field its format gives it. The remaining operands, BYTE and L, fit by their types. -/
def Instr.wellFormed : Instr → Bool
  | .nop => true
  | .softReset => true
  | .errClr => true
  | .freqClr => true
  | .freqWr sym => symFits sym
  | .freqInc sym => symFits sym
  | .freqRd sym => symFits sym
  | .bldSeed => true
  | .bldStep => true
  | .bldFinish => true
  | .pqPeek => true
  | .heapRd idx => idxFits idx
  | .nodeRd idx => idxFits idx
  | .extract => true
  | .codeRd w sym => wordIndexFits w && symFits sym
  | .codeClr => true
  | .cbufWr w => wordIndexFits w
  | .codeWr sym => symFits sym
  | .pkStart => true
  | .pkSym sym => symFits sym
  | .pkFlush => true
  | .decStart _ => true
  | .decByte _ => true
  | .decEnd => true

end Sys2Proof
end

