-- ==== Sys2Proof/Decode.lean ====
section
/-! DEFINITION. Decoding and encoding of command words (30_encoding.md R80 to R92). Decoding is total on 32-bit words and
rejects by name. -/

namespace Sys2Proof

/-- Why a word is no command (R90, R91). -/
inductive Illegal where
  /-- Bits [31:24] are no opcode of the map (R91). -/
  | undefinedOpcode
  /-- A reserved bit of the opcode's format is set (R90). -/
  | reservedBit
  deriving DecidableEq, Repr

/-- `c[lo+width-1 : lo]`, read as an unsigned integer (R9). -/
def field (c : Word) (lo width : Nat) : Nat := c.toNat / 2 ^ lo % 2 ^ width

/-- `OPC = c[31:24]` (R80). -/
def opcodeField (c : Word) : Nat := field c 24 8

/-- A format of R81 to R87 together with the command it builds from its fields. -/
inductive Format where
  /-- N: [23:0] reserved (R81). -/
  | noOperand (i : Instr)
  /-- S: [23:16] reserved, [15:0] SYM (R82). -/
  | symbol (mk : Nat → Instr)
  /-- SW: [23:16] W, [15:0] SYM (R83). -/
  | symbolWord (mk : Nat → Nat → Instr)
  /-- I: [23:17] reserved, [16:0] IDX (R84). -/
  | index (mk : Nat → Instr)
  /-- W: [23:8] reserved, [7:0] W (R85). -/
  | word (mk : Nat → Instr)
  /-- B: [23:8] reserved, [7:0] BYTE (R86). -/
  | byte (mk : Byte → Instr)
  /-- F: [23:1] reserved, [0] L (R87). -/
  | flag (mk : Bool → Instr)

/-- The opcode map (R89). -/
def opcodeMap : List (Nat × Format) :=
  [ (0x00, .noOperand .nop),
    (0x01, .noOperand .softReset),
    (0x02, .noOperand .errClr),
    (0x10, .noOperand .freqClr),
    (0x11, .symbol .freqWr),
    (0x12, .symbol .freqInc),
    (0x13, .symbol .freqRd),
    (0x20, .noOperand .bldSeed),
    (0x21, .noOperand .bldStep),
    (0x22, .noOperand .bldFinish),
    (0x23, .noOperand .pqPeek),
    (0x24, .index .heapRd),
    (0x25, .index .nodeRd),
    (0x30, .noOperand .extract),
    (0x31, .symbolWord .codeRd),
    (0x32, .noOperand .codeClr),
    (0x33, .word .cbufWr),
    (0x34, .symbol .codeWr),
    (0x40, .noOperand .pkStart),
    (0x41, .symbol .pkSym),
    (0x42, .noOperand .pkFlush),
    (0x50, .flag .decStart),
    (0x51, .byte .decByte),
    (0x52, .noOperand .decEnd) ]

/-- A command if the reserved field holds 0, else ILLEGAL (R90). -/
def ifReservedZero (reserved : Nat) (i : Instr) : Except Illegal Instr :=
  if reserved = 0 then .ok i else .error .reservedBit

/-- Read the fields of a format, testing every reserved bit (R90, R92). -/
def Format.read (c : Word) : Format → Except Illegal Instr
  | .noOperand i => ifReservedZero (field c 0 24) i
  | .symbol mk => ifReservedZero (field c 16 8) (mk (field c 0 16))
  | .symbolWord mk => .ok (mk (field c 16 8) (field c 0 16))
  | .index mk => ifReservedZero (field c 17 7) (mk (field c 0 17))
  | .word mk => ifReservedZero (field c 8 16) (mk (field c 0 8))
  | .byte mk => ifReservedZero (field c 8 16) (mk (BitVec.ofNat 8 (field c 0 8)))
  | .flag mk => ifReservedZero (field c 1 23) (mk (field c 0 1 == 1))

/-- The format of an opcode, if the map has it (R92). -/
def formatOf (opc : Nat) : Option Format :=
  (opcodeMap.find? (fun row => row.1 == opc)).map Prod.snd

/-- R92: the command a word is, or why it is ILLEGAL. -/
def decode (c : Word) : Except Illegal Instr :=
  match formatOf (opcodeField c) with
  | none => .error .undefinedOpcode
  | some fmt => fmt.read c

/-- The opcode of each command (R89). -/
def Instr.opcode : Instr → Nat
  | .nop => 0x00
  | .softReset => 0x01
  | .errClr => 0x02
  | .freqClr => 0x10
  | .freqWr _ => 0x11
  | .freqInc _ => 0x12
  | .freqRd _ => 0x13
  | .bldSeed => 0x20
  | .bldStep => 0x21
  | .bldFinish => 0x22
  | .pqPeek => 0x23
  | .heapRd _ => 0x24
  | .nodeRd _ => 0x25
  | .extract => 0x30
  | .codeRd _ _ => 0x31
  | .codeClr => 0x32
  | .cbufWr _ => 0x33
  | .codeWr _ => 0x34
  | .pkStart => 0x40
  | .pkSym _ => 0x41
  | .pkFlush => 0x42
  | .decStart _ => 0x50
  | .decByte _ => 0x51
  | .decEnd => 0x52

/-- Bits [23:0] of each command: its operand fields, every reserved bit 0 (R81 to R87). -/
def Instr.operandBits : Instr → Nat
  | .nop => 0
  | .softReset => 0
  | .errClr => 0
  | .freqClr => 0
  | .freqWr sym => sym
  | .freqInc sym => sym
  | .freqRd sym => sym
  | .bldSeed => 0
  | .bldStep => 0
  | .bldFinish => 0
  | .pqPeek => 0
  | .heapRd idx => idx
  | .nodeRd idx => idx
  | .extract => 0
  | .codeRd w sym => w * 2 ^ 16 + sym
  | .codeClr => 0
  | .cbufWr w => w
  | .codeWr sym => sym
  | .pkStart => 0
  | .pkSym sym => sym
  | .pkFlush => 0
  | .decStart limit => limit.toNat
  | .decByte byte => byte.toNat
  | .decEnd => 0

/-- The command word of an instruction (R80): its opcode in [31:24], its operand fields below. It is the instruction's
word when the instruction is well-formed. -/
def encode (i : Instr) : Word := BitVec.ofNat 32 (i.opcode * 2 ^ 24 + i.operandBits)

/-- The instruction the decoder reads from an opcode-table word of `nbits` bits. Every command is one 32-bit word (R80). -/
def decodeTableWord (nbits w : Nat) : Option Instr :=
  match decode (BitVec.ofNat 32 (w % 2 ^ nbits)) with
  | .ok i => some i
  | .error _ => none

end Sys2Proof
end

