-- ==== Sys2Proof/Machine/Hold.lean ====
section
/-! DEFINITION. When the engine step is enabled: the FIFO room a command needs (20_memory.md R65, R66). -/

namespace Sys2Proof.Machine

/-- How many entries the effect pushes if the checks pass; 0 when the command raises an error before pushing (R66). -/
def needAfter (checks : List (Bool × ErrCode)) (pushes : Nat) : Nat :=
  match firstError checks with
  | some _ => 0
  | none => pushes

/-- `need` of a command (R66): 0 for every command but PK_SYM, PK_FLUSH and DEC_BYTE, whose pushes are counted against
an unbounded FIFO. -/
def State.needOf (s : State) : Instr → Nat
  | .nop => 0
  | .softReset => 0
  | .errClr => 0
  | .freqClr => 0
  | .freqWr _ => 0
  | .freqInc _ => 0
  | .freqRd _ => 0
  | .bldSeed => 0
  | .bldStep => 0
  | .bldFinish => 0
  | .pqPeek => 0
  | .heapRd _ => 0
  | .nodeRd _ => 0
  | .extract => 0
  | .codeRd _ _ => 0
  | .codeClr => 0
  | .cbufWr _ => 0
  | .codeWr _ => 0
  | .pkStart => 0
  | .pkSym sym => needAfter (s.pkSymChecks sym) (s.packSym sym).1.length
  | .pkFlush => needAfter [s.noPacker] s.flushEntries.length
  | .decStart _ => 0
  | .decByte byte => needAfter [s.noDecoder] (s.matchByte byte).out.length
  | .decEnd => 0

/-- `need(c, state)` of a command word (R66); an illegal word raises EILL and pushes nothing. -/
def State.need (s : State) (c : Word) : Nat :=
  match decode c with
  | .ok i => s.needOf i
  | .error _ => 0

/-- The engine step is enabled: the latch is full and the room is enough (R65). -/
def State.engineEnabled (s : State) : Bool :=
  match s.pending with
  | some l => decide (s.need l.cmd ≤ s.room)
  | none => false

/-- OUTWAIT: the latched command is held for FIFO room (R25, R66). -/
def State.held (s : State) : Bool := s.busy && !s.engineEnabled

end Sys2Proof.Machine
end

