-- ==== Sys2Proof/Machine/Window.lean ====
section
/-! DEFINITION. The register window as the host sees it: what each register reads, which reads are exact while the block
is busy, the acceptance of a command, and the host's step (10_state.md R21 to R47, 20_memory.md R60 to R70). -/

namespace Sys2Proof.Machine

/-- `v * 2^lo` of a Bool field. -/
def flagAt (b : Bool) (lo : Nat) : Nat := b.toNat * 2 ^ lo

/-- STATUS (R25). -/
def State.status (s : State) : Word :=
  BitVec.ofNat 32
    (flagAt s.busy 0 + flagAt s.held 1 + flagAt (s.errcode != .none) 2 + s.bstate.value * 2 ^ 3 +
      flagAt s.pkActive 5 + flagAt s.decActive 6 + flagAt s.limitEn 7 + s.pkNb.toNat * 2 ^ 8 +
      flagAt (!s.ofifo.isEmpty) 12)

/-- OUT_DATA (R31): VALID and the head entry, or 0 on an empty FIFO. -/
def State.outData (s : State) : Word :=
  match s.ofifo with
  | [] => 0
  | e :: _ => BitVec.ofNat 32 (2 ^ 31 + e.toNat)

/-- ROOT (R38): ROOT_VALID in bit 31 and the index, or 0. -/
def State.rootReg (s : State) : Word :=
  match s.root with
  | none => 0
  | some r => BitVec.ofNat 32 (2 ^ 31 + r)

/-- The low half of a 64-bit counter (R69). -/
def loHalf (c : Count) : Word := c.setWidth 32

/-- The high half of a 64-bit counter (R69). -/
def hiHalf (c : Count) : Word := (c >>> 32).setWidth 32

/-- The exact value of the register at an offset of the window (R21). CMD and the reserved offsets read 0 (R26, R47). -/
def State.regValue (s : State) (off : Nat) : Word :=
  if off = 0x00 then 0x48554646
  else if off = 0x04 then BitVec.ofNat 32 s.cfg.nsym
  else if off = 0x08 then BitVec.ofNat 32 (s.cfg.ofifoDepth * 2 ^ 16 + s.cfg.codeMax)
  else if off = 0x0C then s.status
  else if off = 0x14 then s.arg0
  else if off = 0x18 then s.arg1
  else if off = 0x1C then s.result0
  else if off = 0x20 then s.result1
  else if off = 0x24 then s.result2
  else if off = 0x28 then BitVec.ofNat 32 s.errcode.value
  else if off = 0x2C then s.errinfo
  else if off = 0x30 then s.outData
  else if off = 0x34 then BitVec.ofNat 32 s.ofifo.length
  else if off = 0x38 then BitVec.ofNat 32 s.nodes.length
  else if off = 0x3C then BitVec.ofNat 32 s.heap.length
  else if off = 0x40 then s.rootReg
  else if off = 0x44 then BitVec.ofNat 32 s.ncodes
  else if off = 0x48 then BitVec.ofNat 32 s.maxLen
  else if off = 0x4C then loHalf s.pkBitcnt
  else if off = 0x50 then hiHalf s.pkBitcnt
  else if off = 0x54 then loHalf s.decBitcnt
  else if off = 0x58 then hiHalf s.decBitcnt
  else if off = 0x5C then loHalf s.decNbits
  else if off = 0x60 then hiHalf s.decNbits
  else if off = 0x64 then BitVec.ofNat 32 s.accLen
  else if off = 0x68 then BitVec.ofNat 32 s.decResidue
  else 0

/-- The registers that read as an unspecified value while BUSY = 1 (R67, U1): RESULT0 to RESULT2 and NNODES to
DEC_RESIDUE. DEDUCED: CMD and the reserved offsets, which R67 names in neither list, keep reading 0 (log 6). -/
def inexactWhileBusy (off : Nat) : Bool :=
  decide (0x1C ≤ off ∧ off ≤ 0x24) || decide (0x38 ≤ off ∧ off ≤ 0x68)

/-- A read of an inexact register while BUSY = 1 (R67). -/
def State.drawsValue (s : State) (off : Nat) : Bool := s.busy && inexactWhileBusy off

/-- What `RegRead(off)` returns (R61): the register, or a free draw (R67). -/
def State.readValue (s : State) (off : Nat) : Word :=
  if s.drawsValue off then Config.freeRead s.draws else s.regValue off

/-- `RegRead(off)` (R61): the value goes to the host; a read of OUT_DATA removes the FIFO head if there is one (R31). -/
def State.regRead (s : State) (off : Nat) : State :=
  { s with
    hostReads := s.hostReads ++ [s.readValue off],
    draws := if s.drawsValue off then s.draws + 1 else s.draws,
    ofifo := if off = 0x30 then s.ofifo.tail else s.ofifo }

/-- The SOFT_RESET word (R63). -/
def softResetWord : Word := 0x01000000

/-- The ERR_CLR word (R63). -/
def errClrWord : Word := 0x02000000

/-- The acceptance of a CMD write (R63): SOFT_RESET at once, EBUSY while the latch is full, the error lock, else latch
the word with both arguments. -/
def State.acceptCmd (s : State) (c : Word) : State :=
  if c = softResetWord then s.resetAction
  else if s.busy then s.record .ebusy c
  else if s.errcode ≠ .none ∧ c ≠ errClrWord then s
  else { s with pending := some { cmd := c, a0 := s.arg0, a1 := s.arg1 } }

/-- `RegWrite(off, v)` (R62): every offset but CMD, ARG0 and ARG1 is ignored (R47). -/
def State.regWrite (s : State) (off : Nat) (v : Word) : State :=
  if off = 0x10 then s.acceptCmd v
  else if off = 0x14 then { s with arg0 := v }
  else if off = 0x18 then { s with arg1 := v }
  else s

/-- The window offset of a supported access: 32 bits, 4-byte aligned, inside the 256 bytes at HUFF_BASE (R60, R68). -/
def windowOffset (c : Config) (width : AccessWidth) (addr : Nat) : Option Nat :=
  if width = .word ∧ c.huffBase ≤ addr ∧ addr < c.huffBase + 256 ∧ (addr - c.huffBase) % 4 = 0 then
    some (addr - c.huffBase)
  else none

/-- One host access, if the block is out of reset and the access is supported (R68, R78). -/
def State.access (s : State) (width : AccessWidth) (addr : Nat) (act : Nat → State) :
    Host.Outcome State Fault Refusal :=
  if s.inReset then .refused .accessInReset
  else
    match windowOffset s.cfg width addr with
    | none => .refused .unsupportedAccess
    | some off => .next (act off)

/-- What the outside does next, done (R61, R62, R250). -/
def State.hostOp (s : State) : HostOp → Host.Outcome State Fault Refusal
  | .read width addr => s.access width addr s.regRead
  | .write width addr v => s.access width addr (fun off => s.regWrite off v)
  | .assertReset => .next { s.resetAction with inReset := true }
  | .releaseReset => .next { s with inReset := false }

end Sys2Proof.Machine
end

