-- ==== Sys2Proof/Machine/Engine.lean ====
section
/-! DEFINITION. The engine's step, the host's step and the scheduler (20_memory.md R64, R65). -/

namespace Sys2Proof.Machine

/-- R65's second part: the engine step empties PENDING. -/
def State.retire (s : State) : State := { s with pending := none }

/-- Retire the command if it gave a next state. -/
def retireOutcome : Host.Outcome State Fault Refusal → Host.Outcome State Fault Refusal
  | .next t => .next t.retire
  | .fault f => .fault f
  | .refused r => .refused r

/-- The engine executes a latched word (R65): decode first, EILL if it is no command (R92), else its rule. -/
def State.engineStep (s : State) (c : Word) : Host.Outcome State Fault Refusal :=
  match decode c with
  | .error _ => .next (s.raise .eill).retire
  | .ok i => retireOutcome (exec i s)

/-- Both agents could step, so the scheduler chooses (R64). -/
def State.contested (s : State) : Bool := s.engineEnabled && !s.hostOps.isEmpty

/-- The scheduler gives the engine the step: it is enabled, and where the host could step too, the next turn is not the
host's. DESIGN CHOICE: with no turn left the engine goes first (log 4). -/
def State.engineGoes (s : State) : Bool :=
  s.engineEnabled && (s.hostOps.isEmpty || s.turns.head? != some .host)

/-- The state a step starts from: a contested step uses up one turn. -/
def State.takeTurn (s : State) : State := if s.contested then { s with turns := s.turns.tail } else s

/-- One transition of the machine: an engine step or a host step, or no step at all (R64, R77, U11). -/
def State.transition (s : State) : Host.Outcome State Fault Refusal :=
  if s.engineGoes then
    match s.pending with
    | some l => s.takeTurn.engineStep l.cmd
    | none => .fault .runOver
  else
    match s.hostOps with
    | op :: rest => ({ s.takeTurn with hostOps := rest } : State).hostOp op
    | [] => if s.busy then .fault .hang else .fault .runOver

/-- Latch a word for the engine as R63 does, with the arguments as they are, and let the engine go first. -/
def State.latchWord (s : State) (c : Word) : State :=
  { s with
    pending := some { cmd := c, a0 := s.arg0, a1 := s.arg1 },
    turns := if s.hostOps.isEmpty then s.turns else .engine :: s.turns }

end Sys2Proof.Machine
end

