-- ==== Sys2Proof/Machine/Step.lean ====
section
/-! DEFINITION. One step of the machine, and where a command is placed for it. -/

namespace Sys2Proof.Machine

/-- One step (R64): the agent the scheduler chooses takes one atomic transition. -/
def step (s : State) : Host.Outcome State Fault Refusal := s.transition

/-- The word is put where the engine takes its next command, PENDING (R42, log 18). -/
def State.withFetchWord (s : State) (nbits w : Nat) : State := s.latchWord (BitVec.ofNat 32 (w % 2 ^ nbits))

end Sys2Proof.Machine
end

