-- ==== Sys2Proof/Safety.lean ====
section
/-! DEFINITION. What a good state is: the invariants of 10_state.md R48 and of the rules that say what a state element can
hold. `Invariant` is an invariant of the model over every state, not only over runs from reset. -/

namespace Sys2Proof.Machine

/-- The LEFT and RIGHT fields of a node (R35). -/
def Node.children : Node → List Nat
  | .leaf _ _ => []
  | .internal _ l r => [l, r]

/-- The LEFT and RIGHT fields of all internal nodes together (R48(c)). -/
def childFields (nodes : List Node) : List Nat := nodes.flatMap Node.children

/-- The symbol of a leaf. -/
def Node.leafSym? : Node → Option Nat
  | .leaf _ sym => some sym
  | .internal _ _ _ => none

/-- The symbols of the leaves, in node order. -/
def leafSyms (nodes : List Node) : List Nat := nodes.filterMap Node.leafSym?

/-- The number k of leaves. -/
def leafCount (nodes : List Node) : Nat := (leafSyms nodes).length

/-- The weight a node adds to the leaves' total. -/
def Node.leafWeight : Node → Nat
  | .leaf w _ => w.toNat
  | .internal _ _ _ => 0

/-- The total of the leaves' weights. -/
def leafTotal (nodes : List Node) : Nat := (nodes.map Node.leafWeight).sum

/-- The total of the weights of the queued nodes. -/
def queuedTotal (nodes : List Node) (heap : List Nat) : Nat := (heap.map (fun n => (weightAt nodes n).toNat)).sum

/-- The node store and the heap are as the builder leaves them. -/
structure ForestOk (nodes : List Node) (heap : List Nat) : Prop where
  /-- R48(b): children are earlier, different nodes, and the weight is their sum, with no wrap. -/
  internalOk : ∀ (n : Nat) (w : Word) (l r : Nat), nodes[n]? = some (Node.internal w l r) →
    l < n ∧ r < n ∧ l ≠ r ∧ w.toNat = (weightAt nodes l).toNat + (weightAt nodes r).toNat
  /-- R48(c): every node index stands exactly once among the heap and the child fields. -/
  onceEach : (heap ++ childFields nodes).Perm (List.range nodes.length)
  /-- R48(d): heap order. -/
  heapOrder : ∀ i, 0 < i → i < heap.length → less nodes (heapAt heap i) (heapAt heap ((i - 1) / 2)) = false
  /-- R48(e): a leaf weighs at least 1. -/
  leafOk : ∀ (n : Nat) (w : Word) (sym : Nat), nodes[n]? = some (Node.leaf w sym) → 1 ≤ w.toNat
  /-- R126: the leaves' total is at most WMAX, so no merge can wrap (R125). -/
  totalFits : queuedTotal nodes heap ≤ wmax

/-- What every state of a run satisfies (R48, and the rules named at each part). -/
structure Invariant (s : State) : Prop where
  /-- R4, R5, R6, R60. -/
  cfgValid : s.cfg.Valid
  /-- R32: FREQ is in its canonical form over the symbol ids. -/
  freqForm : Table.wf 0 s.cfg.nsym s.freq = true
  /-- R33: the code table is in its canonical form over the symbol ids. -/
  codesForm : Table.wf CodeEntry.absent s.cfg.nsym s.codes = true
  /-- R33: a length is at most CODE_MAX and a value fits its length. -/
  codesFit : ∀ sym, (s.codeOf sym).len ≤ s.cfg.codeMax ∧ (s.codeOf sym).val < 2 ^ (s.codeOf sym).len
  /-- R34: CBUF is in its canonical form over the word indices. -/
  cbufForm : Table.wf 0 s.cfg.ncw s.cbuf = true
  /-- R48(a). -/
  capacity : s.nodes.length ≤ s.cfg.nnodeMax ∧ s.heap.length ≤ s.cfg.heapMax
  /-- R48(b) to (e). -/
  forestOk : ForestOk s.nodes s.heap
  /-- R122: one leaf per symbol, of a symbol id. -/
  leavesOk : (leafSyms s.nodes).Nodup ∧ ∀ sym ∈ leafSyms s.nodes, sym < s.cfg.nsym
  /-- R39: no seeding has happened in phase EMPTY. -/
  phaseEmpty : s.bstate = .empty → s.nodes = [] ∧ s.heap = []
  /-- R38, R129: the root is the node left in the heap of a BUILT tree. -/
  rootOk : s.root = if s.bstate = .built then s.heap.head? else none
  /-- R129: a BUILT heap holds at most the root. -/
  builtOk : s.bstate = .built → s.heap.length ≤ 1
  /-- R48(f); PK_NB <= 7 by its type. -/
  packerOk : s.pkAcc.toNat < 2 ^ s.pkNb.toNat
  /-- R48(f). -/
  decoderOk : s.accLen ≤ s.cfg.codeMax ∧ s.acc < 2 ^ s.accLen
  /-- R193, R194: an open decoder stream has a valid table and an accumulator a longer code could still match. -/
  streamOk : s.decActive = true → s.tableValid = true ∧ (s.accLen = 0 ∨ s.accLen < s.maxLen)
  /-- R41. -/
  limitOk : s.limitEn = false → s.decNbits = 0
  /-- R41: the residue is an accumulator length. -/
  residueOk : s.decResidue ≤ s.cfg.codeMax
  /-- R48(g). -/
  oneStream : ¬ (s.pkActive = true ∧ s.decActive = true)
  /-- R43. -/
  fifoFits : s.ofifo.length ≤ s.cfg.ofifoDepth
  /-- R29, R30, R224: ERRINFO is written and cleared together with ERRCODE. -/
  infoOk : s.errcode = .none → s.errinfo = 0
  /-- R63, R224: SOFT_RESET is never latched, and while a command waits the only error is EBUSY, unless it is ERR_CLR. -/
  latchOk : ∀ l, s.pending = some l →
    l.cmd ≠ softResetWord ∧ (s.errcode = .none ∨ s.errcode = .ebusy ∨ l.cmd = errClrWord)
  /-- R252: a block held in reset holds no command. -/
  resetOk : s.inReset = true → s.pending = none

end Sys2Proof.Machine
end

