-- ==== Sys2Proof/Certificates/Slice0/Obligations.lean ====
section
/-! DEFINITION. The statements for the provers, from the numbered rules of spec/, and the few words they are written in. -/

namespace Sys2Proof.Claims

open Sys2Proof Sys2Proof.Machine

/-! ### Words of the statements -/

/-- `raise E` (00_scope.md R11, 60_exceptions.md R224): ERRCODE and ERRINFO are written if no error is recorded yet, and
nothing else changes. -/
def raised (s : State) (e : ErrCode) : State :=
  if s.errcode = .none then { s with errcode := e, errinfo := s.cmd } else s

/-- The word is illegal for a reserved bit, and executing it raises EILL and does nothing else; like every engine step it
empties PENDING (R65, R90). -/
def ReservedRaisesEill (c : Word) : Prop :=
  decode c = .error .reservedBit ∧ ∀ s : State, s.engineStep c = .next { raised s .eill with pending := none }

/-- Every word of this opcode is the command, or raises EILL when a bit of [23:0] is set (format N, R81). -/
def EncodedN (op : Nat) (i : Instr) : Prop :=
  ∀ c : Word, opcodeField c = op → if field c 0 24 = 0 then decode c = .ok i else ReservedRaisesEill c

/-- The same for format S (R82): [23:16] reserved, [15:0] SYM. -/
def EncodedS (op : Nat) (mk : Nat → Instr) : Prop :=
  ∀ c : Word, opcodeField c = op →
    if field c 16 8 = 0 then decode c = .ok (mk (field c 0 16)) else ReservedRaisesEill c

/-- The same for format SW (R83): [23:16] W, [15:0] SYM, no reserved bit. -/
def EncodedSW (op : Nat) (mk : Nat → Nat → Instr) : Prop :=
  ∀ c : Word, opcodeField c = op → decode c = .ok (mk (field c 16 8) (field c 0 16))

/-- The same for format I (R84): [23:17] reserved, [16:0] IDX. -/
def EncodedI (op : Nat) (mk : Nat → Instr) : Prop :=
  ∀ c : Word, opcodeField c = op →
    if field c 17 7 = 0 then decode c = .ok (mk (field c 0 17)) else ReservedRaisesEill c

/-- The same for format W (R85): [23:8] reserved, [7:0] W. -/
def EncodedW (op : Nat) (mk : Nat → Instr) : Prop :=
  ∀ c : Word, opcodeField c = op →
    if field c 8 16 = 0 then decode c = .ok (mk (field c 0 8)) else ReservedRaisesEill c

/-- The same for format B (R86): [23:8] reserved, [7:0] BYTE. -/
def EncodedB (op : Nat) (mk : Byte → Instr) : Prop :=
  ∀ c : Word, opcodeField c = op →
    if field c 8 16 = 0 then decode c = .ok (mk (BitVec.ofNat 8 (field c 0 8))) else ReservedRaisesEill c

/-- The same for format F (R87): [23:1] reserved, [0] L. -/
def EncodedF (op : Nat) (mk : Bool → Instr) : Prop :=
  ∀ c : Word, opcodeField c = op →
    if field c 1 23 = 0 then decode c = .ok (mk (decide (field c 0 1 = 1))) else ReservedRaisesEill c

/-- The opcodes of the map (R89). -/
def definedOpcodes : List Nat :=
  [0x00, 0x01, 0x02, 0x10, 0x11, 0x12, 0x13, 0x20, 0x21, 0x22, 0x23, 0x24, 0x25, 0x30, 0x31, 0x32, 0x33, 0x34,
   0x40, 0x41, 0x42, 0x50, 0x51, 0x52]

/-- The value of a bit string, first bit most significant (R10). -/
def bitsValue (bs : List Bool) : Nat := bs.foldl (fun v b => 2 * v + b.toNat) 0

/-- The code of a symbol as a bit string (R10). -/
def codeBits (s : State) (sym : Nat) : List Bool := bitsOf (s.codeOf sym).len (s.codeOf sym).val

/-- The bits of a byte, most significant first (R69). -/
def byteBits (y : Byte) : List Bool := bitsOf 8 y.toNat

/-- The bits of a byte that DEC_BYTE decodes: all 8 in whole-byte mode, in limit mode only those before the limit
(R190, R194). -/
def bitsWithinLimit (s : State) (byte : Byte) : List Bool :=
  if s.limitEn then (byteBits byte).take (s.decNbits.toNat - s.decBitcnt.toNat) else byteBits byte

/-- What an accumulator can hold while the decoder goes on (R194): nothing, or a string at whose beginning no code stands and
which some code is longer than. That code need not begin with it: short of MAXLEN bits the decoder goes on accumulating,
whether or not a code can still match. -/
def Unfinished (s : State) (rest : List Bool) : Prop :=
  rest = [] ∨
  ((∀ sym < s.cfg.nsym, (s.codeOf sym).len ≠ 0 → ¬ codeBits s sym <+: rest) ∧
   ∃ sym < s.cfg.nsym, rest.length < (s.codeOf sym).len)

/-- R191's validity: no code of one symbol is how the code of another begins, equal codes included. -/
def PrefixFree (s : State) : Prop :=
  ∀ x < s.cfg.nsym, ∀ y < s.cfg.nsym, x ≠ y → (s.codeOf x).len ≠ 0 → (s.codeOf y).len ≠ 0 →
    ¬ ((s.codeOf x).len ≤ (s.codeOf y).len ∧
       (s.codeOf y).val / 2 ^ ((s.codeOf y).len - (s.codeOf x).len) = (s.codeOf x).val)

/-- Every stored value fits its length (R33). -/
def CodesFit (s : State) : Prop := ∀ sym, (s.codeOf sym).val < 2 ^ (s.codeOf sym).len

/-- The node a path of edges leads to: left for 0, right for 1 (R151). -/
def follow (nodes : List Node) : List Bool → Nat → Option Nat
  | [], n => some n
  | b :: bs, n =>
    match nodes[n]? with
    | some (.internal _ l r) => follow nodes bs (if b then r else l)
    | _ => none

/-- Every leaf below the root is at most CODE_MAX edges deep (R151). -/
def DepthFits (s : State) (root : Nat) : Prop :=
  ∀ (bits : List Bool) (n : Nat) (w : Word) (sym : Nat),
    follow s.nodes bits root = some n → s.nodes[n]? = some (Node.leaf w sym) → bits.length ≤ s.cfg.codeMax

/-- Commands executed one after the other, each on the state the one before left. There is no host between them, so the
FIFO's bound is not looked at: in a run, OUT_DATA reads between the commands make the room the engine waits for (R66). -/
def execAll : List Instr → State → Host.Outcome State Fault Refusal
  | [], s => .next s
  | i :: rest, s =>
    match exec i s with
    | .next t => execAll rest t
    | .fault f => .fault f
    | .refused r => .refused r

/-- A bit string cut into bytes from its start, the last one filled with zero bits (R174). -/
def cutBytes : Nat → List Bool → List Byte
  | 0, _ => []
  | n + 1, bs =>
    BitVec.ofNat 8 (bitsValue (bs.take 8 ++ List.replicate (8 - (bs.take 8).length) false)) :: cutBytes n (bs.drop 8)

/-- The `ceil(|C| / 8)` bytes of a bit string C (R174). -/
def packedBytes (bs : List Bool) : List Byte := cutBytes ((bs.length + 7) / 8) bs

/-- `WEIGHT[n]` as a number (R35). -/
def nodeWeight (nodes : List Node) (n : Nat) : Nat :=
  match nodes[n]? with
  | some (.leaf w _) => w.toNat
  | some (.internal w _ _) => w.toNat
  | none => 0

/-- R121's order: the lower weight first, of equal weights the lower index. -/
def Lighter (nodes : List Node) (x y : Nat) : Prop :=
  nodeWeight nodes x < nodeWeight nodes y ∨ (nodeWeight nodes x = nodeWeight nodes y ∧ x < y)

/-- The weights of the internal nodes (R152(d)). -/
def innerWeights : List Node → List Nat
  | [] => []
  | .leaf _ _ :: rest => innerWeights rest
  | .internal w _ _ :: rest => w.toNat :: innerWeights rest

/-- The leaves as (symbol, weight). -/
def leafWeights : List Node → List (Nat × Nat)
  | [] => []
  | .leaf w sym :: rest => (sym, w.toNat) :: leafWeights rest
  | .internal _ _ _ :: rest => leafWeights rest

/-- Every state element is at its reset value, and the identification registers read their constants (R46). -/
def AtReset (s : State) : Prop :=
  s.pending = none ∧ s.arg0 = 0 ∧ s.arg1 = 0 ∧ s.result0 = 0 ∧ s.result1 = 0 ∧ s.result2 = 0 ∧
  s.errcode = .none ∧ s.errinfo = 0 ∧ s.ofifo = [] ∧ (∀ sym, s.freqOf sym = 0) ∧
  (∀ sym, s.codeOf sym = { len := 0, val := 0 }) ∧ (∀ w, s.cbufOf w = 0) ∧ s.nodes = [] ∧ s.heap = [] ∧
  s.root = none ∧ s.bstate = .empty ∧ s.pkActive = false ∧ s.pkAcc = 0 ∧ s.pkNb = 0 ∧ s.pkBitcnt = 0 ∧
  s.decActive = false ∧ s.limitEn = false ∧ s.decNbits = 0 ∧ s.acc = 0 ∧ s.accLen = 0 ∧ s.decBitcnt = 0 ∧
  s.decResidue = 0 ∧ s.ncodes = 0 ∧ s.maxLen = 0 ∧ s.regValue 0x00 = 0x48554646 ∧
  s.regValue 0x04 = BitVec.ofNat 32 s.cfg.nsym ∧
  s.regValue 0x08 = BitVec.ofNat 32 (s.cfg.ofifoDepth * 65536 + s.cfg.codeMax)

end Sys2Proof.Claims

open Sys2Proof Sys2Proof.Machine Sys2Proof.Claims

/-! ### Encoding (30_encoding.md) -/

/-- Tier 3. Encoding a well-formed command and decoding the word gives the command back, every operand at every value its
field admits (R80 to R89). -/
def Obligations.DecodeEncodeAgree : Prop :=
  ∀ i : Instr, i.wellFormed = true → decode (encode i) = .ok i

/-- The other direction: a word that decodes is the word of the command it decodes to, which is well-formed, so no two
words mean one command (R92). -/
def Obligations.DecodedWordsAreEncodings : Prop :=
  ∀ (c : Word) (i : Instr), decode c = .ok i → i.wellFormed = true ∧ encode i = c

/-- R89 to R92: exactly the 24 opcodes of the map are defined, and an illegal word raises EILL when the engine executes it
and does nothing else; like every engine step it empties PENDING. -/
def Obligations.IllegalWordsRaiseEill : Prop :=
  (∀ c : Word, decode c = .error .undefinedOpcode ↔ opcodeField c ∉ definedOpcodes) ∧
  ∀ (s : State) (c : Word) (why : Illegal), decode c = .error why →
    s.engineStep c = .next { raised s .eill with pending := none }

/-- Words of 95_test_vectors.md section 2.1. -/
def Obligations.SpecWordsDecode : Prop :=
  decode 0x00000000 = .ok .nop ∧ decode 0x00000001 = .error .reservedBit ∧
  decode 0xFF000000 = .error .undefinedOpcode ∧ decode 0x03000000 = .error .undefinedOpcode ∧
  decode 0x11010061 = .error .reservedBit ∧ decode 0x31010061 = .ok (.codeRd 1 0x61) ∧
  decode 0x24020000 = .error .reservedBit ∧ decode 0x2401FFFF = .ok (.heapRd 0x1FFFF) ∧
  decode 0x50000002 = .error .reservedBit ∧ decode 0x510001FF = .error .reservedBit ∧
  decode 0x5100006E = .ok (.decByte 0x6E) ∧ decode 0x01000001 = .error .reservedBit

/-! ### Steps and agents (20_memory.md) -/

/-- R65: when the engine is given the step, the step is the rule of the latched word, on the state as it is (but for
the scheduler's used turn), and it empties PENDING: the meaning of the command the word decodes to, or EILL and nothing
else for an illegal word (R92). The command reads the latched word and arguments (R11, R63). Which agent a list of turns
picks, and that the engine goes first when none is left, is the model's choice (log 4). -/
def Obligations.StepRunsTheLatchedCommand : Prop :=
  ∀ (s : State) (l : Latch), s.pending = some l → s.need l.cmd ≤ s.room →
    (s.hostOps = [] ∨ s.turns.head? ≠ some .host) →
    s.takeTurn = { s with turns := if s.hostOps = [] then s.turns else s.turns.tail } ∧
    s.cmd = l.cmd ∧ s.a0 = l.a0 ∧ s.a1 = l.a1 ∧ step s = s.takeTurn.engineStep l.cmd ∧
    (∀ i, decode l.cmd = .ok i → step s = match exec i s.takeTurn with
      | .next t => .next { t with pending := none }
      | .fault f => .fault f
      | .refused r => .refused r) ∧
    (∀ why, decode l.cmd = .error why → step s = .next { raised s.takeTurn .eill with pending := none })

/-- R65, R66, R77, R78: where the engine has no step, the step is the host's next operation. A command whose pushes do not
fit is held with OUTWAIT = 1, and with no further host operation the machine is stuck; with an empty latch and no further
host operation the run is over. That both ends are faults is the model's choice (log 7). -/
def Obligations.WithoutEngineTheHostSteps : Prop :=
  (∀ (s : State) (l : Latch), s.pending = some l → s.room < s.need l.cmd →
    field (s.regValue 0x0C) 1 1 = 1 ∧
    (s.hostOps = [] → step s = .fault .hang) ∧
    (∀ op rest, s.hostOps = op :: rest → step s = ({ s with hostOps := rest } : State).hostOp op)) ∧
  (∀ s : State, s.pending = none →
    (s.hostOps = [] → step s = .fault .runOver) ∧
    (∀ op rest, s.hostOps = op :: rest → step s = ({ s with hostOps := rest } : State).hostOp op))

/-- R64: where both agents could step, either may: the scheduler's next turn decides, and uses itself up. The schedule
as a list of turns is the model's choice (log 4). -/
def Obligations.EitherAgentMayStep : Prop :=
  ∀ (s : State) (l : Latch) (op : HostOp) (rest : List HostOp) (turns : List Agent),
    s.pending = some l → s.need l.cmd ≤ s.room → s.hostOps = op :: rest →
    step { s with turns := .engine :: turns } = ({ s with turns := turns } : State).engineStep l.cmd ∧
    step { s with turns := .host :: turns } = ({ s with turns := turns, hostOps := rest } : State).hostOp op

/-- R65, R66: a command pushes exactly `need` entries at the tail of the FIFO, but for the commands that empty it, and `need`
keeps the stated bounds. The need of a word is that of the command it decodes to, 0 for an illegal word, and the latched
word is enabled where its need is at most OFIFO_DEPTH - OUT_COUNT, held where it is more. -/
def Obligations.PushesAreTheNeed : Prop :=
  (∀ (i : Instr) (s t : State), exec i s = .next t →
    (s.needOf i = 0 ∨ (∃ sym, i = .pkSym sym) ∨ i = .pkFlush ∨ ∃ byte, i = .decByte byte) ∧
    (∀ sym, i = .pkSym sym → s.needOf i ≤ (s.pkNb.toNat + (s.codeOf sym).len) / 8) ∧
    (i = .pkFlush → s.needOf i ≤ 1) ∧ (∀ byte, i = .decByte byte → s.needOf i ≤ 8) ∧
    ((∃ es, t.ofifo = s.ofifo ++ es ∧ es.length = s.needOf i) ∨
     (t.ofifo = [] ∧ (i = .softReset ∨ i = .pkStart ∨ ∃ limit, i = .decStart limit)))) ∧
  (∀ (s : State) (c : Word),
    (∀ i, decode c = .ok i → s.need c = s.needOf i) ∧ (∀ why, decode c = .error why → s.need c = 0)) ∧
  (∀ s : State, s.room = s.cfg.ofifoDepth - s.ofifo.length ∧
    (s.engineEnabled = true ↔ ∃ l, s.pending = some l ∧ s.need l.cmd ≤ s.room) ∧
    (s.held = true ↔ ∃ l, s.pending = some l ∧ s.room < s.need l.cmd))

/-- R66, R6: in a state of the invariant every latched command can execute once the FIFO is empty. -/
def Obligations.EmptyFifoLiftsEveryHold : Prop :=
  ∀ (s : State) (l : Latch), Invariant s → s.pending = some l → s.ofifo = [] → s.engineEnabled = true

/-- R66: only a read of OUT_DATA, or a reset, lifts a hold: over any step the command stays held, or the block is in its
reset state, or the same command still waits and the host got the head of the FIFO, which is gone. -/
def Obligations.OnlyDrainingLiftsAHold : Prop :=
  ∀ s t : State, s.held = true → step s = .next t →
    t.pending = s.pending ∧ t.held = true ∨
    t.pending = s.pending ∧ (∃ e, s.ofifo = e :: t.ofifo ∧
      t.hostReads = s.hostReads ++ [BitVec.ofNat 32 (2 ^ 31 + e.toNat)]) ∨
    { t with hostOps := [], hostReads := [], turns := [], draws := 0, inReset := false } = State.resetWith s.cfg

/-- R262: in a state of the invariant every command completes: no stop of the model is reached. -/
def Obligations.EveryCommandCompletes : Prop :=
  ∀ (i : Instr) (s : State), Invariant s → ∃ t, exec i s = .next t

/-! ### The register window (10_state.md, 20_memory.md) -/

/-- R22 to R24, R26 to R31, R36 to R41, R47, R69, R221: what each register but STATUS, NCODES and MAXLEN reads, the error
codes among them. -/
def Obligations.RegisterMap : Prop :=
  ∀ s : State,
    s.regValue 0x00 = 0x48554646 ∧ s.regValue 0x04 = BitVec.ofNat 32 s.cfg.nsym ∧
    s.regValue 0x08 = BitVec.ofNat 32 (s.cfg.ofifoDepth * 65536 + s.cfg.codeMax) ∧ s.regValue 0x10 = 0 ∧
    s.regValue 0x14 = s.arg0 ∧ s.regValue 0x18 = s.arg1 ∧ s.regValue 0x1C = s.result0 ∧
    s.regValue 0x20 = s.result1 ∧ s.regValue 0x24 = s.result2 ∧ s.regValue 0x2C = s.errinfo ∧
    s.regValue 0x34 = BitVec.ofNat 32 s.ofifo.length ∧ s.regValue 0x38 = BitVec.ofNat 32 s.nodes.length ∧
    s.regValue 0x3C = BitVec.ofNat 32 s.heap.length ∧
    (s.regValue 0x4C).toNat + (s.regValue 0x50).toNat * 2 ^ 32 = s.pkBitcnt.toNat ∧
    (s.regValue 0x54).toNat + (s.regValue 0x58).toNat * 2 ^ 32 = s.decBitcnt.toNat ∧
    (s.regValue 0x5C).toNat + (s.regValue 0x60).toNat * 2 ^ 32 = s.decNbits.toNat ∧
    s.regValue 0x64 = BitVec.ofNat 32 s.accLen ∧ s.regValue 0x68 = BitVec.ofNat 32 s.decResidue ∧
    (s.root = none → s.regValue 0x40 = 0) ∧
    (∀ r, s.root = some r → s.regValue 0x40 = BitVec.ofNat 32 (2 ^ 31 + r)) ∧
    (s.ofifo = [] → s.regValue 0x30 = 0) ∧
    (∀ e rest, s.ofifo = e :: rest → s.regValue 0x30 = BitVec.ofNat 32 (2 ^ 31 + e.toNat)) ∧
    (∀ off, 0x6C ≤ off → s.regValue off = 0) ∧
    s.regValue 0x28 = BitVec.ofNat 32 (match s.errcode with
      | .none => 0x00 | .eill => 0x01 | .ebusy => 0x02 | .estate => 0x03 | .esym => 0x04 | .earg => 0x05
      | .eovf => 0x06 | .enocode => 0x07 | .ecodelen => 0x08 | .ebadtable => 0x09 | .enomatch => 0x0A
      | .epartial => 0x0B | .eshort => 0x0C)

/-- R21, R25: every field of STATUS, as the register at offset 0x0C reads. -/
def Obligations.StatusFields : Prop :=
  ∀ s : State,
    let status := s.regValue 0x0C
    field status 0 1 = s.pending.isSome.toNat ∧
    (field status 1 1 = 1 ↔ ∃ l, s.pending = some l ∧ s.room < s.need l.cmd) ∧
    (field status 2 1 = 1 ↔ s.errcode ≠ .none) ∧
    field status 3 2 = (match s.bstate with | .empty => 0 | .seeded => 1 | .built => 2) ∧
    field status 5 1 = s.pkActive.toNat ∧ field status 6 1 = s.decActive.toNat ∧
    field status 7 1 = s.limitEn.toNat ∧ field status 8 4 = s.pkNb.toNat ∧
    (field status 12 1 = 1 ↔ s.ofifo ≠ []) ∧ field status 13 19 = 0

/-- R33: NCODES counts the symbols with a code, MAXLEN is the greatest length, 0 if there is none, and their registers read
them. -/
def Obligations.CodeCounters : Prop :=
  ∀ s : State,
    s.regValue 0x44 = BitVec.ofNat 32 s.ncodes ∧ s.regValue 0x48 = BitVec.ofNat 32 s.maxLen ∧
    s.ncodes = ((List.range s.cfg.nsym).filter (fun sym => decide ((s.codeOf sym).len ≠ 0))).length ∧
    (∀ sym < s.cfg.nsym, (s.codeOf sym).len ≤ s.maxLen) ∧
    (s.maxLen = 0 ∨ ∃ sym < s.cfg.nsym, (s.codeOf sym).len = s.maxLen)

/-- R61, R67, R31, R70: a supported read of an exact register, or of any register while BUSY = 0, hands its value to the
host; while BUSY = 1 the registers R67 lists give a fresh free draw. It changes nothing else, but that OUT_DATA loses its
head. That CMD and the reserved offsets are exact while BUSY = 1 is the model's deduction (log 6). -/
def Obligations.HostReads : Prop :=
  ∀ (s : State) (off : Nat), s.inReset = false → off < 256 → off % 4 = 0 →
    let drawn : Prop := s.pending ≠ none ∧ off ∈ [0x1C, 0x20, 0x24, 0x38, 0x3C, 0x40, 0x44, 0x48, 0x4C, 0x50, 0x54,
      0x58, 0x5C, 0x60, 0x64, 0x68]
    (drawn → s.hostOp (.read .word (s.cfg.huffBase + off)) =
      .next { s with hostReads := s.hostReads ++ [Config.freeRead s.draws], draws := s.draws + 1 }) ∧
    (¬ drawn → s.hostOp (.read .word (s.cfg.huffBase + off)) =
      .next { s with
        hostReads := s.hostReads ++ [s.regValue off], ofifo := if off = 0x30 then s.ofifo.drop 1 else s.ofifo })

/-- R62, R47, R27: a supported write stores into ARG0 or ARG1, or is ignored. -/
def Obligations.HostWrites : Prop :=
  ∀ (s : State) (off : Nat) (v : Word), s.inReset = false → off < 256 → off % 4 = 0 → off ≠ 0x10 →
    s.hostOp (.write .word (s.cfg.huffBase + off) v) =
      .next (if off = 0x14 then { s with arg0 := v } else if off = 0x18 then { s with arg1 := v } else s)

/-- R63, R225: the acceptance of a CMD write: SOFT_RESET at once; EBUSY while the latch is full; the error lock; else the
word and both arguments are latched. -/
def Obligations.CommandAcceptance : Prop :=
  ∀ (s : State) (c : Word), s.inReset = false →
    s.hostOp (.write .word (s.cfg.huffBase + 0x10) c) = .next (
      if c = 0x01000000 then
        { State.resetWith s.cfg with hostOps := s.hostOps, hostReads := s.hostReads, turns := s.turns, draws := s.draws }
      else if s.pending ≠ none then
        if s.errcode = .none then { s with errcode := .ebusy, errinfo := c } else s
      else if s.errcode ≠ .none ∧ c ≠ 0x02000000 then s
      else { s with pending := some { cmd := c, a0 := s.arg0, a1 := s.arg1 } })

/-- R68, R78, R252: every other access is refused, and so is every access while the platform holds the block in reset.
The refusal of an address outside the window and the form of the reset input are the model's choice (log 8, log 9). -/
def Obligations.OtherAccessesAreRefused : Prop :=
  ∀ (s : State) (width : AccessWidth) (addr : Nat) (v : Word),
    (s.inReset = true →
      s.hostOp (.read width addr) = .refused .accessInReset ∧
      s.hostOp (.write width addr v) = .refused .accessInReset) ∧
    (s.inReset = false → width ≠ .word ∨ addr < s.cfg.huffBase ∨ s.cfg.huffBase + 256 ≤ addr ∨
        (addr - s.cfg.huffBase) % 4 ≠ 0 →
      s.hostOp (.read width addr) = .refused .unsupportedAccess ∧
      s.hostOp (.write width addr v) = .refused .unsupportedAccess)

/-- R74, R255, R65: once accepted, a command and its arguments change no more, and nothing but its own execution or a reset
ends it: over any step PENDING stays as it is, or it is empty and the step was the engine's on that very word, with room
for its pushes, or left the reset state. -/
def Obligations.LatchIsStable : Prop :=
  ∀ (s t : State) (l : Latch), s.pending = some l → step s = .next t →
    t.pending = some l ∨
    (t.pending = none ∧
      ((s.need l.cmd ≤ s.room ∧ s.takeTurn.engineStep l.cmd = .next t) ∨
       { t with hostOps := [], hostReads := [], turns := [], draws := 0, inReset := false } = State.resetWith s.cfg))

/-- R76: over any step the FIFO only grows at its tail, or loses its head to a read that handed the entry to the host, or is
emptied by PK_START, DEC_START or a reset. -/
def Obligations.FifoKeepsOrder : Prop :=
  ∀ s t : State, step s = .next t →
    (∃ es, t.ofifo = s.ofifo ++ es) ∨
    (∃ e, s.ofifo = e :: t.ofifo ∧ t.hostReads = s.hostReads ++ [BitVec.ofNat 32 (2 ^ 31 + e.toNat)]) ∨
    (t.ofifo = [] ∧ t.pending = none ∧
      ((∃ l, s.pending = some l ∧ (decode l.cmd = .ok .pkStart ∨ ∃ limit, decode l.cmd = .ok (.decStart limit))) ∨
       { t with hostOps := [], hostReads := [], turns := [], draws := 0, inReset := false } = State.resetWith s.cfg))

/-! ### Reset and invariants (10_state.md, 70_reset_and_hazards.md) -/

/-- R46: the values after a hardware reset and after a SOFT_RESET, and that the model's first state has them. -/
def Obligations.ResetValues : Prop :=
  AtReset State.reset ∧
  ∀ s : State,
    (∃ t, s.hostOp .assertReset = .next t ∧ AtReset t ∧ t.cfg = s.cfg) ∧
    (s.inReset = false →
      ∃ t, s.hostOp (.write .word (s.cfg.huffBase + 0x10) 0x01000000) = .next t ∧ AtReset t ∧ t.cfg = s.cfg)

/-- R250, R251: the hardware reset input puts every state element at its reset value in one transition. The two events
of the input, and that releasing it changes nothing of the block, are the model's choice (log 9). -/
def Obligations.HardwareReset : Prop :=
  ∀ s : State,
    s.hostOp .assertReset = .next { State.resetWith s.cfg with
      inReset := true, hostOps := s.hostOps, hostReads := s.hostReads, turns := s.turns, draws := s.draws } ∧
    s.hostOp .releaseReset = .next { s with inReset := false }

/-- R48: the reset state of every valid configuration satisfies the invariant, the default's among them. -/
def Obligations.ResetSatisfiesInvariant : Prop :=
  Invariant State.reset ∧ ∀ cfg : Config, cfg.Valid → Invariant (State.resetWith cfg)

/-- Tier 3. R48: every step keeps the invariant, from every state that has it. -/
def Obligations.StepKeepsInvariant : Prop :=
  ∀ s t : State, Invariant s → step s = .next t → Invariant t

/-! ### Errors (60_exceptions.md) -/

/-- R224, R226: over any step a recorded error stays, with its word, unless ERR_CLR or a reset takes it away. -/
def Obligations.FirstErrorStays : Prop :=
  ∀ s t : State, s.errcode ≠ .none → step s = .next t →
    (t.errcode = s.errcode ∧ t.errinfo = s.errinfo) ∨
    (t.errcode = .none ∧ t.errinfo = 0 ∧ t.pending = none ∧
      ((∃ l, s.pending = some l ∧ decode l.cmd = .ok .errClr) ∨
       { t with hostOps := [], hostReads := [], turns := [], draws := 0, inReset := false } = State.resetWith s.cfg))

/-- R227, R222: a command that records an error records its own word and has no other effect, except ENOMATCH, ESHORT and
EPARTIAL, whose effects are the ones their rules state. -/
def Obligations.ErrorsArePrecise : Prop :=
  ∀ (i : Instr) (s t : State), s.errcode = .none → exec i s = .next t → t.errcode ≠ .none →
    t = { s with errcode := t.errcode, errinfo := s.cmd } ∨
    (t.errcode = .enomatch ∧ (∃ byte, i = .decByte byte) ∧ ∃ es, t = { s with
      errcode := .enomatch, errinfo := s.cmd, ofifo := s.ofifo ++ es, acc := t.acc, accLen := t.accLen,
      decBitcnt := t.decBitcnt, decActive := false }) ∨
    ((t.errcode = .eshort ∨ t.errcode = .epartial) ∧ i = .decEnd ∧ t = { s with
      errcode := t.errcode, errinfo := s.cmd, decResidue := s.accLen, acc := 0, accLen := 0, decActive := false })

/-- R27, R28, R32 to R41, R110, R120, R170: what each command can write. Every piece of state is changed only by the
commands whose rules name it, and by SOFT_RESET; no command touches the configuration or the host's side. -/
def Obligations.OnlyTheNamedCommandsWrite : Prop :=
  ∀ (i : Instr) (s t : State), exec i s = .next t → i ≠ .softReset →
    t.cfg = s.cfg ∧ t.pending = s.pending ∧ t.arg0 = s.arg0 ∧ t.arg1 = s.arg1 ∧ t.inReset = s.inReset ∧
    t.hostOps = s.hostOps ∧ t.hostReads = s.hostReads ∧ t.turns = s.turns ∧ t.draws = s.draws ∧
    (t.freq = s.freq ∨ i = .freqClr ∨ (∃ sym, i = .freqWr sym) ∨ ∃ sym, i = .freqInc sym) ∧
    (t.codes = s.codes ∨ i = .extract ∨ i = .codeClr ∨ ∃ sym, i = .codeWr sym) ∧
    (t.cbuf = s.cbuf ∨ ∃ w, i = .cbufWr w) ∧
    (t.nodes = s.nodes ∧ t.heap = s.heap ∨ i = .bldSeed ∨ i = .bldStep ∨ i = .bldFinish) ∧
    (t.root = s.root ∧ t.bstate = s.bstate ∨ i = .bldSeed ∨ i = .bldFinish) ∧
    (t.pkActive = s.pkActive ∧ t.pkAcc = s.pkAcc ∧ t.pkNb = s.pkNb ∧ t.pkBitcnt = s.pkBitcnt ∨
      i = .pkStart ∨ (∃ sym, i = .pkSym sym) ∨ i = .pkFlush) ∧
    (t.decActive = s.decActive ∧ t.limitEn = s.limitEn ∧ t.decNbits = s.decNbits ∧ t.acc = s.acc ∧
      t.accLen = s.accLen ∧ t.decBitcnt = s.decBitcnt ∧ t.decResidue = s.decResidue ∨
      (∃ limit, i = .decStart limit) ∨ (∃ byte, i = .decByte byte) ∨ i = .decEnd) ∧
    (t.result2 = s.result2 ∨ ∃ idx, i = .nodeRd idx) ∧
    (t.result1 = s.result1 ∨ i = .bldStep ∨ i = .bldFinish ∨ i = .pqPeek ∨ (∃ idx, i = .heapRd idx) ∨
      (∃ idx, i = .nodeRd idx) ∨ i = .extract ∨ ∃ w sym, i = .codeRd w sym) ∧
    (t.result0 = s.result0 ∨ (∃ sym, i = .freqRd sym) ∨ i = .bldSeed ∨ i = .bldStep ∨ i = .bldFinish ∨ i = .pqPeek ∨
      (∃ idx, i = .heapRd idx) ∨ (∃ idx, i = .nodeRd idx) ∨ i = .extract ∨ ∃ w sym, i = .codeRd w sym)

/-- R150, R260: over any step that leaves a stream open, the code table is as it was, unless the stream was opened in that
very step, which also leaves the table as it was. -/
def Obligations.TableLockedWhileStreamOpen : Prop :=
  ∀ s t : State, step s = .next t → (t.pkActive = true ∨ t.decActive = true) → t.codes = s.codes

/-! ### Control commands (40_control.md) -/

/-- R100, R102: NOP changes nothing; ERR_CLR clears ERRCODE and ERRINFO and nothing else. -/
def Obligations.NopAndErrClr : Prop :=
  EncodedN 0x00 .nop ∧ EncodedN 0x02 .errClr ∧
  ∀ s : State, exec .nop s = .next s ∧ exec .errClr s = .next { s with errcode := .none, errinfo := 0 }

/-- R101 as executed from a latch. The model's choice (log 14): R63 never latches the word, so no run reaches this. -/
def Obligations.LatchedSoftResetResets : Prop :=
  EncodedN 0x01 .softReset ∧ ∀ s : State, exec .softReset s = .next { State.resetWith s.cfg with
    inReset := s.inReset, hostOps := s.hostOps, hostReads := s.hostReads, turns := s.turns, draws := s.draws }

/-! ### Frequency table commands (41_frequency.md) -/

/-- R111. -/
def Obligations.FreqClrClears : Prop :=
  EncodedN 0x10 .freqClr ∧ ∀ s : State, ∃ t, exec .freqClr s = .next t ∧ (∀ sym, t.freqOf sym = 0) ∧
    t = { s with freq := t.freq }

/-- R112: ESYM, or FREQ[s] <- a0 and no other count. -/
def Obligations.FreqWrStores : Prop :=
  EncodedS 0x11 .freqWr ∧ ∀ (s : State) (sym : Nat),
    (s.cfg.nsym ≤ sym → exec (.freqWr sym) s = .next (raised s .esym)) ∧
    (sym < s.cfg.nsym → ∃ t, exec (.freqWr sym) s = .next t ∧
      (∀ y, t.freqOf y = if y = sym then s.a0 else s.freqOf y) ∧ t = { s with freq := t.freq })

/-- R113: ESYM, EOVF at the maximum, or one more. -/
def Obligations.FreqIncCounts : Prop :=
  EncodedS 0x12 .freqInc ∧ ∀ (s : State) (sym : Nat),
    (s.cfg.nsym ≤ sym → exec (.freqInc sym) s = .next (raised s .esym)) ∧
    (sym < s.cfg.nsym → s.freqOf sym = 0xFFFFFFFF → exec (.freqInc sym) s = .next (raised s .eovf)) ∧
    (sym < s.cfg.nsym → s.freqOf sym ≠ 0xFFFFFFFF → ∃ t, exec (.freqInc sym) s = .next t ∧
      (t.freqOf sym).toNat = (s.freqOf sym).toNat + 1 ∧ (∀ y, y ≠ sym → t.freqOf y = s.freqOf y) ∧
      t = { s with freq := t.freq })

/-- R114. -/
def Obligations.FreqRdReports : Prop :=
  EncodedS 0x13 .freqRd ∧ ∀ (s : State) (sym : Nat),
    (s.cfg.nsym ≤ sym → exec (.freqRd sym) s = .next (raised s .esym)) ∧
    (sym < s.cfg.nsym → exec (.freqRd sym) s = .next { s with result0 := s.freqOf sym })

/-! ### Tree builder commands (42_builder.md) -/

/-- R126: EOVF when the exact total exceeds WMAX; else one leaf per non-zero count in ascending id, each inserted into the
heap in node order. The heap array's layout is R123's, which the spec marks as general knowledge (log 22). -/
def Obligations.BldSeedSeedsLeaves : Prop :=
  EncodedN 0x20 .bldSeed ∧ ∀ s : State,
    let total := ((List.range s.cfg.nsym).map (fun sym => (s.freqOf sym).toNat)).sum
    let leaves := ((List.range s.cfg.nsym).filter (fun sym => decide (s.freqOf sym ≠ 0))).map
      (fun sym => Node.leaf (s.freqOf sym) sym)
    (2 ^ 32 - 1 < total → exec .bldSeed s = .next (raised s .eovf)) ∧
    (total ≤ 2 ^ 32 - 1 → exec .bldSeed s = .next { s with
      nodes := leaves, heap := (List.range leaves.length).foldl (heapInsert leaves) [], root := none,
      bstate := .seeded, result0 := BitVec.ofNat 32 leaves.length })

/-- R128 with R125: ESTATE, or one merge: the two nodes R124 removes become the left and the right child of a new node,
which is what `merge` does.
The heap array's layout is R123's, which the spec marks as general knowledge (log 22). -/
def Obligations.BldStepMergesOnce : Prop :=
  EncodedN 0x21 .bldStep ∧ ∀ s : State,
    (s.bstate ≠ .seeded ∨ s.heap.length < 2 → exec .bldStep s = .next (raised s .estate)) ∧
    (s.bstate = .seeded → 2 ≤ s.heap.length → (∀ n ∈ s.heap, n < s.nodes.length) →
      ∃ a h1 b h2 w, heapRemoveMin s.nodes s.heap = some (a, h1) ∧ heapRemoveMin s.nodes h1 = some (b, h2) ∧
        w = weightAt s.nodes a + weightAt s.nodes b ∧
        merge (s.nodes, s.heap) = (s.nodes ++ [Node.internal w a b],
          heapInsert (s.nodes ++ [Node.internal w a b]) h2 s.nodes.length) ∧
        exec .bldStep s = .next { s with
          nodes := s.nodes ++ [Node.internal w a b],
          heap := heapInsert (s.nodes ++ [Node.internal w a b]) h2 s.nodes.length,
          result0 := BitVec.ofNat 32 s.nodes.length, result1 := w })

/-- R121, R124, R125, R127: in a state of the invariant, BLD_STEP merges the least queued node (left) with the least of the
others (right), and the new weight is their exact sum. -/
def Obligations.MergeTakesTheTwoLeast : Prop :=
  ∀ s : State, Invariant s → s.bstate = .seeded → 2 ≤ s.heap.length →
    ∃ t a b rest w, exec .bldStep s = .next t ∧ s.heap.Perm (a :: b :: rest) ∧
      (∀ n ∈ b :: rest, Lighter s.nodes a n) ∧ (∀ n ∈ rest, Lighter s.nodes b n) ∧
      t.nodes = s.nodes ++ [Node.internal w a b] ∧ t.heap.Perm (s.nodes.length :: rest) ∧
      w.toNat = nodeWeight s.nodes a + nodeWeight s.nodes b

/-- R129: ESTATE, or merging until at most one node is queued, which becomes the root. -/
def Obligations.BldFinishMergesAll : Prop :=
  EncodedN 0x22 .bldFinish ∧ ∀ s : State,
    (s.bstate ≠ .seeded → exec .bldFinish s = .next (raised s .estate)) ∧
    (s.bstate = .seeded → (∀ n ∈ s.heap, n < s.nodes.length) →
      let f := merge^[s.heap.length - 1] (s.nodes, s.heap)
      f.2.length = min 1 s.heap.length ∧
      exec .bldFinish s = .next { s with
        nodes := f.1, heap := f.2, root := f.2.head?, bstate := .built,
        result0 := BitVec.ofNat 32 (s.heap.length - 1),
        result1 := match f.2.head? with
          | some r => weightAt f.1 r
          | none => 0 })

/-- R133: from a seeded state of the invariant with k leaves, BLD_FINISH leaves no tree when k = 0, and else
2k-1 nodes with the single queued root 2k-2, whose weight is the total of the leaves. -/
def Obligations.BuiltTreeIsComplete : Prop :=
  ∀ s : State, Invariant s → s.bstate = .seeded →
    ∃ t, exec .bldFinish s = .next t ∧ t.bstate = .built ∧ leafWeights t.nodes = leafWeights s.nodes ∧
      (leafCount s.nodes = 0 → t.nodes = [] ∧ t.heap = [] ∧ t.root = none) ∧
      (1 ≤ leafCount s.nodes →
        t.nodes.length = 2 * leafCount s.nodes - 1 ∧ t.heap = [2 * leafCount s.nodes - 2] ∧
        t.root = some (2 * leafCount s.nodes - 2) ∧
        (weightAt t.nodes (2 * leafCount s.nodes - 2)).toNat = ((leafWeights s.nodes).map Prod.snd).sum)

/-- R134: the tree BLD_FINISH builds does not depend on how the heap array is arranged: two states of the invariant
that differ only in the arrangement of the same queued nodes end with the same nodes and the same root. -/
def Obligations.TreeIgnoresHeapArrangement : Prop :=
  ∀ (s : State) (heap : List Nat), Invariant s → Invariant { s with heap := heap } → heap.Perm s.heap → s.bstate = .seeded →
    ∃ t u, exec .bldFinish s = .next t ∧ exec .bldFinish { s with heap := heap } = .next u ∧
      t.nodes = u.nodes ∧ t.root = u.root

/-- R130, R131: PQ_PEEK reports the minimum of the queue, ESTATE on an empty one; HEAP_RD reports one position, EARG at or
above HSIZE. -/
def Obligations.QueueReads : Prop :=
  EncodedN 0x23 .pqPeek ∧ EncodedI 0x24 .heapRd ∧ ∀ s : State,
    (s.heap = [] → exec .pqPeek s = .next (raised s .estate)) ∧
    (∀ n rest node, s.heap = n :: rest → s.nodes[n]? = some node →
      exec .pqPeek s = .next { s with result0 := BitVec.ofNat 32 n, result1 := node.weight }) ∧
    (∀ idx, s.heap.length ≤ idx → exec (.heapRd idx) s = .next (raised s .earg)) ∧
    (∀ idx n node, s.heap[idx]? = some n → s.nodes[n]? = some node →
      exec (.heapRd idx) s = .next { s with result0 := BitVec.ofNat 32 n, result1 := node.weight })

/-- R132. -/
def Obligations.NodeRdReportsAnEntry : Prop :=
  EncodedI 0x25 .nodeRd ∧ ∀ (s : State) (idx : Nat),
    (s.nodes.length ≤ idx → exec (.nodeRd idx) s = .next (raised s .earg)) ∧
    (∀ w sym, s.nodes[idx]? = some (Node.leaf w sym) →
      exec (.nodeRd idx) s = .next { s with result0 := w, result1 := BitVec.ofNat 32 sym, result2 := 0 }) ∧
    (∀ w l r, s.nodes[idx]? = some (Node.internal w l r) →
      exec (.nodeRd idx) s = .next { s with
        result0 := w, result1 := 0x80000000 + BitVec.ofNat 32 l, result2 := BitVec.ofNat 32 r })

/-! ### Code table commands (43_extractor.md) -/

/-- R151: ESTATE, ECODELEN, or the table of the tree: the code "0" for a single leaf, else each leaf's path from the root,
and no code for any other symbol. -/
def Obligations.ExtractRecordsPaths : Prop :=
  EncodedN 0x30 .extract ∧ ∀ s : State,
    (s.bstate ≠ .built ∨ s.pkActive = true ∨ s.decActive = true → exec .extract s = .next (raised s .estate)) ∧
    (Invariant s → s.bstate = .built → s.pkActive = false → s.decActive = false →
      (∀ r, s.root = some r → ¬ DepthFits s r → exec .extract s = .next (raised s .ecodelen)) ∧
      ((∀ r, s.root = some r → DepthFits s r) → ∃ t, exec .extract s = .next t ∧
        (∀ sym, sym ∉ leafSyms s.nodes → t.codeOf sym = { len := 0, val := 0 }) ∧
        (∀ r w sym, s.root = some r → s.nodes[r]? = some (Node.leaf w sym) →
          t.codeOf sym = { len := 1, val := 0 }) ∧
        (∀ r w a b bits n v sym, s.root = some r → s.nodes[r]? = some (Node.internal w a b) →
          follow s.nodes bits r = some n → s.nodes[n]? = some (Node.leaf v sym) →
          t.codeOf sym = { len := bits.length, val := bitsValue bits }) ∧
        t = { s with
          codes := t.codes, result0 := BitVec.ofNat 32 t.ncodes, result1 := BitVec.ofNat 32 t.maxLen }))

/-- R152 (a) to (c), R133(e): the table EXTRACT makes of a tree with k leaves gives exactly the k seeded symbols a
code, none as deep as k unless k = 1, no code how another begins, and the lengths fill Kraft's sum: exactly the whole when
k >= 2, half of it when k = 1. -/
def Obligations.ExtractedCodeIsCompleteAndPrefixFree : Prop :=
  ∀ s t : State, Invariant s → s.bstate = .built → s.pkActive = false → s.decActive = false →
    exec .extract s = .next t → (∀ r, s.root = some r → DepthFits s r) →
    let k := leafCount s.nodes
    t.ncodes = k ∧ (∀ sym < s.cfg.nsym, (t.codeOf sym).len ≠ 0 ↔ sym ∈ leafSyms s.nodes) ∧
    (∀ sym, (t.codeOf sym).len ≤ max 1 (k - 1)) ∧ PrefixFree t ∧
    (2 ≤ k → ((leafSyms s.nodes).map (fun sym => 2 ^ (t.maxLen - (t.codeOf sym).len))).sum = 2 ^ t.maxLen) ∧
    (k = 1 → 2 * ((leafSyms s.nodes).map (fun sym => 2 ^ (t.maxLen - (t.codeOf sym).len))).sum = 2 ^ t.maxLen)

/-- R152(d): with the extracted table, the leaves' weights times their code lengths add up to the weights of the
internal nodes when k >= 2, and to the single leaf's weight when k = 1. -/
def Obligations.ExtractedCodeCost : Prop :=
  ∀ s t : State, Invariant s → s.bstate = .built → s.pkActive = false → s.decActive = false →
    exec .extract s = .next t → (∀ r, s.root = some r → DepthFits s r) →
    let cost := ((leafWeights s.nodes).map (fun leaf => leaf.2 * (t.codeOf leaf.1).len)).sum
    (2 ≤ leafCount s.nodes → cost = (innerWeights s.nodes).sum) ∧
    (leafCount s.nodes = 1 → cost = ((leafWeights s.nodes).map Prod.snd).sum)

/-- R153. -/
def Obligations.CodeRdReports : Prop :=
  EncodedSW 0x31 .codeRd ∧ ∀ (s : State) (w sym : Nat),
    (s.cfg.nsym ≤ sym → exec (.codeRd w sym) s = .next (raised s .esym)) ∧
    (sym < s.cfg.nsym → (s.cfg.codeMax + 31) / 32 ≤ w → exec (.codeRd w sym) s = .next (raised s .earg)) ∧
    (sym < s.cfg.nsym → w < (s.cfg.codeMax + 31) / 32 → exec (.codeRd w sym) s = .next { s with
      result0 := BitVec.ofNat 32 (s.codeOf sym).len,
      result1 := BitVec.ofNat 32 ((s.codeOf sym).val / 2 ^ (32 * w) % 2 ^ 32) })

/-- R154. -/
def Obligations.CodeClrClears : Prop :=
  EncodedN 0x32 .codeClr ∧ ∀ s : State,
    (s.pkActive = true ∨ s.decActive = true → exec .codeClr s = .next (raised s .estate)) ∧
    (s.pkActive = false → s.decActive = false → ∃ t, exec .codeClr s = .next t ∧
      (∀ sym, t.codeOf sym = { len := 0, val := 0 }) ∧ t = { s with codes := t.codes })

/-- R155. -/
def Obligations.CbufWrStores : Prop :=
  EncodedW 0x33 .cbufWr ∧ ∀ (s : State) (w : Nat),
    ((s.cfg.codeMax + 31) / 32 ≤ w → exec (.cbufWr w) s = .next (raised s .earg)) ∧
    (w < (s.cfg.codeMax + 31) / 32 → ∃ t, exec (.cbufWr w) s = .next t ∧
      (∀ y, t.cbufOf y = if y = w then s.a0 else s.cbufOf y) ∧ t = { s with cbuf := t.cbuf })

/-- R156, R34: ESTATE, ESYM, EARG, or the low L bits of CBUF become the code, with L = a0[15:0]. -/
def Obligations.CodeWrStores : Prop :=
  EncodedS 0x34 .codeWr ∧ ∀ (s : State) (sym : Nat),
    let len := s.a0.toNat % 2 ^ 16
    let cbufv := ((List.range ((s.cfg.codeMax + 31) / 32)).map (fun w => (s.cbufOf w).toNat * 2 ^ (32 * w))).sum
    (s.pkActive = true ∨ s.decActive = true → exec (.codeWr sym) s = .next (raised s .estate)) ∧
    (s.pkActive = false → s.decActive = false → s.cfg.nsym ≤ sym →
      exec (.codeWr sym) s = .next (raised s .esym)) ∧
    (s.pkActive = false → s.decActive = false → sym < s.cfg.nsym → s.cfg.codeMax < len →
      exec (.codeWr sym) s = .next (raised s .earg)) ∧
    (s.pkActive = false → s.decActive = false → sym < s.cfg.nsym → len ≤ s.cfg.codeMax →
      ∃ t, exec (.codeWr sym) s = .next t ∧
        (∀ y, t.codeOf y = if y = sym then { len := len, val := cbufv % 2 ^ len } else s.codeOf y) ∧
        t = { s with codes := t.codes })

/-! ### Packer commands (44_packer.md) -/

/-- R171. -/
def Obligations.PkStartOpens : Prop :=
  EncodedN 0x40 .pkStart ∧ ∀ s : State,
    (s.pkActive = true ∨ s.decActive = true → exec .pkStart s = .next (raised s .estate)) ∧
    (s.pkActive = false → s.decActive = false → exec .pkStart s = .next { s with
      ofifo := [], pkAcc := 0, pkNb := 0, pkBitcnt := 0, pkActive := true })

/-- R172: ESTATE, ESYM, ENOCODE, or the code's bits follow the pending ones, whole bytes going out. -/
def Obligations.PkSymAppendsTheCode : Prop :=
  EncodedS 0x41 .pkSym ∧ ∀ (s : State) (sym : Nat),
    (s.pkActive = false → exec (.pkSym sym) s = .next (raised s .estate)) ∧
    (s.pkActive = true → s.cfg.nsym ≤ sym → exec (.pkSym sym) s = .next (raised s .esym)) ∧
    (s.pkActive = true → sym < s.cfg.nsym → (s.codeOf sym).len = 0 →
      exec (.pkSym sym) s = .next (raised s .enocode)) ∧
    (s.pkActive = true → sym < s.cfg.nsym → (s.codeOf sym).len ≠ 0 → s.pkAcc.toNat < 2 ^ s.pkNb.toNat →
      ∃ (t : State) (bytes : List Byte), exec (.pkSym sym) s = .next t ∧
        bitsOf s.pkNb.toNat s.pkAcc.toNat ++ codeBits s sym =
          bytes.flatMap byteBits ++ bitsOf t.pkNb.toNat t.pkAcc.toNat ∧
        bytes.length = (s.pkNb.toNat + (s.codeOf sym).len) / 8 ∧
        t.pkNb.toNat = (s.pkNb.toNat + (s.codeOf sym).len) % 8 ∧ t.pkAcc.toNat < 2 ^ t.pkNb.toNat ∧
        t = { s with
          ofifo := s.ofifo ++ bytes.map (fun y => BitVec.ofNat 16 y.toNat), pkAcc := t.pkAcc, pkNb := t.pkNb,
          pkBitcnt := s.pkBitcnt + BitVec.ofNat 64 (s.codeOf sym).len })

/-- R173: ESTATE, or the partial byte goes out with zero bits below, and the stream closes. -/
def Obligations.PkFlushPadsAndCloses : Prop :=
  EncodedN 0x42 .pkFlush ∧ ∀ s : State,
    (s.pkActive = false → exec .pkFlush s = .next (raised s .estate)) ∧
    (s.pkActive = true → s.pkAcc.toNat < 2 ^ s.pkNb.toNat → exec .pkFlush s = .next { s with
      ofifo := s.ofifo ++
        (if s.pkNb = 0 then [] else [BitVec.ofNat 16 (s.pkAcc.toNat * 2 ^ (8 - s.pkNb.toNat))]),
      pkAcc := 0, pkNb := 0, pkActive := false })

/-- R174: PK_START, a PK_SYM for each symbol and PK_FLUSH push exactly the bytes of the codes' concatenation, the last one
filled with zero bits, and PK_BITCNT is its bit count modulo 2^64. The commands follow one another by `execAll`, which
ignores the FIFO's bound: a run meets it by OUT_DATA reads between the commands (R66), which take the bytes in order (R76). -/
def Obligations.PackedStreamIsTheCodes : Prop :=
  ∀ (s : State) (syms : List Nat), s.pkActive = false → s.decActive = false →
    (∀ sym ∈ syms, sym < s.cfg.nsym ∧ (s.codeOf sym).len ≠ 0) →
    ∃ t, execAll (.pkStart :: (syms.map Instr.pkSym ++ [.pkFlush])) s = .next t ∧
      t.ofifo = (packedBytes (syms.flatMap (codeBits s))).map (fun y => BitVec.ofNat 16 y.toNat) ∧
      t.pkBitcnt = BitVec.ofNat 64 (syms.flatMap (codeBits s)).length ∧ t.errcode = s.errcode ∧
      t.pkActive = false ∧ t.codes = s.codes

/-! ### Decoder commands (45_decoder.md) -/

/-- R193, R191: ESTATE, EBADTABLE, or the stream opens. -/
def Obligations.DecStartOpens : Prop :=
  EncodedF 0x50 .decStart ∧ ∀ (s : State) (limit : Bool),
    (s.pkActive = true ∨ s.decActive = true → exec (.decStart limit) s = .next (raised s .estate)) ∧
    (s.pkActive = false → s.decActive = false → ¬ PrefixFree s →
      exec (.decStart limit) s = .next (raised s .ebadtable)) ∧
    (s.pkActive = false → s.decActive = false → PrefixFree s → exec (.decStart limit) s = .next { s with
      ofifo := [], acc := 0, accLen := 0, decBitcnt := 0, decResidue := 0, limitEn := limit,
      decNbits := if limit then BitVec.ofNat 64 (s.a1.toNat * 2 ^ 32 + s.a0.toNat) else 0, decActive := true })

/-- R190, R194, R195: on a valid table, a byte whose bits within the limit, after those in the accumulator, are the codes of
some symbols and a rest that is no code yet and shorter than MAXLEN, pushes those symbols and keeps the rest, whether or not
a code can still begin with it. In whole-byte mode those are
all 8 bits; in limit mode the bits at and after the limit are ignored, wherever in the byte it falls. A byte given after
the N bits were consumed changes nothing, whatever the table. -/
def Obligations.DecByteDecodes : Prop :=
  (∀ (s : State) (byte : Byte) (syms : List Nat) (rest : List Bool),
    s.decActive = true → PrefixFree s → CodesFit s → s.acc < 2 ^ s.accLen →
    (∀ sym ∈ syms, sym < s.cfg.nsym ∧ (s.codeOf sym).len ≠ 0) → Unfinished s rest →
    (syms = [] ∨ s.accLen < (codeBits s (syms.headD 0)).length) →
    bitsOf s.accLen s.acc ++ bitsWithinLimit s byte = syms.flatMap (codeBits s) ++ rest →
    exec (.decByte byte) s = .next { s with
      ofifo := s.ofifo ++ syms.map (BitVec.ofNat 16), acc := bitsValue rest, accLen := rest.length,
      decBitcnt := s.decBitcnt + BitVec.ofNat 64 (bitsWithinLimit s byte).length }) ∧
  (∀ (s : State) (byte : Byte), s.decActive = true → s.limitEn = true → s.decNbits.toNat ≤ s.decBitcnt.toNat →
    exec (.decByte byte) s = .next s)

/-- R194, R195, R227(a): a byte whose bit after some codes and a rest the decoder goes on with leaves a string that is no code
and that no code is longer than (it has at least MAXLEN bits) raises ENOMATCH there: the bits before it are decoded, the failing bit is kept
and counted, the stream closes, the later bits are not consumed. In limit mode this is so for a bit within the limit, the
only bits decoded (R190). Without a stream it is ESTATE. -/
def Obligations.DecByteStopsAtNoMatch : Prop :=
  EncodedB 0x51 .decByte ∧ ∀ (s : State) (byte : Byte),
    (s.decActive = false → exec (.decByte byte) s = .next (raised s .estate)) ∧
    (∀ (syms : List Nat) (rest before after : List Bool) (b : Bool),
      s.decActive = true → PrefixFree s → CodesFit s → s.acc < 2 ^ s.accLen →
      (∀ sym ∈ syms, sym < s.cfg.nsym ∧ (s.codeOf sym).len ≠ 0) → Unfinished s rest →
      (syms = [] ∨ s.accLen < (codeBits s (syms.headD 0)).length) →
      bitsWithinLimit s byte = before ++ b :: after →
      bitsOf s.accLen s.acc ++ before = syms.flatMap (codeBits s) ++ rest →
      (∀ sym < s.cfg.nsym, codeBits s sym ≠ rest ++ [b]) →
      (∀ sym < s.cfg.nsym, (s.codeOf sym).len ≤ rest.length + 1) →
      exec (.decByte byte) s = .next { raised s .enomatch with
        ofifo := s.ofifo ++ syms.map (BitVec.ofNat 16), acc := bitsValue (rest ++ [b]), accLen := rest.length + 1,
        decBitcnt := s.decBitcnt + BitVec.ofNat 64 (before.length + 1), decActive := false })

/-- R196: ESTATE, or the stream ends with its residue recorded; in limit mode ESHORT, else EPARTIAL, where they hold. -/
def Obligations.DecEndTerminates : Prop :=
  EncodedN 0x52 .decEnd ∧ ∀ s : State,
    let ended : State := { s with decResidue := s.accLen, acc := 0, accLen := 0, decActive := false }
    (s.decActive = false → exec .decEnd s = .next (raised s .estate)) ∧
    (s.decActive = true → exec .decEnd s = .next (
      if s.limitEn = true ∧ s.decBitcnt.toNat < s.decNbits.toNat then raised ended .eshort
      else if s.limitEn = true ∧ 0 < s.accLen then raised ended .epartial
      else ended))

/-- R197(a), for every valid table: packing symbols and decoding the bytes in limit mode, with the packed bit count
as the limit, pushes exactly the symbols, records no error and leaves no residue. `execAll` ignores the FIFO's bound, which a
run meets by OUT_DATA reads between the commands (R66). -/
def Obligations.LimitModeRoundTrip : Prop :=
  ∀ (s t : State) (syms : List Nat) (bytes : List Byte), s.errcode = .none → s.pkActive = false → s.decActive = false →
    PrefixFree s → CodesFit s → (∀ sym ∈ syms, sym < s.cfg.nsym ∧ (s.codeOf sym).len ≠ 0) →
    s.a1.toNat * 2 ^ 32 + s.a0.toNat = (syms.flatMap (codeBits s)).length →
    execAll (.pkStart :: (syms.map Instr.pkSym ++ [.pkFlush])) s = .next t →
    t.ofifo = bytes.map (fun y => BitVec.ofNat 16 y.toNat) →
    ∃ u, execAll (.decStart true :: (bytes.map Instr.decByte ++ [.decEnd])) t = .next u ∧
      u.ofifo = syms.map (BitVec.ofNat 16) ∧ u.errcode = .none ∧ u.decResidue = 0 ∧ u.decActive = false

/-- R197(b), for every valid table in which some symbol z has the code of d0 zero bits: packing and whole-byte
decoding pushes the symbols followed by floor(p / d0) copies of z, p being the number of padding bits; the residue is
p mod d0 bits and no error is recorded. `execAll` ignores the FIFO's bound, which a run meets by OUT_DATA reads between the
commands (R66). -/
def Obligations.WholeByteRoundTrip : Prop :=
  ∀ (s t : State) (syms : List Nat) (bytes : List Byte) (z d0 : Nat),
    s.errcode = .none → s.pkActive = false → s.decActive = false → PrefixFree s → CodesFit s →
    (∀ sym ∈ syms, sym < s.cfg.nsym ∧ (s.codeOf sym).len ≠ 0) →
    z < s.cfg.nsym → 0 < d0 → s.codeOf z = { len := d0, val := 0 } →
    execAll (.pkStart :: (syms.map Instr.pkSym ++ [.pkFlush])) s = .next t →
    t.ofifo = bytes.map (fun y => BitVec.ofNat 16 y.toNat) →
    let p := 8 * bytes.length - (syms.flatMap (codeBits s)).length
    ∃ u, execAll (.decStart false :: (bytes.map Instr.decByte ++ [.decEnd])) t = .next u ∧
      u.ofifo = (syms ++ List.replicate (p / d0) z).map (BitVec.ofNat 16) ∧ u.errcode = .none ∧
      u.decResidue = p % d0 ∧ u.decActive = false
end

