-- ==== Sys2Proof/Laws/State.lean ====
section
/-! SUPPORT. One lemma per field and named update of the state, so that no later proof unfolds a record update. -/

namespace Sys2Proof.Machine

/-! ### setFreq -/

@[simp] theorem State.setFreq_cfg (s : State) (k : Nat) (v : Word) : (s.setFreq k v).cfg = s.cfg := rfl
@[simp] theorem State.setFreq_pending (s : State) (k : Nat) (v : Word) : (s.setFreq k v).pending = s.pending := rfl
@[simp] theorem State.setFreq_arg0 (s : State) (k : Nat) (v : Word) : (s.setFreq k v).arg0 = s.arg0 := rfl
@[simp] theorem State.setFreq_arg1 (s : State) (k : Nat) (v : Word) : (s.setFreq k v).arg1 = s.arg1 := rfl
@[simp] theorem State.setFreq_result0 (s : State) (k : Nat) (v : Word) : (s.setFreq k v).result0 = s.result0 := rfl
@[simp] theorem State.setFreq_result1 (s : State) (k : Nat) (v : Word) : (s.setFreq k v).result1 = s.result1 := rfl
@[simp] theorem State.setFreq_result2 (s : State) (k : Nat) (v : Word) : (s.setFreq k v).result2 = s.result2 := rfl
@[simp] theorem State.setFreq_errcode (s : State) (k : Nat) (v : Word) : (s.setFreq k v).errcode = s.errcode := rfl
@[simp] theorem State.setFreq_errinfo (s : State) (k : Nat) (v : Word) : (s.setFreq k v).errinfo = s.errinfo := rfl
@[simp] theorem State.setFreq_ofifo (s : State) (k : Nat) (v : Word) : (s.setFreq k v).ofifo = s.ofifo := rfl
@[simp] theorem State.setFreq_freq (s : State) (k : Nat) (v : Word) : (s.setFreq k v).freq = Table.set 0 s.freq k v := rfl
@[simp] theorem State.setFreq_codes (s : State) (k : Nat) (v : Word) : (s.setFreq k v).codes = s.codes := rfl
@[simp] theorem State.setFreq_cbuf (s : State) (k : Nat) (v : Word) : (s.setFreq k v).cbuf = s.cbuf := rfl
@[simp] theorem State.setFreq_nodes (s : State) (k : Nat) (v : Word) : (s.setFreq k v).nodes = s.nodes := rfl
@[simp] theorem State.setFreq_heap (s : State) (k : Nat) (v : Word) : (s.setFreq k v).heap = s.heap := rfl
@[simp] theorem State.setFreq_root (s : State) (k : Nat) (v : Word) : (s.setFreq k v).root = s.root := rfl
@[simp] theorem State.setFreq_bstate (s : State) (k : Nat) (v : Word) : (s.setFreq k v).bstate = s.bstate := rfl
@[simp] theorem State.setFreq_pkActive (s : State) (k : Nat) (v : Word) : (s.setFreq k v).pkActive = s.pkActive := rfl
@[simp] theorem State.setFreq_pkAcc (s : State) (k : Nat) (v : Word) : (s.setFreq k v).pkAcc = s.pkAcc := rfl
@[simp] theorem State.setFreq_pkNb (s : State) (k : Nat) (v : Word) : (s.setFreq k v).pkNb = s.pkNb := rfl
@[simp] theorem State.setFreq_pkBitcnt (s : State) (k : Nat) (v : Word) : (s.setFreq k v).pkBitcnt = s.pkBitcnt := rfl
@[simp] theorem State.setFreq_decActive (s : State) (k : Nat) (v : Word) : (s.setFreq k v).decActive = s.decActive := rfl
@[simp] theorem State.setFreq_limitEn (s : State) (k : Nat) (v : Word) : (s.setFreq k v).limitEn = s.limitEn := rfl
@[simp] theorem State.setFreq_decNbits (s : State) (k : Nat) (v : Word) : (s.setFreq k v).decNbits = s.decNbits := rfl
@[simp] theorem State.setFreq_acc (s : State) (k : Nat) (v : Word) : (s.setFreq k v).acc = s.acc := rfl
@[simp] theorem State.setFreq_accLen (s : State) (k : Nat) (v : Word) : (s.setFreq k v).accLen = s.accLen := rfl
@[simp] theorem State.setFreq_decBitcnt (s : State) (k : Nat) (v : Word) : (s.setFreq k v).decBitcnt = s.decBitcnt := rfl
@[simp] theorem State.setFreq_decResidue (s : State) (k : Nat) (v : Word) : (s.setFreq k v).decResidue = s.decResidue := rfl
@[simp] theorem State.setFreq_inReset (s : State) (k : Nat) (v : Word) : (s.setFreq k v).inReset = s.inReset := rfl
@[simp] theorem State.setFreq_hostOps (s : State) (k : Nat) (v : Word) : (s.setFreq k v).hostOps = s.hostOps := rfl
@[simp] theorem State.setFreq_hostReads (s : State) (k : Nat) (v : Word) : (s.setFreq k v).hostReads = s.hostReads := rfl
@[simp] theorem State.setFreq_turns (s : State) (k : Nat) (v : Word) : (s.setFreq k v).turns = s.turns := rfl
@[simp] theorem State.setFreq_draws (s : State) (k : Nat) (v : Word) : (s.setFreq k v).draws = s.draws := rfl

/-! ### setCode -/

@[simp] theorem State.setCode_cfg (s : State) (k : Nat) (e : CodeEntry) : (s.setCode k e).cfg = s.cfg := rfl
@[simp] theorem State.setCode_pending (s : State) (k : Nat) (e : CodeEntry) : (s.setCode k e).pending = s.pending := rfl
@[simp] theorem State.setCode_arg0 (s : State) (k : Nat) (e : CodeEntry) : (s.setCode k e).arg0 = s.arg0 := rfl
@[simp] theorem State.setCode_arg1 (s : State) (k : Nat) (e : CodeEntry) : (s.setCode k e).arg1 = s.arg1 := rfl
@[simp] theorem State.setCode_result0 (s : State) (k : Nat) (e : CodeEntry) : (s.setCode k e).result0 = s.result0 := rfl
@[simp] theorem State.setCode_result1 (s : State) (k : Nat) (e : CodeEntry) : (s.setCode k e).result1 = s.result1 := rfl
@[simp] theorem State.setCode_result2 (s : State) (k : Nat) (e : CodeEntry) : (s.setCode k e).result2 = s.result2 := rfl
@[simp] theorem State.setCode_errcode (s : State) (k : Nat) (e : CodeEntry) : (s.setCode k e).errcode = s.errcode := rfl
@[simp] theorem State.setCode_errinfo (s : State) (k : Nat) (e : CodeEntry) : (s.setCode k e).errinfo = s.errinfo := rfl
@[simp] theorem State.setCode_ofifo (s : State) (k : Nat) (e : CodeEntry) : (s.setCode k e).ofifo = s.ofifo := rfl
@[simp] theorem State.setCode_freq (s : State) (k : Nat) (e : CodeEntry) : (s.setCode k e).freq = s.freq := rfl
@[simp] theorem State.setCode_codes (s : State) (k : Nat) (e : CodeEntry) : (s.setCode k e).codes = Table.set CodeEntry.absent s.codes k e := rfl
@[simp] theorem State.setCode_cbuf (s : State) (k : Nat) (e : CodeEntry) : (s.setCode k e).cbuf = s.cbuf := rfl
@[simp] theorem State.setCode_nodes (s : State) (k : Nat) (e : CodeEntry) : (s.setCode k e).nodes = s.nodes := rfl
@[simp] theorem State.setCode_heap (s : State) (k : Nat) (e : CodeEntry) : (s.setCode k e).heap = s.heap := rfl
@[simp] theorem State.setCode_root (s : State) (k : Nat) (e : CodeEntry) : (s.setCode k e).root = s.root := rfl
@[simp] theorem State.setCode_bstate (s : State) (k : Nat) (e : CodeEntry) : (s.setCode k e).bstate = s.bstate := rfl
@[simp] theorem State.setCode_pkActive (s : State) (k : Nat) (e : CodeEntry) : (s.setCode k e).pkActive = s.pkActive := rfl
@[simp] theorem State.setCode_pkAcc (s : State) (k : Nat) (e : CodeEntry) : (s.setCode k e).pkAcc = s.pkAcc := rfl
@[simp] theorem State.setCode_pkNb (s : State) (k : Nat) (e : CodeEntry) : (s.setCode k e).pkNb = s.pkNb := rfl
@[simp] theorem State.setCode_pkBitcnt (s : State) (k : Nat) (e : CodeEntry) : (s.setCode k e).pkBitcnt = s.pkBitcnt := rfl
@[simp] theorem State.setCode_decActive (s : State) (k : Nat) (e : CodeEntry) : (s.setCode k e).decActive = s.decActive := rfl
@[simp] theorem State.setCode_limitEn (s : State) (k : Nat) (e : CodeEntry) : (s.setCode k e).limitEn = s.limitEn := rfl
@[simp] theorem State.setCode_decNbits (s : State) (k : Nat) (e : CodeEntry) : (s.setCode k e).decNbits = s.decNbits := rfl
@[simp] theorem State.setCode_acc (s : State) (k : Nat) (e : CodeEntry) : (s.setCode k e).acc = s.acc := rfl
@[simp] theorem State.setCode_accLen (s : State) (k : Nat) (e : CodeEntry) : (s.setCode k e).accLen = s.accLen := rfl
@[simp] theorem State.setCode_decBitcnt (s : State) (k : Nat) (e : CodeEntry) : (s.setCode k e).decBitcnt = s.decBitcnt := rfl
@[simp] theorem State.setCode_decResidue (s : State) (k : Nat) (e : CodeEntry) : (s.setCode k e).decResidue = s.decResidue := rfl
@[simp] theorem State.setCode_inReset (s : State) (k : Nat) (e : CodeEntry) : (s.setCode k e).inReset = s.inReset := rfl
@[simp] theorem State.setCode_hostOps (s : State) (k : Nat) (e : CodeEntry) : (s.setCode k e).hostOps = s.hostOps := rfl
@[simp] theorem State.setCode_hostReads (s : State) (k : Nat) (e : CodeEntry) : (s.setCode k e).hostReads = s.hostReads := rfl
@[simp] theorem State.setCode_turns (s : State) (k : Nat) (e : CodeEntry) : (s.setCode k e).turns = s.turns := rfl
@[simp] theorem State.setCode_draws (s : State) (k : Nat) (e : CodeEntry) : (s.setCode k e).draws = s.draws := rfl

/-! ### setCbuf -/

@[simp] theorem State.setCbuf_cfg (s : State) (k : Nat) (v : Word) : (s.setCbuf k v).cfg = s.cfg := rfl
@[simp] theorem State.setCbuf_pending (s : State) (k : Nat) (v : Word) : (s.setCbuf k v).pending = s.pending := rfl
@[simp] theorem State.setCbuf_arg0 (s : State) (k : Nat) (v : Word) : (s.setCbuf k v).arg0 = s.arg0 := rfl
@[simp] theorem State.setCbuf_arg1 (s : State) (k : Nat) (v : Word) : (s.setCbuf k v).arg1 = s.arg1 := rfl
@[simp] theorem State.setCbuf_result0 (s : State) (k : Nat) (v : Word) : (s.setCbuf k v).result0 = s.result0 := rfl
@[simp] theorem State.setCbuf_result1 (s : State) (k : Nat) (v : Word) : (s.setCbuf k v).result1 = s.result1 := rfl
@[simp] theorem State.setCbuf_result2 (s : State) (k : Nat) (v : Word) : (s.setCbuf k v).result2 = s.result2 := rfl
@[simp] theorem State.setCbuf_errcode (s : State) (k : Nat) (v : Word) : (s.setCbuf k v).errcode = s.errcode := rfl
@[simp] theorem State.setCbuf_errinfo (s : State) (k : Nat) (v : Word) : (s.setCbuf k v).errinfo = s.errinfo := rfl
@[simp] theorem State.setCbuf_ofifo (s : State) (k : Nat) (v : Word) : (s.setCbuf k v).ofifo = s.ofifo := rfl
@[simp] theorem State.setCbuf_freq (s : State) (k : Nat) (v : Word) : (s.setCbuf k v).freq = s.freq := rfl
@[simp] theorem State.setCbuf_codes (s : State) (k : Nat) (v : Word) : (s.setCbuf k v).codes = s.codes := rfl
@[simp] theorem State.setCbuf_cbuf (s : State) (k : Nat) (v : Word) : (s.setCbuf k v).cbuf = Table.set 0 s.cbuf k v := rfl
@[simp] theorem State.setCbuf_nodes (s : State) (k : Nat) (v : Word) : (s.setCbuf k v).nodes = s.nodes := rfl
@[simp] theorem State.setCbuf_heap (s : State) (k : Nat) (v : Word) : (s.setCbuf k v).heap = s.heap := rfl
@[simp] theorem State.setCbuf_root (s : State) (k : Nat) (v : Word) : (s.setCbuf k v).root = s.root := rfl
@[simp] theorem State.setCbuf_bstate (s : State) (k : Nat) (v : Word) : (s.setCbuf k v).bstate = s.bstate := rfl
@[simp] theorem State.setCbuf_pkActive (s : State) (k : Nat) (v : Word) : (s.setCbuf k v).pkActive = s.pkActive := rfl
@[simp] theorem State.setCbuf_pkAcc (s : State) (k : Nat) (v : Word) : (s.setCbuf k v).pkAcc = s.pkAcc := rfl
@[simp] theorem State.setCbuf_pkNb (s : State) (k : Nat) (v : Word) : (s.setCbuf k v).pkNb = s.pkNb := rfl
@[simp] theorem State.setCbuf_pkBitcnt (s : State) (k : Nat) (v : Word) : (s.setCbuf k v).pkBitcnt = s.pkBitcnt := rfl
@[simp] theorem State.setCbuf_decActive (s : State) (k : Nat) (v : Word) : (s.setCbuf k v).decActive = s.decActive := rfl
@[simp] theorem State.setCbuf_limitEn (s : State) (k : Nat) (v : Word) : (s.setCbuf k v).limitEn = s.limitEn := rfl
@[simp] theorem State.setCbuf_decNbits (s : State) (k : Nat) (v : Word) : (s.setCbuf k v).decNbits = s.decNbits := rfl
@[simp] theorem State.setCbuf_acc (s : State) (k : Nat) (v : Word) : (s.setCbuf k v).acc = s.acc := rfl
@[simp] theorem State.setCbuf_accLen (s : State) (k : Nat) (v : Word) : (s.setCbuf k v).accLen = s.accLen := rfl
@[simp] theorem State.setCbuf_decBitcnt (s : State) (k : Nat) (v : Word) : (s.setCbuf k v).decBitcnt = s.decBitcnt := rfl
@[simp] theorem State.setCbuf_decResidue (s : State) (k : Nat) (v : Word) : (s.setCbuf k v).decResidue = s.decResidue := rfl
@[simp] theorem State.setCbuf_inReset (s : State) (k : Nat) (v : Word) : (s.setCbuf k v).inReset = s.inReset := rfl
@[simp] theorem State.setCbuf_hostOps (s : State) (k : Nat) (v : Word) : (s.setCbuf k v).hostOps = s.hostOps := rfl
@[simp] theorem State.setCbuf_hostReads (s : State) (k : Nat) (v : Word) : (s.setCbuf k v).hostReads = s.hostReads := rfl
@[simp] theorem State.setCbuf_turns (s : State) (k : Nat) (v : Word) : (s.setCbuf k v).turns = s.turns := rfl
@[simp] theorem State.setCbuf_draws (s : State) (k : Nat) (v : Word) : (s.setCbuf k v).draws = s.draws := rfl

/-! ### pushAll -/

@[simp] theorem State.pushAll_cfg (s : State) (es : List Entry) : (s.pushAll es).cfg = s.cfg := rfl
@[simp] theorem State.pushAll_pending (s : State) (es : List Entry) : (s.pushAll es).pending = s.pending := rfl
@[simp] theorem State.pushAll_arg0 (s : State) (es : List Entry) : (s.pushAll es).arg0 = s.arg0 := rfl
@[simp] theorem State.pushAll_arg1 (s : State) (es : List Entry) : (s.pushAll es).arg1 = s.arg1 := rfl
@[simp] theorem State.pushAll_result0 (s : State) (es : List Entry) : (s.pushAll es).result0 = s.result0 := rfl
@[simp] theorem State.pushAll_result1 (s : State) (es : List Entry) : (s.pushAll es).result1 = s.result1 := rfl
@[simp] theorem State.pushAll_result2 (s : State) (es : List Entry) : (s.pushAll es).result2 = s.result2 := rfl
@[simp] theorem State.pushAll_errcode (s : State) (es : List Entry) : (s.pushAll es).errcode = s.errcode := rfl
@[simp] theorem State.pushAll_errinfo (s : State) (es : List Entry) : (s.pushAll es).errinfo = s.errinfo := rfl
@[simp] theorem State.pushAll_ofifo (s : State) (es : List Entry) : (s.pushAll es).ofifo = s.ofifo ++ es := rfl
@[simp] theorem State.pushAll_freq (s : State) (es : List Entry) : (s.pushAll es).freq = s.freq := rfl
@[simp] theorem State.pushAll_codes (s : State) (es : List Entry) : (s.pushAll es).codes = s.codes := rfl
@[simp] theorem State.pushAll_cbuf (s : State) (es : List Entry) : (s.pushAll es).cbuf = s.cbuf := rfl
@[simp] theorem State.pushAll_nodes (s : State) (es : List Entry) : (s.pushAll es).nodes = s.nodes := rfl
@[simp] theorem State.pushAll_heap (s : State) (es : List Entry) : (s.pushAll es).heap = s.heap := rfl
@[simp] theorem State.pushAll_root (s : State) (es : List Entry) : (s.pushAll es).root = s.root := rfl
@[simp] theorem State.pushAll_bstate (s : State) (es : List Entry) : (s.pushAll es).bstate = s.bstate := rfl
@[simp] theorem State.pushAll_pkActive (s : State) (es : List Entry) : (s.pushAll es).pkActive = s.pkActive := rfl
@[simp] theorem State.pushAll_pkAcc (s : State) (es : List Entry) : (s.pushAll es).pkAcc = s.pkAcc := rfl
@[simp] theorem State.pushAll_pkNb (s : State) (es : List Entry) : (s.pushAll es).pkNb = s.pkNb := rfl
@[simp] theorem State.pushAll_pkBitcnt (s : State) (es : List Entry) : (s.pushAll es).pkBitcnt = s.pkBitcnt := rfl
@[simp] theorem State.pushAll_decActive (s : State) (es : List Entry) : (s.pushAll es).decActive = s.decActive := rfl
@[simp] theorem State.pushAll_limitEn (s : State) (es : List Entry) : (s.pushAll es).limitEn = s.limitEn := rfl
@[simp] theorem State.pushAll_decNbits (s : State) (es : List Entry) : (s.pushAll es).decNbits = s.decNbits := rfl
@[simp] theorem State.pushAll_acc (s : State) (es : List Entry) : (s.pushAll es).acc = s.acc := rfl
@[simp] theorem State.pushAll_accLen (s : State) (es : List Entry) : (s.pushAll es).accLen = s.accLen := rfl
@[simp] theorem State.pushAll_decBitcnt (s : State) (es : List Entry) : (s.pushAll es).decBitcnt = s.decBitcnt := rfl
@[simp] theorem State.pushAll_decResidue (s : State) (es : List Entry) : (s.pushAll es).decResidue = s.decResidue := rfl
@[simp] theorem State.pushAll_inReset (s : State) (es : List Entry) : (s.pushAll es).inReset = s.inReset := rfl
@[simp] theorem State.pushAll_hostOps (s : State) (es : List Entry) : (s.pushAll es).hostOps = s.hostOps := rfl
@[simp] theorem State.pushAll_hostReads (s : State) (es : List Entry) : (s.pushAll es).hostReads = s.hostReads := rfl
@[simp] theorem State.pushAll_turns (s : State) (es : List Entry) : (s.pushAll es).turns = s.turns := rfl
@[simp] theorem State.pushAll_draws (s : State) (es : List Entry) : (s.pushAll es).draws = s.draws := rfl

/-! ### clearError -/

@[simp] theorem State.clearError_cfg (s : State) : (s.clearError).cfg = s.cfg := rfl
@[simp] theorem State.clearError_pending (s : State) : (s.clearError).pending = s.pending := rfl
@[simp] theorem State.clearError_arg0 (s : State) : (s.clearError).arg0 = s.arg0 := rfl
@[simp] theorem State.clearError_arg1 (s : State) : (s.clearError).arg1 = s.arg1 := rfl
@[simp] theorem State.clearError_result0 (s : State) : (s.clearError).result0 = s.result0 := rfl
@[simp] theorem State.clearError_result1 (s : State) : (s.clearError).result1 = s.result1 := rfl
@[simp] theorem State.clearError_result2 (s : State) : (s.clearError).result2 = s.result2 := rfl
@[simp] theorem State.clearError_errcode (s : State) : (s.clearError).errcode = ErrCode.none := rfl
@[simp] theorem State.clearError_errinfo (s : State) : (s.clearError).errinfo = 0 := rfl
@[simp] theorem State.clearError_ofifo (s : State) : (s.clearError).ofifo = s.ofifo := rfl
@[simp] theorem State.clearError_freq (s : State) : (s.clearError).freq = s.freq := rfl
@[simp] theorem State.clearError_codes (s : State) : (s.clearError).codes = s.codes := rfl
@[simp] theorem State.clearError_cbuf (s : State) : (s.clearError).cbuf = s.cbuf := rfl
@[simp] theorem State.clearError_nodes (s : State) : (s.clearError).nodes = s.nodes := rfl
@[simp] theorem State.clearError_heap (s : State) : (s.clearError).heap = s.heap := rfl
@[simp] theorem State.clearError_root (s : State) : (s.clearError).root = s.root := rfl
@[simp] theorem State.clearError_bstate (s : State) : (s.clearError).bstate = s.bstate := rfl
@[simp] theorem State.clearError_pkActive (s : State) : (s.clearError).pkActive = s.pkActive := rfl
@[simp] theorem State.clearError_pkAcc (s : State) : (s.clearError).pkAcc = s.pkAcc := rfl
@[simp] theorem State.clearError_pkNb (s : State) : (s.clearError).pkNb = s.pkNb := rfl
@[simp] theorem State.clearError_pkBitcnt (s : State) : (s.clearError).pkBitcnt = s.pkBitcnt := rfl
@[simp] theorem State.clearError_decActive (s : State) : (s.clearError).decActive = s.decActive := rfl
@[simp] theorem State.clearError_limitEn (s : State) : (s.clearError).limitEn = s.limitEn := rfl
@[simp] theorem State.clearError_decNbits (s : State) : (s.clearError).decNbits = s.decNbits := rfl
@[simp] theorem State.clearError_acc (s : State) : (s.clearError).acc = s.acc := rfl
@[simp] theorem State.clearError_accLen (s : State) : (s.clearError).accLen = s.accLen := rfl
@[simp] theorem State.clearError_decBitcnt (s : State) : (s.clearError).decBitcnt = s.decBitcnt := rfl
@[simp] theorem State.clearError_decResidue (s : State) : (s.clearError).decResidue = s.decResidue := rfl
@[simp] theorem State.clearError_inReset (s : State) : (s.clearError).inReset = s.inReset := rfl
@[simp] theorem State.clearError_hostOps (s : State) : (s.clearError).hostOps = s.hostOps := rfl
@[simp] theorem State.clearError_hostReads (s : State) : (s.clearError).hostReads = s.hostReads := rfl
@[simp] theorem State.clearError_turns (s : State) : (s.clearError).turns = s.turns := rfl
@[simp] theorem State.clearError_draws (s : State) : (s.clearError).draws = s.draws := rfl

/-! ### retire -/

@[simp] theorem State.retire_cfg (s : State) : (s.retire).cfg = s.cfg := rfl
@[simp] theorem State.retire_pending (s : State) : (s.retire).pending = none := rfl
@[simp] theorem State.retire_arg0 (s : State) : (s.retire).arg0 = s.arg0 := rfl
@[simp] theorem State.retire_arg1 (s : State) : (s.retire).arg1 = s.arg1 := rfl
@[simp] theorem State.retire_result0 (s : State) : (s.retire).result0 = s.result0 := rfl
@[simp] theorem State.retire_result1 (s : State) : (s.retire).result1 = s.result1 := rfl
@[simp] theorem State.retire_result2 (s : State) : (s.retire).result2 = s.result2 := rfl
@[simp] theorem State.retire_errcode (s : State) : (s.retire).errcode = s.errcode := rfl
@[simp] theorem State.retire_errinfo (s : State) : (s.retire).errinfo = s.errinfo := rfl
@[simp] theorem State.retire_ofifo (s : State) : (s.retire).ofifo = s.ofifo := rfl
@[simp] theorem State.retire_freq (s : State) : (s.retire).freq = s.freq := rfl
@[simp] theorem State.retire_codes (s : State) : (s.retire).codes = s.codes := rfl
@[simp] theorem State.retire_cbuf (s : State) : (s.retire).cbuf = s.cbuf := rfl
@[simp] theorem State.retire_nodes (s : State) : (s.retire).nodes = s.nodes := rfl
@[simp] theorem State.retire_heap (s : State) : (s.retire).heap = s.heap := rfl
@[simp] theorem State.retire_root (s : State) : (s.retire).root = s.root := rfl
@[simp] theorem State.retire_bstate (s : State) : (s.retire).bstate = s.bstate := rfl
@[simp] theorem State.retire_pkActive (s : State) : (s.retire).pkActive = s.pkActive := rfl
@[simp] theorem State.retire_pkAcc (s : State) : (s.retire).pkAcc = s.pkAcc := rfl
@[simp] theorem State.retire_pkNb (s : State) : (s.retire).pkNb = s.pkNb := rfl
@[simp] theorem State.retire_pkBitcnt (s : State) : (s.retire).pkBitcnt = s.pkBitcnt := rfl
@[simp] theorem State.retire_decActive (s : State) : (s.retire).decActive = s.decActive := rfl
@[simp] theorem State.retire_limitEn (s : State) : (s.retire).limitEn = s.limitEn := rfl
@[simp] theorem State.retire_decNbits (s : State) : (s.retire).decNbits = s.decNbits := rfl
@[simp] theorem State.retire_acc (s : State) : (s.retire).acc = s.acc := rfl
@[simp] theorem State.retire_accLen (s : State) : (s.retire).accLen = s.accLen := rfl
@[simp] theorem State.retire_decBitcnt (s : State) : (s.retire).decBitcnt = s.decBitcnt := rfl
@[simp] theorem State.retire_decResidue (s : State) : (s.retire).decResidue = s.decResidue := rfl
@[simp] theorem State.retire_inReset (s : State) : (s.retire).inReset = s.inReset := rfl
@[simp] theorem State.retire_hostOps (s : State) : (s.retire).hostOps = s.hostOps := rfl
@[simp] theorem State.retire_hostReads (s : State) : (s.retire).hostReads = s.hostReads := rfl
@[simp] theorem State.retire_turns (s : State) : (s.retire).turns = s.turns := rfl
@[simp] theorem State.retire_draws (s : State) : (s.retire).draws = s.draws := rfl

/-! ### record -/

@[simp] theorem State.record_cfg (s : State) (e : ErrCode) (w : Word) : (s.record e w).cfg = s.cfg := by
  unfold State.record; split <;> rfl
@[simp] theorem State.record_pending (s : State) (e : ErrCode) (w : Word) : (s.record e w).pending = s.pending := by
  unfold State.record; split <;> rfl
@[simp] theorem State.record_arg0 (s : State) (e : ErrCode) (w : Word) : (s.record e w).arg0 = s.arg0 := by
  unfold State.record; split <;> rfl
@[simp] theorem State.record_arg1 (s : State) (e : ErrCode) (w : Word) : (s.record e w).arg1 = s.arg1 := by
  unfold State.record; split <;> rfl
@[simp] theorem State.record_result0 (s : State) (e : ErrCode) (w : Word) : (s.record e w).result0 = s.result0 := by
  unfold State.record; split <;> rfl
@[simp] theorem State.record_result1 (s : State) (e : ErrCode) (w : Word) : (s.record e w).result1 = s.result1 := by
  unfold State.record; split <;> rfl
@[simp] theorem State.record_result2 (s : State) (e : ErrCode) (w : Word) : (s.record e w).result2 = s.result2 := by
  unfold State.record; split <;> rfl
@[simp] theorem State.record_ofifo (s : State) (e : ErrCode) (w : Word) : (s.record e w).ofifo = s.ofifo := by
  unfold State.record; split <;> rfl
@[simp] theorem State.record_freq (s : State) (e : ErrCode) (w : Word) : (s.record e w).freq = s.freq := by
  unfold State.record; split <;> rfl
@[simp] theorem State.record_codes (s : State) (e : ErrCode) (w : Word) : (s.record e w).codes = s.codes := by
  unfold State.record; split <;> rfl
@[simp] theorem State.record_cbuf (s : State) (e : ErrCode) (w : Word) : (s.record e w).cbuf = s.cbuf := by
  unfold State.record; split <;> rfl
@[simp] theorem State.record_nodes (s : State) (e : ErrCode) (w : Word) : (s.record e w).nodes = s.nodes := by
  unfold State.record; split <;> rfl
@[simp] theorem State.record_heap (s : State) (e : ErrCode) (w : Word) : (s.record e w).heap = s.heap := by
  unfold State.record; split <;> rfl
@[simp] theorem State.record_root (s : State) (e : ErrCode) (w : Word) : (s.record e w).root = s.root := by
  unfold State.record; split <;> rfl
@[simp] theorem State.record_bstate (s : State) (e : ErrCode) (w : Word) : (s.record e w).bstate = s.bstate := by
  unfold State.record; split <;> rfl
@[simp] theorem State.record_pkActive (s : State) (e : ErrCode) (w : Word) : (s.record e w).pkActive = s.pkActive := by
  unfold State.record; split <;> rfl
@[simp] theorem State.record_pkAcc (s : State) (e : ErrCode) (w : Word) : (s.record e w).pkAcc = s.pkAcc := by
  unfold State.record; split <;> rfl
@[simp] theorem State.record_pkNb (s : State) (e : ErrCode) (w : Word) : (s.record e w).pkNb = s.pkNb := by
  unfold State.record; split <;> rfl
@[simp] theorem State.record_pkBitcnt (s : State) (e : ErrCode) (w : Word) : (s.record e w).pkBitcnt = s.pkBitcnt := by
  unfold State.record; split <;> rfl
@[simp] theorem State.record_decActive (s : State) (e : ErrCode) (w : Word) : (s.record e w).decActive = s.decActive := by
  unfold State.record; split <;> rfl
@[simp] theorem State.record_limitEn (s : State) (e : ErrCode) (w : Word) : (s.record e w).limitEn = s.limitEn := by
  unfold State.record; split <;> rfl
@[simp] theorem State.record_decNbits (s : State) (e : ErrCode) (w : Word) : (s.record e w).decNbits = s.decNbits := by
  unfold State.record; split <;> rfl
@[simp] theorem State.record_acc (s : State) (e : ErrCode) (w : Word) : (s.record e w).acc = s.acc := by
  unfold State.record; split <;> rfl
@[simp] theorem State.record_accLen (s : State) (e : ErrCode) (w : Word) : (s.record e w).accLen = s.accLen := by
  unfold State.record; split <;> rfl
@[simp] theorem State.record_decBitcnt (s : State) (e : ErrCode) (w : Word) : (s.record e w).decBitcnt = s.decBitcnt := by
  unfold State.record; split <;> rfl
@[simp] theorem State.record_decResidue (s : State) (e : ErrCode) (w : Word) : (s.record e w).decResidue = s.decResidue := by
  unfold State.record; split <;> rfl
@[simp] theorem State.record_inReset (s : State) (e : ErrCode) (w : Word) : (s.record e w).inReset = s.inReset := by
  unfold State.record; split <;> rfl
@[simp] theorem State.record_hostOps (s : State) (e : ErrCode) (w : Word) : (s.record e w).hostOps = s.hostOps := by
  unfold State.record; split <;> rfl
@[simp] theorem State.record_hostReads (s : State) (e : ErrCode) (w : Word) : (s.record e w).hostReads = s.hostReads := by
  unfold State.record; split <;> rfl
@[simp] theorem State.record_turns (s : State) (e : ErrCode) (w : Word) : (s.record e w).turns = s.turns := by
  unfold State.record; split <;> rfl
@[simp] theorem State.record_draws (s : State) (e : ErrCode) (w : Word) : (s.record e w).draws = s.draws := by
  unfold State.record; split <;> rfl

/-! ### raise -/

@[simp] theorem State.raise_cfg (s : State) (e : ErrCode) : (s.raise e).cfg = s.cfg := by
  simp [State.raise]
@[simp] theorem State.raise_pending (s : State) (e : ErrCode) : (s.raise e).pending = s.pending := by
  simp [State.raise]
@[simp] theorem State.raise_arg0 (s : State) (e : ErrCode) : (s.raise e).arg0 = s.arg0 := by
  simp [State.raise]
@[simp] theorem State.raise_arg1 (s : State) (e : ErrCode) : (s.raise e).arg1 = s.arg1 := by
  simp [State.raise]
@[simp] theorem State.raise_result0 (s : State) (e : ErrCode) : (s.raise e).result0 = s.result0 := by
  simp [State.raise]
@[simp] theorem State.raise_result1 (s : State) (e : ErrCode) : (s.raise e).result1 = s.result1 := by
  simp [State.raise]
@[simp] theorem State.raise_result2 (s : State) (e : ErrCode) : (s.raise e).result2 = s.result2 := by
  simp [State.raise]
@[simp] theorem State.raise_ofifo (s : State) (e : ErrCode) : (s.raise e).ofifo = s.ofifo := by
  simp [State.raise]
@[simp] theorem State.raise_freq (s : State) (e : ErrCode) : (s.raise e).freq = s.freq := by
  simp [State.raise]
@[simp] theorem State.raise_codes (s : State) (e : ErrCode) : (s.raise e).codes = s.codes := by
  simp [State.raise]
@[simp] theorem State.raise_cbuf (s : State) (e : ErrCode) : (s.raise e).cbuf = s.cbuf := by
  simp [State.raise]
@[simp] theorem State.raise_nodes (s : State) (e : ErrCode) : (s.raise e).nodes = s.nodes := by
  simp [State.raise]
@[simp] theorem State.raise_heap (s : State) (e : ErrCode) : (s.raise e).heap = s.heap := by
  simp [State.raise]
@[simp] theorem State.raise_root (s : State) (e : ErrCode) : (s.raise e).root = s.root := by
  simp [State.raise]
@[simp] theorem State.raise_bstate (s : State) (e : ErrCode) : (s.raise e).bstate = s.bstate := by
  simp [State.raise]
@[simp] theorem State.raise_pkActive (s : State) (e : ErrCode) : (s.raise e).pkActive = s.pkActive := by
  simp [State.raise]
@[simp] theorem State.raise_pkAcc (s : State) (e : ErrCode) : (s.raise e).pkAcc = s.pkAcc := by
  simp [State.raise]
@[simp] theorem State.raise_pkNb (s : State) (e : ErrCode) : (s.raise e).pkNb = s.pkNb := by
  simp [State.raise]
@[simp] theorem State.raise_pkBitcnt (s : State) (e : ErrCode) : (s.raise e).pkBitcnt = s.pkBitcnt := by
  simp [State.raise]
@[simp] theorem State.raise_decActive (s : State) (e : ErrCode) : (s.raise e).decActive = s.decActive := by
  simp [State.raise]
@[simp] theorem State.raise_limitEn (s : State) (e : ErrCode) : (s.raise e).limitEn = s.limitEn := by
  simp [State.raise]
@[simp] theorem State.raise_decNbits (s : State) (e : ErrCode) : (s.raise e).decNbits = s.decNbits := by
  simp [State.raise]
@[simp] theorem State.raise_acc (s : State) (e : ErrCode) : (s.raise e).acc = s.acc := by
  simp [State.raise]
@[simp] theorem State.raise_accLen (s : State) (e : ErrCode) : (s.raise e).accLen = s.accLen := by
  simp [State.raise]
@[simp] theorem State.raise_decBitcnt (s : State) (e : ErrCode) : (s.raise e).decBitcnt = s.decBitcnt := by
  simp [State.raise]
@[simp] theorem State.raise_decResidue (s : State) (e : ErrCode) : (s.raise e).decResidue = s.decResidue := by
  simp [State.raise]
@[simp] theorem State.raise_inReset (s : State) (e : ErrCode) : (s.raise e).inReset = s.inReset := by
  simp [State.raise]
@[simp] theorem State.raise_hostOps (s : State) (e : ErrCode) : (s.raise e).hostOps = s.hostOps := by
  simp [State.raise]
@[simp] theorem State.raise_hostReads (s : State) (e : ErrCode) : (s.raise e).hostReads = s.hostReads := by
  simp [State.raise]
@[simp] theorem State.raise_turns (s : State) (e : ErrCode) : (s.raise e).turns = s.turns := by
  simp [State.raise]
@[simp] theorem State.raise_draws (s : State) (e : ErrCode) : (s.raise e).draws = s.draws := by
  simp [State.raise]

/-! ### takeTurn -/

@[simp] theorem State.takeTurn_cfg (s : State) : (s.takeTurn).cfg = s.cfg := by
  unfold State.takeTurn; split <;> rfl
@[simp] theorem State.takeTurn_pending (s : State) : (s.takeTurn).pending = s.pending := by
  unfold State.takeTurn; split <;> rfl
@[simp] theorem State.takeTurn_arg0 (s : State) : (s.takeTurn).arg0 = s.arg0 := by
  unfold State.takeTurn; split <;> rfl
@[simp] theorem State.takeTurn_arg1 (s : State) : (s.takeTurn).arg1 = s.arg1 := by
  unfold State.takeTurn; split <;> rfl
@[simp] theorem State.takeTurn_result0 (s : State) : (s.takeTurn).result0 = s.result0 := by
  unfold State.takeTurn; split <;> rfl
@[simp] theorem State.takeTurn_result1 (s : State) : (s.takeTurn).result1 = s.result1 := by
  unfold State.takeTurn; split <;> rfl
@[simp] theorem State.takeTurn_result2 (s : State) : (s.takeTurn).result2 = s.result2 := by
  unfold State.takeTurn; split <;> rfl
@[simp] theorem State.takeTurn_errcode (s : State) : (s.takeTurn).errcode = s.errcode := by
  unfold State.takeTurn; split <;> rfl
@[simp] theorem State.takeTurn_errinfo (s : State) : (s.takeTurn).errinfo = s.errinfo := by
  unfold State.takeTurn; split <;> rfl
@[simp] theorem State.takeTurn_ofifo (s : State) : (s.takeTurn).ofifo = s.ofifo := by
  unfold State.takeTurn; split <;> rfl
@[simp] theorem State.takeTurn_freq (s : State) : (s.takeTurn).freq = s.freq := by
  unfold State.takeTurn; split <;> rfl
@[simp] theorem State.takeTurn_codes (s : State) : (s.takeTurn).codes = s.codes := by
  unfold State.takeTurn; split <;> rfl
@[simp] theorem State.takeTurn_cbuf (s : State) : (s.takeTurn).cbuf = s.cbuf := by
  unfold State.takeTurn; split <;> rfl
@[simp] theorem State.takeTurn_nodes (s : State) : (s.takeTurn).nodes = s.nodes := by
  unfold State.takeTurn; split <;> rfl
@[simp] theorem State.takeTurn_heap (s : State) : (s.takeTurn).heap = s.heap := by
  unfold State.takeTurn; split <;> rfl
@[simp] theorem State.takeTurn_root (s : State) : (s.takeTurn).root = s.root := by
  unfold State.takeTurn; split <;> rfl
@[simp] theorem State.takeTurn_bstate (s : State) : (s.takeTurn).bstate = s.bstate := by
  unfold State.takeTurn; split <;> rfl
@[simp] theorem State.takeTurn_pkActive (s : State) : (s.takeTurn).pkActive = s.pkActive := by
  unfold State.takeTurn; split <;> rfl
@[simp] theorem State.takeTurn_pkAcc (s : State) : (s.takeTurn).pkAcc = s.pkAcc := by
  unfold State.takeTurn; split <;> rfl
@[simp] theorem State.takeTurn_pkNb (s : State) : (s.takeTurn).pkNb = s.pkNb := by
  unfold State.takeTurn; split <;> rfl
@[simp] theorem State.takeTurn_pkBitcnt (s : State) : (s.takeTurn).pkBitcnt = s.pkBitcnt := by
  unfold State.takeTurn; split <;> rfl
@[simp] theorem State.takeTurn_decActive (s : State) : (s.takeTurn).decActive = s.decActive := by
  unfold State.takeTurn; split <;> rfl
@[simp] theorem State.takeTurn_limitEn (s : State) : (s.takeTurn).limitEn = s.limitEn := by
  unfold State.takeTurn; split <;> rfl
@[simp] theorem State.takeTurn_decNbits (s : State) : (s.takeTurn).decNbits = s.decNbits := by
  unfold State.takeTurn; split <;> rfl
@[simp] theorem State.takeTurn_acc (s : State) : (s.takeTurn).acc = s.acc := by
  unfold State.takeTurn; split <;> rfl
@[simp] theorem State.takeTurn_accLen (s : State) : (s.takeTurn).accLen = s.accLen := by
  unfold State.takeTurn; split <;> rfl
@[simp] theorem State.takeTurn_decBitcnt (s : State) : (s.takeTurn).decBitcnt = s.decBitcnt := by
  unfold State.takeTurn; split <;> rfl
@[simp] theorem State.takeTurn_decResidue (s : State) : (s.takeTurn).decResidue = s.decResidue := by
  unfold State.takeTurn; split <;> rfl
@[simp] theorem State.takeTurn_inReset (s : State) : (s.takeTurn).inReset = s.inReset := by
  unfold State.takeTurn; split <;> rfl
@[simp] theorem State.takeTurn_hostOps (s : State) : (s.takeTurn).hostOps = s.hostOps := by
  unfold State.takeTurn; split <;> rfl
@[simp] theorem State.takeTurn_hostReads (s : State) : (s.takeTurn).hostReads = s.hostReads := by
  unfold State.takeTurn; split <;> rfl
@[simp] theorem State.takeTurn_draws (s : State) : (s.takeTurn).draws = s.draws := by
  unfold State.takeTurn; split <;> rfl

/-! ### resetAction -/

@[simp] theorem State.resetAction_cfg (s : State) : (s.resetAction).cfg = s.cfg := rfl
@[simp] theorem State.resetAction_pending (s : State) : (s.resetAction).pending = none := rfl
@[simp] theorem State.resetAction_arg0 (s : State) : (s.resetAction).arg0 = 0 := rfl
@[simp] theorem State.resetAction_arg1 (s : State) : (s.resetAction).arg1 = 0 := rfl
@[simp] theorem State.resetAction_result0 (s : State) : (s.resetAction).result0 = 0 := rfl
@[simp] theorem State.resetAction_result1 (s : State) : (s.resetAction).result1 = 0 := rfl
@[simp] theorem State.resetAction_result2 (s : State) : (s.resetAction).result2 = 0 := rfl
@[simp] theorem State.resetAction_errcode (s : State) : (s.resetAction).errcode = ErrCode.none := rfl
@[simp] theorem State.resetAction_errinfo (s : State) : (s.resetAction).errinfo = 0 := rfl
@[simp] theorem State.resetAction_ofifo (s : State) : (s.resetAction).ofifo = [] := rfl
@[simp] theorem State.resetAction_freq (s : State) : (s.resetAction).freq = [] := rfl
@[simp] theorem State.resetAction_codes (s : State) : (s.resetAction).codes = [] := rfl
@[simp] theorem State.resetAction_cbuf (s : State) : (s.resetAction).cbuf = [] := rfl
@[simp] theorem State.resetAction_nodes (s : State) : (s.resetAction).nodes = [] := rfl
@[simp] theorem State.resetAction_heap (s : State) : (s.resetAction).heap = [] := rfl
@[simp] theorem State.resetAction_root (s : State) : (s.resetAction).root = none := rfl
@[simp] theorem State.resetAction_bstate (s : State) : (s.resetAction).bstate = Phase.empty := rfl
@[simp] theorem State.resetAction_pkActive (s : State) : (s.resetAction).pkActive = false := rfl
@[simp] theorem State.resetAction_pkAcc (s : State) : (s.resetAction).pkAcc = 0 := rfl
@[simp] theorem State.resetAction_pkNb (s : State) : (s.resetAction).pkNb = 0 := rfl
@[simp] theorem State.resetAction_pkBitcnt (s : State) : (s.resetAction).pkBitcnt = 0 := rfl
@[simp] theorem State.resetAction_decActive (s : State) : (s.resetAction).decActive = false := rfl
@[simp] theorem State.resetAction_limitEn (s : State) : (s.resetAction).limitEn = false := rfl
@[simp] theorem State.resetAction_decNbits (s : State) : (s.resetAction).decNbits = 0 := rfl
@[simp] theorem State.resetAction_acc (s : State) : (s.resetAction).acc = 0 := rfl
@[simp] theorem State.resetAction_accLen (s : State) : (s.resetAction).accLen = 0 := rfl
@[simp] theorem State.resetAction_decBitcnt (s : State) : (s.resetAction).decBitcnt = 0 := rfl
@[simp] theorem State.resetAction_decResidue (s : State) : (s.resetAction).decResidue = 0 := rfl
@[simp] theorem State.resetAction_inReset (s : State) : (s.resetAction).inReset = s.inReset := rfl
@[simp] theorem State.resetAction_hostOps (s : State) : (s.resetAction).hostOps = s.hostOps := rfl
@[simp] theorem State.resetAction_hostReads (s : State) : (s.resetAction).hostReads = s.hostReads := rfl
@[simp] theorem State.resetAction_turns (s : State) : (s.resetAction).turns = s.turns := rfl
@[simp] theorem State.resetAction_draws (s : State) : (s.resetAction).draws = s.draws := rfl

/-! ### Recording an error (R224) -/

theorem State.record_first {s : State} (h : s.errcode = .none) (e : ErrCode) (w : Word) :
    s.record e w = { s with errcode := e, errinfo := w } := by
  simp [State.record, h]

theorem State.record_later {s : State} (h : s.errcode ≠ .none) (e : ErrCode) (w : Word) : s.record e w = s := by
  simp [State.record, h]

/-- An error code, once recorded, is neither lost nor replaced (R224). -/
theorem State.record_errcode (s : State) (e : ErrCode) (w : Word) :
    (s.record e w).errcode = if s.errcode = .none then e else s.errcode := by
  unfold State.record; split <;> simp_all

theorem State.record_errinfo (s : State) (e : ErrCode) (w : Word) :
    (s.record e w).errinfo = if s.errcode = .none then w else s.errinfo := by
  unfold State.record; split <;> simp_all

theorem State.raise_errcode (s : State) (e : ErrCode) :
    (s.raise e).errcode = if s.errcode = .none then e else s.errcode := State.record_errcode s e s.cmd

theorem State.raise_errinfo (s : State) (e : ErrCode) :
    (s.raise e).errinfo = if s.errcode = .none then s.cmd else s.errinfo := State.record_errinfo s e s.cmd

/-- Raising changes nothing but the error registers (R224). -/
theorem State.raise_frame (s : State) (e : ErrCode) :
    s.raise e = { s with errcode := (s.raise e).errcode, errinfo := (s.raise e).errinfo } := by
  unfold State.raise State.record; split <;> rfl

/-! ### The latched operands depend only on the latch -/

theorem State.cmd_of_pending {s : State} {l : Latch} (h : s.pending = some l) : s.cmd = l.cmd := by
  simp [State.cmd, h]

theorem State.a0_of_pending {s : State} {l : Latch} (h : s.pending = some l) : s.a0 = l.a0 := by
  simp [State.a0, h]

theorem State.a1_of_pending {s : State} {l : Latch} (h : s.pending = some l) : s.a1 = l.a1 := by
  simp [State.a1, h]

@[simp] theorem State.takeTurn_cmd (s : State) : s.takeTurn.cmd = s.cmd := by simp [State.cmd]

/-! ### Guarded commands (R223) -/

/-- A guarded command either passes every check and does its effect, or raises the first check that fails. -/
theorem State.guarded_cases (s : State) (checks : List (Bool × ErrCode)) (effect : Host.Outcome State Fault Refusal) :
    (firstError checks = none ∧ s.guarded checks effect = effect) ∨
    (∃ e, firstError checks = some e ∧ s.guarded checks effect = .next (s.raise e)) := by
  unfold State.guarded
  cases h : firstError checks with
  | none => exact .inl ⟨rfl, rfl⟩
  | some e => exact .inr ⟨e, rfl, rfl⟩

theorem State.guarded_ok {s : State} {checks : List (Bool × ErrCode)} (h : firstError checks = none)
    (effect : Host.Outcome State Fault Refusal) : s.guarded checks effect = effect := by
  simp [State.guarded, h]

theorem State.guarded_error {s : State} {checks : List (Bool × ErrCode)} {e : ErrCode}
    (h : firstError checks = some e) (effect : Host.Outcome State Fault Refusal) :
    s.guarded checks effect = .next (s.raise e) := by
  simp [State.guarded, h]

@[simp] theorem firstError_nil : firstError [] = none := rfl

@[simp] theorem firstError_cons (bad : Bool) (e : ErrCode) (rest : List (Bool × ErrCode)) :
    firstError ((bad, e) :: rest) = if bad then some e else firstError rest := rfl

/-- No check fails exactly when every check is false. -/
theorem firstError_none {checks : List (Bool × ErrCode)} :
    firstError checks = none ↔ ∀ c ∈ checks, c.1 = false := by
  induction checks with
  | nil => simp
  | cons c rest ih =>
    obtain ⟨bad, e⟩ := c
    cases bad <;> simp [ih]

/-- What a guarded command that answers a next state did: it raised the first failing check, or passed them all. -/
theorem State.guarded_next {s t : State} {checks : List (Bool × ErrCode)} {effect : Host.Outcome State Fault Refusal}
    (h : s.guarded checks effect = .next t) :
    (∃ e, firstError checks = some e ∧ t = s.raise e) ∨ ((∀ c ∈ checks, c.1 = false) ∧ effect = .next t) := by
  rcases s.guarded_cases checks effect with ⟨h1, h2⟩ | ⟨e, h1, h2⟩
  · exact .inr ⟨firstError_none.1 h1, h2 ▸ h⟩
  · rw [h2] at h
    injection h with h
    exact .inl ⟨e, h1, h.symm⟩

/-- Raising leaves the state alone, or records the error and its word (R224). -/
theorem State.raise_cases (s : State) (e : ErrCode) :
    (s.errcode ≠ .none ∧ s.raise e = s) ∨
    (s.errcode = .none ∧ s.raise e = { s with errcode := e, errinfo := s.cmd }) := by
  by_cases h : s.errcode = .none
  · exact .inr ⟨h, State.record_first h e s.cmd⟩
  · exact .inl ⟨h, State.record_later h e s.cmd⟩

end Sys2Proof.Machine
end

