-- ==== Sys2Proof/Laws/Bits.lean ====
section
/-! SUPPORT. Bit strings: their length, their value, cutting them, and what the packing loop does to them (00_scope.md
R10, 44_packer.md R172). -/

namespace Sys2Proof.Machine

/-- The value of a bit string, first bit most significant (R10). -/
def bitsVal (bs : List Bool) : Nat := bs.foldl (fun v b => 2 * v + b.toNat) 0

@[simp] theorem bitsOf_length (len v : Nat) : (bitsOf len v).length = len := by
  induction len with
  | zero => rfl
  | succ len ih => simp [bitsOf, ih]

theorem bitsVal_append_one (bs : List Bool) (b : Bool) : bitsVal (bs ++ [b]) = 2 * bitsVal bs + b.toNat := by
  simp [bitsVal]

/-- Only the low bits of the value count. -/
theorem bitsOf_mod (len v n : Nat) (h : len ≤ n) : bitsOf len (v % 2 ^ n) = bitsOf len v := by
  induction len with
  | zero => rfl
  | succ len ih =>
    rw [bitsOf, bitsOf, ih (by omega), Nat.testBit_mod_two_pow]
    simp [show len < n by omega]

/-- A bit string of two parts: the high part, then the low part. -/
theorem bitsOf_add (a b v : Nat) : bitsOf (a + b) v = bitsOf a (v / 2 ^ b) ++ bitsOf b v := by
  induction a with
  | zero => simp [bitsOf]
  | succ a ih =>
    rw [show a + 1 + b = (a + b) + 1 by omega, bitsOf, ih, bitsOf, Nat.testBit_div_two_pow,
      List.cons_append]

/-- Appending one bit to a string: the value doubles (R10). -/
theorem bitsOf_snoc (len v : Nat) (b : Bool) : bitsOf (len + 1) (2 * v + b.toNat) = bitsOf len v ++ [b] := by
  rw [bitsOf_add len 1]
  have h1 : (2 * v + b.toNat) / 2 ^ 1 = v := by cases b <;> simp; omega
  rw [h1]
  congr 1
  cases b <;> simp [bitsOf]

theorem bitsVal_bitsOf (len v : Nat) : bitsVal (bitsOf len v) = v % 2 ^ len := by
  induction len generalizing v with
  | zero => simp [bitsOf, bitsVal, Nat.mod_one]
  | succ len ih =>
    have e : bitsOf (len + 1) v = bitsOf len (v / 2) ++ [v.testBit 0] := by
      rw [bitsOf_add len 1]; simp [bitsOf]
    rw [e, bitsVal_append_one, ih, pow_succ, Nat.testBit_zero]
    have h2 : (decide (v % 2 = 1)).toNat = v % 2 := by
      rcases Nat.mod_two_eq_zero_or_one v with h | h <;> simp [h]
    rw [h2, Nat.mul_comm (2 ^ len) 2, Nat.mod_mul]
    omega

theorem bitsVal_lt (bs : List Bool) : bitsVal bs < 2 ^ bs.length := by
  induction bs using List.reverseRecOn with
  | nil => simp [bitsVal]
  | append_singleton bs b ih =>
    rw [bitsVal_append_one, List.length_append, List.length_singleton, pow_succ]
    cases b <;> simp <;> omega

/-- Every bit string is the string of its value. -/
theorem bitsOf_bitsVal (bs : List Bool) : bitsOf bs.length (bitsVal bs) = bs := by
  induction bs using List.reverseRecOn with
  | nil => rfl
  | append_singleton bs b ih =>
    rw [bitsVal_append_one, List.length_append, List.length_singleton, bitsOf_snoc, ih]

/-- Strings of one length are equal only if their values are. -/
theorem bitsOf_inj {len u v : Nat} (hu : u < 2 ^ len) (hv : v < 2 ^ len) (h : bitsOf len u = bitsOf len v) : u = v := by
  have := congrArg bitsVal h
  rwa [bitsVal_bitsOf, bitsVal_bitsOf, Nat.mod_eq_of_lt hu, Nat.mod_eq_of_lt hv] at this

/-- R172's loop: the bytes pushed and the bits left are the pending bits followed by the new ones, cut into eights. -/
theorem packBits_spec (bs : List Bool) (acc : Byte) (nb : Nat) (hnb : nb ≤ 7) (hacc : acc.toNat < 2 ^ nb) :
    bitsOf nb acc.toNat ++ bs =
      (packBits bs acc nb).1.flatMap (fun y => bitsOf 8 y.toNat) ++
        bitsOf (packBits bs acc nb).2.2 (packBits bs acc nb).2.1.toNat ∧
    (packBits bs acc nb).2.1.toNat < 2 ^ (packBits bs acc nb).2.2 ∧
    (packBits bs acc nb).2.2 = (nb + bs.length) % 8 ∧
    (packBits bs acc nb).1.length = (nb + bs.length) / 8 := by
  induction bs generalizing acc nb with
  | nil =>
    simp only [packBits, List.append_nil, List.flatMap_nil, List.nil_append, List.length_nil]
    exact ⟨trivial, hacc, by omega, by omega⟩
  | cons b bs ih =>
    have hpow : 2 ^ nb ≤ 128 := by
      calc 2 ^ nb ≤ 2 ^ 7 := Nat.pow_le_pow_right (by decide) hnb
        _ = 128 := by decide
    have hval : (2 * acc + BitVec.ofNat 8 b.toNat).toNat = 2 * acc.toNat + b.toNat := by
      have hb : b.toNat ≤ 1 := by cases b <;> simp
      rw [BitVec.toNat_add, BitVec.toNat_mul, BitVec.toNat_ofNat]
      have h2 : (2 : Byte).toNat = 2 := rfl
      rw [h2]
      omega
    have hnew : bitsOf (nb + 1) (2 * acc + BitVec.ofNat 8 b.toNat).toNat = bitsOf nb acc.toNat ++ [b] := by
      rw [hval, bitsOf_snoc]
    unfold packBits
    by_cases h8 : nb + 1 = 8
    · simp only [h8, if_true]
      obtain ⟨i1, i2, i3, i4⟩ := ih 0 0 (by omega) (by simp)
      refine ⟨?_, i2, ?_, ?_⟩
      · rw [h8] at hnew
        rw [List.flatMap_cons, hnew, List.append_assoc, List.append_assoc, ← i1]
        simp [bitsOf]
      · rw [i3, List.length_cons]; omega
      · rw [List.length_cons, i4, List.length_cons]; omega
    · simp only [h8, if_false]
      obtain ⟨i1, i2, i3, i4⟩ := ih (2 * acc + BitVec.ofNat 8 b.toNat) (nb + 1) (by omega) (by
        rw [hval, pow_succ]
        have hb : b.toNat ≤ 1 := by cases b <;> simp
        omega)
      refine ⟨?_, i2, ?_, ?_⟩
      · rw [← i1, hnew]; simp
      · rw [i3, List.length_cons]; omega
      · rw [i4, List.length_cons]; omega

/-- How many bytes the loop pushes depends on the bit counts alone. -/
theorem packBits_length (bs : List Bool) (acc : Byte) (nb : Nat) (hnb : nb ≤ 7) :
    (packBits bs acc nb).1.length = (nb + bs.length) / 8 ∧ (packBits bs acc nb).2.2 ≤ 7 := by
  induction bs generalizing acc nb with
  | nil => simp [packBits]; omega
  | cons b bs ih =>
    simp only [packBits]
    split
    · have := ih 0 0 (by omega)
      simp only [List.length_cons]; omega
    · have := ih (2 * acc + BitVec.ofNat 8 b.toNat) (nb + 1) (by omega)
      simp only [List.length_cons]; omega

end Sys2Proof.Machine
end

