-- ==== Sys2Proof/Laws/Queue.lean ====
section
/-! SUPPORT. The priority queue: `less` is a strict total order, the two sifts restore heap order and only rearrange, and
the removal answers the least queued node (42_builder.md R121 to R124). -/

namespace Sys2Proof.Machine

/-! ### The order (R121) -/

theorem less_iff (nodes : List Node) (x y : Nat) :
    less nodes x y = true ↔ (weightAt nodes x).toNat < (weightAt nodes y).toNat ∨
      ((weightAt nodes x).toNat = (weightAt nodes y).toNat ∧ x < y) := by
  simp [less, BitVec.toNat_inj]

theorem not_less_iff (nodes : List Node) (x y : Nat) :
    less nodes x y = false ↔ ¬ ((weightAt nodes x).toNat < (weightAt nodes y).toNat ∨
      ((weightAt nodes x).toNat = (weightAt nodes y).toNat ∧ x < y)) := by
  rw [← less_iff]; simp

theorem less_irrefl (nodes : List Node) (x : Nat) : less nodes x x = false := by
  rw [not_less_iff]; omega

/-- Not-less is transitive: `less` is a strict weak order. -/
theorem not_less_trans {nodes : List Node} {x y z : Nat} (h1 : less nodes y x = false) (h2 : less nodes z y = false) :
    less nodes z x = false := by
  rw [not_less_iff] at *; omega

theorem not_less_of_less {nodes : List Node} {x y : Nat} (h : less nodes x y = true) : less nodes y x = false := by
  rw [not_less_iff]; rw [less_iff] at h; omega

/-- `less` is total on distinct indices (R134). -/
theorem less_total {nodes : List Node} {x y : Nat} (h : x ≠ y) : less nodes x y = true ∨ less nodes y x = true := by
  rw [less_iff, less_iff]; omega

theorem weightAt_append {nodes : List Node} {n : Nat} (h : n < nodes.length) (more : List Node) :
    weightAt (nodes ++ more) n = weightAt nodes n := by
  simp [weightAt, List.getElem?_append_left h]

theorem weightAt_new (nodes : List Node) (node : Node) : weightAt (nodes ++ [node]) nodes.length = node.weight := by
  simp [weightAt]

theorem less_append {nodes : List Node} {x y : Nat} (hx : x < nodes.length) (hy : y < nodes.length)
    (more : List Node) : less (nodes ++ more) x y = less nodes x y := by
  simp [less, weightAt_append hx, weightAt_append hy]

/-! ### Swapping -/

@[simp] theorem swapAt_length (h : List Nat) (i j : Nat) : (swapAt h i j).length = h.length := by simp [swapAt]

theorem heapAt_eq {h : List Nat} {i : Nat} (hi : i < h.length) : heapAt h i = h[i] := by
  simp [heapAt, List.getD_eq_getElem?_getD, hi]

theorem heapAt_swapAt {h : List Nat} {i j : Nat} (hi : i < h.length) (hj : j < h.length) (k : Nat) :
    heapAt (swapAt h i j) k = if k = j then heapAt h i else if k = i then heapAt h j else heapAt h k := by
  unfold swapAt
  by_cases hk : k < h.length
  · rw [heapAt_eq (by simpa using hk), List.getElem_set, List.getElem_set, heapAt_eq hk]
    simp only [eq_comm (a := j), eq_comm (a := i)]
  · have h1 : k ≠ i := by omega
    have h2 : k ≠ j := by omega
    simp [heapAt, List.getD_eq_getElem?_getD, h1, h2, hk]

theorem swapAt_perm {h : List Nat} {i j : Nat} (hi : i < h.length) (hj : j < h.length) : (swapAt h i j).Perm h := by
  unfold swapAt
  rw [heapAt_eq hi, heapAt_eq hj]
  exact List.set_set_perm hi hj

/-! ### Heap order -/

/-- Heap order but for what stands at position i against its parent (R48(d) while R123's loop runs). -/
def OrderedBut (nodes : List Node) (h : List Nat) (i : Nat) : Prop :=
  (∀ j, 0 < j → j < h.length → j ≠ i → less nodes (heapAt h j) (heapAt h ((j - 1) / 2)) = false) ∧
  (0 < i → ∀ j, 0 < j → j < h.length → (j - 1) / 2 = i →
    less nodes (heapAt h j) (heapAt h ((i - 1) / 2)) = false)

/-- Heap order (R48(d)). -/
def Ordered (nodes : List Node) (h : List Nat) : Prop :=
  ∀ j, 0 < j → j < h.length → less nodes (heapAt h j) (heapAt h ((j - 1) / 2)) = false

theorem siftUp_spec (nodes : List Node) (fuel : Nat) (h : List Nat) (i : Nat) (hi : i < h.length) (hf : i ≤ fuel)
    (hb : OrderedBut nodes h i) :
    (siftUp nodes fuel h i).Perm h ∧ Ordered nodes (siftUp nodes fuel h i) := by
  induction fuel generalizing h i with
  | zero =>
    have : i = 0 := by omega
    subst this
    exact ⟨.refl _, fun j h0 hj => hb.1 j h0 hj (by omega)⟩
  | succ fuel ih =>
    unfold siftUp
    split
    · rename_i h0
      exact ⟨.refl _, fun j hj0 hj => hb.1 j hj0 hj (by omega)⟩
    · rename_i h0
      have hp : (i - 1) / 2 < h.length := by omega
      split
      · rename_i hl
        have hnl := not_less_of_less hl
        obtain ⟨hperm, hord⟩ := ih (swapAt h i ((i - 1) / 2)) ((i - 1) / 2) (by simpa using hp) (by omega) (by
          constructor
          · intro j hj0 hj hjp
            simp only [swapAt_length] at hj
            rw [heapAt_swapAt hi hp, heapAt_swapAt hi hp, if_neg hjp]
            by_cases hji : j = i
            · subst hji
              simpa using hnl
            · rw [if_neg hji]
              by_cases h1 : (j - 1) / 2 = (i - 1) / 2
              · rw [if_pos h1]
                have := hb.1 j hj0 hj hji
                rw [h1] at this
                exact not_less_trans hnl this
              · rw [if_neg h1]
                by_cases h2 : (j - 1) / 2 = i
                · rw [if_pos h2]
                  exact hb.2 (by omega) j hj0 hj h2
                · rw [if_neg h2]
                  exact hb.1 j hj0 hj hji
          · intro hp0 j hj0 hj hjp
            simp only [swapAt_length] at hj
            have hpp := hb.1 ((i - 1) / 2) hp0 hp (by omega)
            rw [heapAt_swapAt hi hp, heapAt_swapAt hi hp, if_neg (by omega : j ≠ (i - 1) / 2),
              if_neg (by omega : ((i - 1) / 2 - 1) / 2 ≠ (i - 1) / 2), if_neg (by omega : ((i - 1) / 2 - 1) / 2 ≠ i)]
            by_cases hji : j = i
            · rw [if_pos hji]
              exact hpp
            · rw [if_neg hji]
              have := hb.1 j hj0 hj hji
              rw [hjp] at this
              exact not_less_trans hpp this)
        exact ⟨hperm.trans (swapAt_perm hi hp), hord⟩
      · rename_i hl
        refine ⟨.refl _, fun j hj0 hj => ?_⟩
        by_cases hji : j = i
        · subst hji
          simpa using hl
        · exact hb.1 j hj0 hj hji

theorem heapAt_append_left {h : List Nat} {i : Nat} (hi : i < h.length) (more : List Nat) :
    heapAt (h ++ more) i = heapAt h i := by
  simp [heapAt, List.getD_eq_getElem?_getD, List.getElem?_append_left hi]

/-- `heap_insert` adds the node and keeps heap order (R123). -/
theorem heapInsert_spec {nodes : List Node} {h : List Nat} (ho : Ordered nodes h) (n : Nat) :
    (heapInsert nodes h n).Perm (n :: h) ∧ Ordered nodes (heapInsert nodes h n) := by
  have := siftUp_spec nodes h.length (h ++ [n]) h.length (by simp) le_rfl (by
    constructor
    · intro j hj0 hj hji
      simp only [List.length_append, List.length_cons, List.length_nil] at hj
      rw [heapAt_append_left (by omega), heapAt_append_left (by omega)]
      exact ho j hj0 (by omega)
    · intro h0 j hj0 hj hp
      simp only [List.length_append, List.length_cons, List.length_nil] at hj
      omega)
  exact ⟨this.1.trans (List.perm_append_singleton n h), this.2⟩

/-- Heap order but for the children of position i (R48(d) while R124's loop runs). -/
def OrderedBelowBut (nodes : List Node) (h : List Nat) (i : Nat) : Prop :=
  (∀ j, 0 < j → j < h.length → (j - 1) / 2 ≠ i → less nodes (heapAt h j) (heapAt h ((j - 1) / 2)) = false) ∧
  (0 < i → ∀ j, 0 < j → j < h.length → (j - 1) / 2 = i →
    less nodes (heapAt h j) (heapAt h ((i - 1) / 2)) = false)

/-- The child chosen by R124: position i itself or a defined child, and no child is less than it. -/
theorem bestChild_spec (nodes : List Node) (h : List Nat) (i : Nat) :
    let j := betterChild nodes h (betterChild nodes h i (2 * i + 1)) (2 * i + 2)
    (j = i ∨ ((j = 2 * i + 1 ∨ j = 2 * i + 2) ∧ j < h.length ∧ less nodes (heapAt h j) (heapAt h i) = true)) ∧
    (∀ k, 0 < k → k < h.length → (k - 1) / 2 = i → less nodes (heapAt h k) (heapAt h j) = false) := by
  intro j
  have hkids : ∀ k, 0 < k → (k - 1) / 2 = i → k = 2 * i + 1 ∨ k = 2 * i + 2 := by omega
  by_cases hl : 2 * i + 1 < h.length ∧ less nodes (heapAt h (2 * i + 1)) (heapAt h i) = true
  · have e1 : betterChild nodes h i (2 * i + 1) = 2 * i + 1 := by simp [betterChild, hl]
    by_cases hr : 2 * i + 2 < h.length ∧ less nodes (heapAt h (2 * i + 2)) (heapAt h (2 * i + 1)) = true
    · have e2 : j = 2 * i + 2 := by simp only [j, e1]; simp [betterChild, hr]
      rw [e2]
      refine ⟨.inr ⟨.inr rfl, hr.1, ?_⟩, ?_⟩
      · have h1 := hl.2
        have h2 := hr.2
        rw [less_iff] at *
        omega
      · intro k hk0 hk hki
        rcases hkids k hk0 hki with rfl | rfl
        · exact not_less_of_less hr.2
        · exact less_irrefl _ _
    · have e2 : j = 2 * i + 1 := by
        simp only [j, e1]
        simp only [betterChild]
        rw [if_neg (by simpa using hr)]
      rw [e2]
      refine ⟨.inr ⟨.inl rfl, hl.1, hl.2⟩, ?_⟩
      intro k hk0 hk hki
      rcases hkids k hk0 hki with rfl | rfl
      · exact less_irrefl _ _
      · by_contra hc
        exact hr ⟨hk, by simpa using hc⟩
  · have e1 : betterChild nodes h i (2 * i + 1) = i := by
      simp only [betterChild]
      rw [if_neg (by simpa using hl)]
    by_cases hr : 2 * i + 2 < h.length ∧ less nodes (heapAt h (2 * i + 2)) (heapAt h i) = true
    · have e2 : j = 2 * i + 2 := by simp only [j, e1]; simp [betterChild, hr]
      rw [e2]
      refine ⟨.inr ⟨.inr rfl, hr.1, hr.2⟩, ?_⟩
      intro k hk0 hk hki
      rcases hkids k hk0 hki with rfl | rfl
      · have : less nodes (heapAt h (2 * i + 1)) (heapAt h i) = false := by
          by_contra hc
          exact hl ⟨hk, by simpa using hc⟩
        exact not_less_trans (not_less_of_less hr.2) this
      · exact less_irrefl _ _
    · have e2 : j = i := by
        simp only [j, e1]
        simp only [betterChild]
        rw [if_neg (by simpa using hr)]
      rw [e2]
      refine ⟨.inl rfl, ?_⟩
      intro k hk0 hk hki
      rcases hkids k hk0 hki with rfl | rfl
      · by_contra hc
        exact hl ⟨hk, by simpa using hc⟩
      · by_contra hc
        exact hr ⟨hk, by simpa using hc⟩

theorem siftDown_spec (nodes : List Node) (fuel : Nat) (h : List Nat) (i : Nat) (hf : h.length ≤ i + fuel)
    (hb : OrderedBelowBut nodes h i) :
    (siftDown nodes fuel h i).Perm h ∧ Ordered nodes (siftDown nodes fuel h i) := by
  induction fuel generalizing h i with
  | zero =>
    refine ⟨.refl _, fun j h0 hj => hb.1 j h0 hj ?_⟩
    have hj' : j < h.length := hj
    omega
  | succ fuel ih =>
    obtain ⟨hj, hbest⟩ := bestChild_spec nodes h i
    unfold siftDown
    revert hj hbest
    generalize betterChild nodes h (betterChild nodes h i (2 * i + 1)) (2 * i + 2) = j
    intro hj hbest
    simp only
    split
    · rename_i hji
      subst hji
      refine ⟨.refl _, fun k hk0 hk => ?_⟩
      by_cases hkp : (k - 1) / 2 = j
      · rw [hkp]; exact hbest k hk0 hk hkp
      · exact hb.1 k hk0 hk hkp
    · rename_i hji
      obtain ⟨hkid, hjl, hless⟩ := hj.resolve_left hji
      have hjp : (j - 1) / 2 = i := by omega
      have hil : i < h.length := by omega
      obtain ⟨hperm, hord⟩ := ih (swapAt h i j) j (by simp only [swapAt_length]; omega) (by
        constructor
        · intro k hk0 hk hkp
          simp only [swapAt_length] at hk
          rw [heapAt_swapAt hil hjl, heapAt_swapAt hil hjl, if_neg hkp]
          by_cases hkj : k = j
          · rw [if_pos hkj, hkj, hjp, if_pos rfl]
            exact not_less_of_less hless
          · rw [if_neg hkj]
            by_cases hki : k = i
            · subst hki
              rw [if_pos rfl, if_neg (by omega : (k - 1) / 2 ≠ k)]
              exact hb.2 hk0 j (by omega) hjl hjp
            · rw [if_neg hki]
              by_cases hkpi : (k - 1) / 2 = i
              · rw [if_pos hkpi]
                exact hbest k hk0 hk hkpi
              · rw [if_neg hkpi]
                exact hb.1 k hk0 hk hkpi
        · intro hj0 k hk0 hk hkp
          simp only [swapAt_length] at hk
          rw [heapAt_swapAt hil hjl, heapAt_swapAt hil hjl, if_neg (by omega : k ≠ j), if_neg (by omega : k ≠ i), hjp,
            if_neg (by omega : i ≠ j), if_pos rfl]
          have := hb.1 k hk0 hk (by omega)
          rwa [hkp] at this)
      exact ⟨hperm.trans (swapAt_perm hil hjl), hord⟩

/-- In heap order nothing is less than the root. -/
theorem root_least {nodes : List Node} {h : List Nat} (ho : Ordered nodes h) {i : Nat} (hi : i < h.length) :
    less nodes (heapAt h i) (heapAt h 0) = false := by
  induction i using Nat.strong_induction_on with
  | _ i ih =>
    by_cases h0 : i = 0
    · subst h0; exact less_irrefl _ _
    · exact not_less_trans (ih ((i - 1) / 2) (by omega) (by omega)) (ho i (by omega) hi)

/-- `heap_remove_min` on a non-empty ordered heap: it answers the least queued node and leaves the others in heap order
(R124, R134). -/
theorem heapRemoveMin_spec {nodes : List Node} {m : Nat} {rest : List Nat} (ho : Ordered nodes (m :: rest)) :
    ∃ h', heapRemoveMin nodes (m :: rest) = some (m, h') ∧ h'.Perm rest ∧ Ordered nodes h' ∧
      ∀ n ∈ rest, less nodes n m = false := by
  have hmin : ∀ n ∈ rest, less nodes n m = false := by
    intro n hn
    obtain ⟨i, hi, rfl⟩ := List.getElem_of_mem hn
    have := root_least ho (i := i + 1) (by simpa using hi)
    rwa [heapAt_eq (by simpa using hi), heapAt_eq (by simp)] at this
  cases rest using List.reverseRecOn with
  | nil => exact ⟨[], by simp [heapRemoveMin], .refl _, by simp [Ordered], by simp⟩
  | append_singleton init last =>
    have hlen : (init ++ [last]).length = (last :: init).length := by simp
    obtain ⟨hp, hor⟩ := siftDown_spec nodes (init ++ [last]).length (last :: init) 0 (by simp) (by
      constructor
      · intro j hj0 hj hjp
        have hj' : j < (init ++ [last]).length := by simpa using hj
        have := ho j hj0 (by simp only [List.length_cons]; omega)
        have h1 : ∀ k, 0 < k → k < (last :: init).length →
            heapAt (last :: init) k = heapAt (m :: (init ++ [last])) k := by
          intro k hk0 hk
          obtain ⟨k, rfl⟩ : ∃ k', k = k' + 1 := ⟨k - 1, by omega⟩
          simp only [List.length_cons, Nat.add_lt_add_iff_right] at hk
          simp [heapAt, List.getElem?_append_left hk]
        rw [h1 j hj0 hj, h1 ((j - 1) / 2) (by omega) (by omega)]
        exact this
      · intro h0; omega)
    refine ⟨_, ?_, hp.trans (List.perm_append_singleton last init).symm, hor, hmin⟩
    simp [heapRemoveMin]

theorem Ordered.append {nodes : List Node} {h : List Nat} (ho : Ordered nodes h) (hd : ∀ n ∈ h, n < nodes.length)
    (more : List Node) : Ordered (nodes ++ more) h := by
  intro j hj0 hj
  rw [less_append (hd _ (by rw [heapAt_eq hj]; exact List.getElem_mem _))
    (hd _ (by rw [heapAt_eq (by omega : (j - 1) / 2 < h.length)]; exact List.getElem_mem _))]
  exact ho j hj0 hj

/-! ### What holds of any heap array, ordered or not -/

theorem siftUp_perm (nodes : List Node) (fuel : Nat) (h : List Nat) (i : Nat) (hi : i < h.length) :
    (siftUp nodes fuel h i).Perm h := by
  induction fuel generalizing h i with
  | zero => exact List.Perm.refl _
  | succ fuel ih =>
    simp only [siftUp]
    split
    · exact List.Perm.refl _
    · split
      · have hi2 : (i - 1) / 2 < h.length := by omega
        exact (ih _ _ (by simpa using hi2)).trans (swapAt_perm hi hi2)
      · exact List.Perm.refl _

theorem heapInsert_perm (nodes : List Node) (h : List Nat) (n : Nat) : (heapInsert nodes h n).Perm (n :: h) :=
  (siftUp_perm nodes _ _ _ (by simp)).trans (List.perm_append_singleton _ _)

/-- Moving up looks at the weights of the queued nodes only. -/
theorem siftUp_congr {nodes other : List Node} (fuel : Nat) (h : List Nat) (i : Nat)
    (hw : ∀ n ∈ h, weightAt nodes n = weightAt other n) (hi : i < h.length) :
    siftUp nodes fuel h i = siftUp other fuel h i := by
  induction fuel generalizing h i with
  | zero => rfl
  | succ fuel ih =>
    simp only [siftUp]
    split
    · rfl
    · have hi2 : (i - 1) / 2 < h.length := by omega
      have e : less nodes (heapAt h i) (heapAt h ((i - 1) / 2)) = less other (heapAt h i) (heapAt h ((i - 1) / 2)) := by
        unfold less
        rw [hw _ (by rw [heapAt_eq hi]; exact List.getElem_mem _), hw _ (by rw [heapAt_eq hi2]; exact List.getElem_mem _)]
      rw [e]
      split
      · exact ih _ _ (fun n hn => hw n ((swapAt_perm hi hi2).mem_iff.1 hn)) (by simpa using hi2)
      · rfl

theorem siftDown_length (nodes : List Node) (fuel : Nat) (h : List Nat) (i : Nat) :
    (siftDown nodes fuel h i).length = h.length := by
  induction fuel generalizing h i with
  | zero => rfl
  | succ fuel ih => simp only [siftDown]; split <;> simp [ih]

/-- A non-empty heap gives up one element. -/
theorem heapRemoveMin_length (nodes : List Node) (h : List Nat) (hl : 1 ≤ h.length) :
    ∃ m h', heapRemoveMin nodes h = some (m, h') ∧ h'.length + 1 = h.length := by
  match h, hl with
  | m :: rest, _ =>
    simp only [heapRemoveMin]
    cases hr : rest.getLast? with
    | none => exact ⟨m, [], rfl, by rw [List.getLast?_eq_none_iff] at hr; simp [hr]⟩
    | some last =>
      refine ⟨m, _, rfl, ?_⟩
      rw [siftDown_length]
      cases rest with
      | nil => simp at hr
      | cons a l => simp

/-- One merge in words (R125), whatever the order of the heap. -/
theorem merge_eq (nodes : List Node) (h : List Nat) (hl : 2 ≤ h.length) :
    ∃ a h1 b h2, heapRemoveMin nodes h = some (a, h1) ∧ heapRemoveMin nodes h1 = some (b, h2) ∧
      h2.length + 2 = h.length ∧
      merge (nodes, h) =
        (nodes ++ [.internal (weightAt nodes a + weightAt nodes b) a b],
          heapInsert (nodes ++ [.internal (weightAt nodes a + weightAt nodes b) a b]) h2 nodes.length) := by
  obtain ⟨a, h1, e1, l1⟩ := heapRemoveMin_length nodes h (by omega)
  obtain ⟨b, h2, e2, l2⟩ := heapRemoveMin_length nodes h1 (by omega)
  exact ⟨a, h1, b, h2, e1, e2, by omega, by simp only [merge, e1, e2, Forest.add]⟩

end Sys2Proof.Machine
end

