-- ==== Sys2Proof/Laws/Forest.lean ====
section
/-! SUPPORT. The node store with its heap: what adding a node, one merge, the merge loop and the seeding do, and that each
keeps `ForestOk` (42_builder.md R122, R125, R126, R129). -/

namespace Sys2Proof.Machine

theorem ForestOk.ordered {nodes : List Node} {heap : List Nat} (h : ForestOk nodes heap) : Ordered nodes heap :=
  h.heapOrder

theorem ForestOk.queued_defined {nodes : List Node} {heap : List Nat} (h : ForestOk nodes heap) :
    ∀ n ∈ heap, n < nodes.length := by
  intro n hn
  have := (h.onceEach.mem_iff (a := n)).1 (by simp [hn])
  simpa using this

theorem forestOk_nil : ForestOk [] [] where
  internalOk := by simp
  onceEach := by simp [childFields]
  heapOrder := by simp
  leafOk := by simp
  totalFits := by simp [queuedTotal]

theorem childFields_append (nodes more : List Node) :
    childFields (nodes ++ more) = childFields nodes ++ childFields more := by simp [childFields]

@[simp] theorem childFields_singleton (node : Node) : childFields [node] = node.children := by simp [childFields]

theorem queuedTotal_append {nodes : List Node} {heap : List Nat} (h : ∀ n ∈ heap, n < nodes.length)
    (more : List Node) : queuedTotal (nodes ++ more) heap = queuedTotal nodes heap := by
  unfold queuedTotal
  congr 1
  apply List.map_congr_left
  intro n hn
  rw [weightAt_append (h n hn)]

theorem queuedTotal_perm {nodes : List Node} {h1 h2 : List Nat} (hp : h1.Perm h2) :
    queuedTotal nodes h1 = queuedTotal nodes h2 := (hp.map _).sum_eq

@[simp] theorem queuedTotal_cons (nodes : List Node) (n : Nat) (rest : List Nat) :
    queuedTotal nodes (n :: rest) = (weightAt nodes n).toNat + queuedTotal nodes rest := by simp [queuedTotal]

/-- Adding a node whose children, if any, have just left the heap. -/
theorem Forest.add_spec {nodes : List Node} {heap : List Nat} {node : Node} (ho : Ordered nodes heap)
    (hd : ∀ n ∈ heap, n < nodes.length)
    (hi : ∀ (n : Nat) (w : Word) (l r : Nat), nodes[n]? = some (Node.internal w l r) →
      l < n ∧ r < n ∧ l ≠ r ∧ w.toNat = (weightAt nodes l).toNat + (weightAt nodes r).toNat)
    (hl : ∀ (n : Nat) (w : Word) (sym : Nat), nodes[n]? = some (Node.leaf w sym) → 1 ≤ w.toNat)
    (hperm : (heap ++ (childFields nodes ++ node.children)).Perm (List.range nodes.length))
    (hnew : ∀ (w : Word) (l r : Nat), node = Node.internal w l r →
      l ≠ r ∧ w.toNat = (weightAt nodes l).toNat + (weightAt nodes r).toNat)
    (hleaf : ∀ (w : Word) (sym : Nat), node = Node.leaf w sym → 1 ≤ w.toNat)
    (htot : node.weight.toNat + queuedTotal nodes heap ≤ wmax) :
    (Forest.add (nodes, heap) node).1 = nodes ++ [node] ∧
    (Forest.add (nodes, heap) node).2.Perm (nodes.length :: heap) ∧
    ForestOk (nodes ++ [node]) (Forest.add (nodes, heap) node).2 := by
  obtain ⟨hp, hor⟩ := heapInsert_spec (ho.append hd [node]) nodes.length
  refine ⟨rfl, hp, ?_⟩
  have hchild : ∀ c ∈ node.children, c < nodes.length := by
    intro c hc
    have := (hperm.mem_iff (a := c)).1 (by simp [hc])
    simpa using this
  refine ⟨?_, ?_, hor, ?_, ?_⟩
  · intro n w l r hn
    rcases lt_trichotomy n nodes.length with hlt | heq | hgt
    · rw [List.getElem?_append_left hlt] at hn
      obtain ⟨h1, h2, h3, h4⟩ := hi n w l r hn
      exact ⟨h1, h2, h3, by rw [weightAt_append (by omega), weightAt_append (by omega), h4]⟩
    · subst heq
      simp only [List.getElem?_concat_length, Option.some.injEq] at hn
      obtain ⟨h3, h4⟩ := hnew w l r hn
      have h1 := hchild l (by simp [hn, Node.children])
      have h2 := hchild r (by simp [hn, Node.children])
      exact ⟨h1, h2, h3, by rw [weightAt_append h1, weightAt_append h2, h4]⟩
    · rw [List.getElem?_eq_none (by simp; omega)] at hn
      cases hn
  · rw [childFields_append, childFields_singleton]
    have e : List.range (nodes ++ [node]).length = List.range nodes.length ++ [nodes.length] := by
      simp [List.range_succ]
    rw [e]
    calc heapInsert (nodes ++ [node]) heap nodes.length ++ (childFields nodes ++ node.children)
        |>.Perm ((nodes.length :: heap) ++ (childFields nodes ++ node.children)) := hp.append_right _
      _ |>.Perm (nodes.length :: List.range nodes.length) := by simpa using hperm.cons nodes.length
      _ |>.Perm (List.range nodes.length ++ [nodes.length]) := (List.perm_append_singleton _ _).symm
  · intro n w sym hn
    rcases lt_trichotomy n nodes.length with hlt | heq | hgt
    · rw [List.getElem?_append_left hlt] at hn
      exact hl n w sym hn
    · subst heq
      simp only [List.getElem?_concat_length, Option.some.injEq] at hn
      exact hleaf w sym hn
    · rw [List.getElem?_eq_none (by simp; omega)] at hn
      cases hn
  · show queuedTotal (nodes ++ [node]) (heapInsert (nodes ++ [node]) heap nodes.length) ≤ wmax
    rw [queuedTotal_perm hp, queuedTotal_cons, weightAt_new, queuedTotal_append hd]
    exact htot

/-- One merge on two or more queued nodes (R125): the two least leave the heap and become the children of the new node
at index NNODES, whose weight is their exact sum. -/
theorem merge_spec {nodes : List Node} {heap : List Nat} (h : ForestOk nodes heap) (h2 : 2 ≤ heap.length) :
    ∃ a b rest h', merge (nodes, heap) =
        (nodes ++ [.internal (weightAt nodes a + weightAt nodes b) a b], h') ∧
      heap.Perm (a :: b :: rest) ∧ h'.Perm (nodes.length :: rest) ∧
      (∀ n ∈ b :: rest, less nodes n a = false) ∧ (∀ n ∈ rest, less nodes n b = false) ∧
      (weightAt nodes a + weightAt nodes b).toNat = (weightAt nodes a).toNat + (weightAt nodes b).toNat ∧
      ForestOk (nodes ++ [.internal (weightAt nodes a + weightAt nodes b) a b]) h' := by
  obtain ⟨a, tail, rfl⟩ : ∃ a tail, heap = a :: tail := by
    cases heap with
    | nil => simp at h2
    | cons a tail => exact ⟨a, tail, rfl⟩
  obtain ⟨h1, e1, p1, o1, m1⟩ := heapRemoveMin_spec h.ordered
  have hl1 : 1 ≤ h1.length := by rw [p1.length_eq]; simpa using h2
  obtain ⟨b, tail1, rfl⟩ : ∃ b tail1, h1 = b :: tail1 := by
    cases h1 with
    | nil => simp at hl1
    | cons b tail1 => exact ⟨b, tail1, rfl⟩
  obtain ⟨h2', e2, p2, o2, m2⟩ := heapRemoveMin_spec o1
  have hperm : (a :: tail).Perm (a :: b :: h2') := (p1.symm.cons a |>.trans ((p2.symm.cons b).cons a))
  have hdef := h.queued_defined
  have ha : a < nodes.length := hdef a (by simp)
  have hb : b < nodes.length := hdef b (hperm.mem_iff.2 (by simp))
  have hd2 : ∀ n ∈ h2', n < nodes.length := fun n hn => hdef n (hperm.mem_iff.2 (by simp [hn]))
  have hnd : (a :: b :: h2' ++ childFields nodes).Nodup := by
    have := (hperm.append_right (childFields nodes)).symm.trans h.onceEach
    exact this.nodup_iff.2 List.nodup_range
  have hab : a ≠ b := by
    intro hab
    subst hab
    simp at hnd
  have htot : (weightAt nodes a).toNat + ((weightAt nodes b).toNat + queuedTotal nodes h2') ≤ wmax := by
    have := h.totalFits
    rw [queuedTotal_perm hperm] at this
    simpa using this
  have hsum : (weightAt nodes a + weightAt nodes b).toNat =
      (weightAt nodes a).toNat + (weightAt nodes b).toNat := by
    rw [BitVec.toNat_add]
    apply Nat.mod_eq_of_lt
    unfold wmax at htot
    omega
  obtain ⟨_, hp, hok⟩ := Forest.add_spec (node := .internal (weightAt nodes a + weightAt nodes b) a b) o2 hd2
    h.internalOk h.leafOk (by
      have : ((a :: b :: h2') ++ childFields nodes).Perm (List.range nodes.length) :=
        (hperm.append_right (childFields nodes)).symm.trans h.onceEach
      refine List.Perm.trans ?_ this
      show (h2' ++ (childFields nodes ++ [a, b])).Perm ([a, b] ++ (h2' ++ childFields nodes))
      rw [← List.append_assoc]
      exact List.perm_append_comm)
    (by
      intro w l r he
      injection he with hw hl hr
      subst hl hr hw
      exact ⟨hab, hsum⟩)
    (by intro w sym he; cases he)
    (by
      show (weightAt nodes a + weightAt nodes b).toNat + queuedTotal nodes h2' ≤ wmax
      omega)
  refine ⟨a, b, h2', _, ?_, hperm, hp, ?_, fun n hn => m2 n (p2.mem_iff.1 hn), hsum, hok⟩
  · simp only [merge, e1, e2]
    rfl
  · intro n hn
    exact m1 n ((p1.mem_iff).1 ((p2.cons b).mem_iff.1 hn))

theorem merge_lengths {nodes : List Node} {heap : List Nat} (h : ForestOk nodes heap) (h2 : 2 ≤ heap.length) :
    (merge (nodes, heap)).1.length = nodes.length + 1 ∧ (merge (nodes, heap)).2.length + 1 = heap.length := by
  obtain ⟨a, b, rest, h', e, p, p', -⟩ := merge_spec h h2
  rw [e]
  have h3 := p.length_eq
  have h4 := p'.length_eq
  simp only [List.length_append, List.length_cons, List.length_nil] at h3 h4 ⊢
  exact ⟨True.intro, by omega⟩

theorem leafSyms_internal (nodes : List Node) (w : Word) (l r : Nat) :
    leafSyms (nodes ++ [.internal w l r]) = leafSyms nodes := by
  simp [leafSyms, Node.leafSym?]

/-- What the merge loop leaves (R129): at most one queued node, every leaf as it was, and as many new nodes as the heap
has become shorter, which is the count it answers. -/
theorem mergeAll_spec (fuel : Nat) {nodes : List Node} {heap : List Nat} (h : ForestOk nodes heap)
    (hf : heap.length ≤ fuel + 1) :
    ForestOk (mergeAll fuel (nodes, heap)).1.1 (mergeAll fuel (nodes, heap)).1.2 ∧
    (mergeAll fuel (nodes, heap)).1.2.length = min 1 heap.length ∧
    (mergeAll fuel (nodes, heap)).2 = heap.length - 1 ∧
    (∃ more, (mergeAll fuel (nodes, heap)).1.1 = nodes ++ more ∧ more.length = heap.length - 1 ∧
      ∀ node ∈ more, ∃ w l r, node = Node.internal w l r) ∧
    queuedTotal (mergeAll fuel (nodes, heap)).1.1 (mergeAll fuel (nodes, heap)).1.2 = queuedTotal nodes heap := by
  induction fuel generalizing nodes heap with
  | zero =>
    unfold mergeAll
    exact ⟨h, by simp only; omega, by simp only; omega, ⟨[], by simp, by simp; omega, by simp⟩, rfl⟩
  | succ fuel ih =>
    unfold mergeAll
    by_cases hlt : heap.length < 2
    · simp only [hlt, if_true]
      exact ⟨h, by omega, by omega, ⟨[], by simp, by simp; omega, by simp⟩, True.intro⟩
    · simp only [hlt, if_false]
      obtain ⟨a, b, rest, h', e, p, p', -, -, hsum, hok⟩ := merge_spec h (by omega)
      have hlen := p.length_eq
      have hlen' := p'.length_eq
      simp only [List.length_cons] at hlen hlen'
      rw [e]
      obtain ⟨i1, i2, i3, ⟨more, i4, i5, i6⟩, i7⟩ := ih hok (by omega)
      refine ⟨i1, by omega, by omega, ⟨.internal (weightAt nodes a + weightAt nodes b) a b :: more, ?_, ?_, ?_⟩, ?_⟩
      · rw [i4]; simp
      · simp only [List.length_cons, i5]; omega
      · intro node hn
        rcases List.mem_cons.1 hn with rfl | hn
        · exact ⟨_, _, _, rfl⟩
        · exact i6 node hn
      · rw [i7, queuedTotal_perm p', queuedTotal_perm p, queuedTotal_cons, weightAt_new, queuedTotal_cons,
          queuedTotal_cons, queuedTotal_append]
        · simp only [Node.weight, hsum]; omega
        · intro n hn
          exact h.queued_defined n (p.mem_iff.2 (by simp [hn]))

/-! ### Counting nodes -/

/-- Every node is a leaf or an internal node, and each internal node has two child fields. -/
theorem nodes_count (nodes : List Node) :
    2 * nodes.length = 2 * leafCount nodes + (childFields nodes).length := by
  induction nodes with
  | nil => simp [leafCount, leafSyms, childFields]
  | cons node rest ih =>
    have hc : childFields (node :: rest) = node.children ++ childFields rest := by simp [childFields]
    have hl : leafSyms (node :: rest) = node.leafSym?.toList ++ leafSyms rest := by
      cases node <;> rfl
    unfold leafCount at ih ⊢
    rw [hc, hl]
    cases node <;> simp [Node.leafSym?, Node.children] <;> omega

/-- R133: with k leaves, NNODES + HSIZE = 2k. -/
theorem ForestOk.count {nodes : List Node} {heap : List Nat} (h : ForestOk nodes heap) :
    nodes.length + heap.length = 2 * leafCount nodes := by
  have h1 := h.onceEach.length_eq
  have h2 := nodes_count nodes
  simp only [List.length_append, List.length_range] at h1
  omega

/-- The newest node is nobody's child, so it is queued. -/
theorem ForestOk.last_queued {nodes : List Node} {heap : List Nat} (h : ForestOk nodes heap) (hn : nodes ≠ []) :
    nodes.length - 1 ∈ heap := by
  have hpos : 0 < nodes.length := List.length_pos_iff.2 hn
  have := (h.onceEach.mem_iff (a := nodes.length - 1)).2 (by simp; omega)
  rcases List.mem_append.1 this with hm | hm
  · exact hm
  · exfalso
    obtain ⟨node, hnode, hc⟩ := List.mem_flatMap.1 hm
    obtain ⟨i, hi, rfl⟩ := List.getElem_of_mem hnode
    cases hk : nodes[i] with
    | leaf w sym => simp [hk, Node.children] at hc
    | internal w l r =>
      obtain ⟨h1, h2, -⟩ := h.internalOk i w l r (by rw [List.getElem?_eq_getElem hi, hk])
      simp only [hk, Node.children, List.mem_cons, List.not_mem_nil, or_false] at hc
      omega

/-! ### Seeding (R126) -/

/-- The leaves R126 allocates for some symbols, in order. -/
def seedNodes (s : State) (syms : List Nat) : List Node :=
  (syms.filter (fun sym => s.freqOf sym != 0)).map (fun sym => Node.leaf (s.freqOf sym) sym)

theorem childFields_seedNodes (s : State) (syms : List Nat) : childFields (seedNodes s syms) = [] := by
  simp [childFields, seedNodes, Node.children, List.flatMap_map]

theorem leafSyms_seedNodes (s : State) (syms : List Nat) :
    leafSyms (seedNodes s syms) = syms.filter (fun sym => s.freqOf sym != 0) := by
  simp [leafSyms, seedNodes, List.filterMap_map, Function.comp_def, Node.leafSym?]

theorem seedLeaves_spec (s : State) (syms : List Nat) {nodes : List Node} {heap : List Nat} (h : ForestOk nodes heap)
    (hc : childFields nodes = [])
    (htot : queuedTotal nodes heap + (syms.map (fun sym => (s.freqOf sym).toNat)).sum ≤ wmax) :
    (seedLeaves s syms (nodes, heap)).1 = nodes ++ seedNodes s syms ∧
    ForestOk (seedLeaves s syms (nodes, heap)).1 (seedLeaves s syms (nodes, heap)).2 := by
  induction syms generalizing nodes heap with
  | nil => simp [seedLeaves, seedNodes, h]
  | cons sym rest ih =>
    simp only [List.map_cons, List.sum_cons] at htot
    unfold seedLeaves
    by_cases h0 : s.freqOf sym = 0
    · simp only [h0, if_true]
      have := ih h hc (by omega)
      simpa [seedNodes, h0] using this
    · simp only [h0, if_false]
      have hpos : 1 ≤ (s.freqOf sym).toNat := by
        have : (s.freqOf sym).toNat ≠ 0 := fun he => h0 (BitVec.eq_of_toNat_eq (by simpa using he))
        omega
      obtain ⟨e1, hp, hok⟩ := Forest.add_spec (node := .leaf (s.freqOf sym) sym) h.ordered h.queued_defined h.internalOk
        h.leafOk (by simpa [Node.children] using h.onceEach) (by intro w l r he; cases he)
        (by intro w t he; injection he with hw; subst hw; exact hpos)
        (by simp only [Node.weight]; omega)
      have hq : queuedTotal (nodes ++ [.leaf (s.freqOf sym) sym]) (Forest.add (nodes, heap) (.leaf (s.freqOf sym) sym)).2
          = (s.freqOf sym).toNat + queuedTotal nodes heap := by
        rw [queuedTotal_perm hp, queuedTotal_cons, weightAt_new, queuedTotal_append h.queued_defined]
        rfl
      have := ih hok (by rw [childFields_append, hc]; rfl) (by omega)
      have e : Forest.add (nodes, heap) (.leaf (s.freqOf sym) sym) =
          (nodes ++ [.leaf (s.freqOf sym) sym], (Forest.add (nodes, heap) (.leaf (s.freqOf sym) sym)).2) := rfl
      rw [e]
      refine ⟨?_, this.2⟩
      rw [this.1]
      have hb : (s.freqOf sym != 0) = true := by simpa using h0
      simp only [seedNodes, List.filter_cons, hb, if_true, List.map_cons, List.append_assoc, List.singleton_append]

/-- The node store and the heap fit their arrays (R48(a)) when each symbol has at most one leaf. -/
theorem ForestOk.capacity {nodes : List Node} {heap : List Nat} {nsym : Nat} (h : ForestOk nodes heap)
    (hn : (leafSyms nodes).Nodup) (hm : ∀ sym ∈ leafSyms nodes, sym < nsym) :
    nodes.length ≤ 2 * nsym - 1 ∧ heap.length ≤ nsym := by
  have hc := h.count
  have hl : (leafSyms nodes).length ≤ nsym := by
    have := hn.length_le_of_subset (l₂ := List.range nsym) (by intro x hx; simpa using hm x hx)
    simpa using this
  have hle : heap.length ≤ nodes.length := by
    have := h.onceEach.length_eq
    simp only [List.length_append, List.length_range] at this; omega
  unfold leafCount at hc
  by_cases hz : nodes = []
  · subst hz; simp at hle hc ⊢; simp [hle]
  · have := List.length_pos_of_mem (h.last_queued hz)
    omega

end Sys2Proof.Machine
end

