-- ==== Sys2Proof/Laws/Table.lean ====
section
/-! SUPPORT. The arrays: a read after a write, and every write keeps the canonical form. -/

namespace Sys2Proof.Machine

variable {α : Type}

theorem Table.get_drop_same (d : α) (t : Table α) (k : Nat) : Table.get d (Table.drop t k) k = d := by
  induction t with
  | nil => rfl
  | cons e rest ih =>
    obtain ⟨j, v⟩ := e
    by_cases h : j = k
    · simpa [Table.drop, h] using ih
    · simpa [Table.drop, Table.get, h] using ih

theorem Table.get_drop_other (d : α) (t : Table α) {k n : Nat} (h : n ≠ k) :
    Table.get d (Table.drop t k) n = Table.get d t n := by
  induction t with
  | nil => rfl
  | cons e rest ih =>
    obtain ⟨j, v⟩ := e
    by_cases hj : j = k
    · simpa [Table.drop, Table.get, hj, h.symm] using ih
    · by_cases hn : j = n
      · simp [Table.drop, Table.get, hn, h]
      · simpa [Table.drop, Table.get, hj, hn] using ih

theorem Table.get_place (d : α) (k : Nat) (v : α) (t : Table α) (n : Nat) (hk : ∀ e ∈ t, e.1 ≠ k) :
    Table.get d (Table.place k v t) n = if n = k then v else Table.get d t n := by
  induction t with
  | nil =>
    by_cases h : n = k
    · simp [Table.place, Table.get, h]
    · simp [Table.place, Table.get, h, Ne.symm h]
  | cons e rest ih =>
    obtain ⟨j, u⟩ := e
    have hj : j ≠ k := hk (j, u) (by simp)
    have hr := ih (fun e he => hk e (by simp [he]))
    by_cases hlt : k < j
    · by_cases h : n = k
      · simp [Table.place, Table.get, hlt, h]
      · simp [Table.place, Table.get, hlt, h, Ne.symm h]
    · by_cases h : n = k
      · subst h
        simpa [Table.place, Table.get, hlt, hj] using hr
      · by_cases hn : j = n
        · subst hn
          simp [Table.place, Table.get, hlt, h]
        · simpa [Table.place, Table.get, hlt, h, hn] using hr

theorem Table.drop_ne (t : Table α) (k : Nat) : ∀ e ∈ Table.drop t k, e.1 ≠ k := by
  simp [Table.drop]

/-- A read after a write: the value written at its index, and what was there before everywhere else. -/
theorem Table.get_set [DecidableEq α] (d : α) (t : Table α) (k : Nat) (v : α) (n : Nat) :
    Table.get d (Table.set d t k v) n = if n = k then v else Table.get d t n := by
  unfold Table.set
  split
  · rename_i hv
    by_cases h : n = k
    · simp [h, Table.get_drop_same, hv]
    · simp [h, Table.get_drop_other]
  · rw [Table.get_place _ _ _ _ _ (Table.drop_ne t k)]
    by_cases h : n = k
    · simp [h]
    · simp [h, Table.get_drop_other]

/-- Rising indices as a pairwise statement. -/
theorem Table.risesFrom_iff (t : Table α) (lo : Nat) :
    Table.risesFrom t lo = true ↔ (∀ e ∈ t, lo < e.1) ∧ t.Pairwise (fun a b => a.1 < b.1) := by
  induction t generalizing lo with
  | nil => simp [Table.risesFrom]
  | cons e rest ih =>
    obtain ⟨j, v⟩ := e
    simp only [Table.risesFrom, Bool.and_eq_true, decide_eq_true_eq, ih, List.mem_cons, forall_eq_or_imp,
      List.pairwise_cons]
    constructor
    · rintro ⟨h1, h2, h3⟩
      exact ⟨⟨h1, fun e he => lt_trans h1 (h2 e he)⟩, h2, h3⟩
    · rintro ⟨⟨h1, -⟩, h2, h3⟩
      exact ⟨h1, h2, h3⟩

theorem Table.rises_iff (t : Table α) : Table.rises t = true ↔ t.Pairwise (fun a b => a.1 < b.1) := by
  cases t with
  | nil => simp [Table.rises]
  | cons e rest =>
    obtain ⟨j, v⟩ := e
    simp [Table.rises, Table.risesFrom_iff]

/-- The canonical form in words: rising indices below `size`, no entry equal to the reset value. -/
theorem Table.wf_iff [DecidableEq α] (d : α) (size : Nat) (t : Table α) :
    Table.wf d size t = true ↔ t.Pairwise (fun a b => a.1 < b.1) ∧ ∀ e ∈ t, e.1 < size ∧ e.2 ≠ d := by
  simp [Table.wf, Table.rises_iff]

theorem Table.mem_place (k : Nat) (v : α) (t : Table α) (e : Nat × α) :
    e ∈ Table.place k v t ↔ e = (k, v) ∨ e ∈ t := by
  induction t with
  | nil => simp [Table.place]
  | cons a rest ih =>
    obtain ⟨j, u⟩ := a
    by_cases h : k < j
    · simp [Table.place, h]
    · simp [Table.place, h, ih]
      tauto

theorem Table.pairwise_place (k : Nat) (v : α) (t : Table α) (hk : ∀ e ∈ t, e.1 ≠ k)
    (hp : t.Pairwise (fun a b => a.1 < b.1)) : (Table.place k v t).Pairwise (fun a b => a.1 < b.1) := by
  induction t with
  | nil => simp [Table.place]
  | cons a rest ih =>
    obtain ⟨j, u⟩ := a
    have hj : j ≠ k := hk (j, u) (by simp)
    obtain ⟨h1, h2⟩ := List.pairwise_cons.1 hp
    by_cases h : k < j
    · simp only [Table.place, h, if_true]
      exact List.pairwise_cons.2 ⟨by
        intro e he
        rcases List.mem_cons.1 he with rfl | he
        · exact h
        · exact lt_trans h (h1 e he), hp⟩
    · simp only [Table.place, h, if_false]
      refine List.pairwise_cons.2 ⟨?_, ih (fun e he => hk e (by simp [he])) h2⟩
      intro e he
      rcases (Table.mem_place k v rest e).1 he with rfl | he
      · show j < k
        omega
      · exact h1 e he

/-- Every write below the array's size keeps the canonical form. -/
theorem Table.wf_set [DecidableEq α] (d : α) {size : Nat} {t : Table α} (h : Table.wf d size t = true) {k : Nat}
    (hk : k < size) (v : α) : Table.wf d size (Table.set d t k v) = true := by
  rw [Table.wf_iff] at h ⊢
  obtain ⟨hp, he⟩ := h
  have hp' : (Table.drop t k).Pairwise (fun a b => a.1 < b.1) := hp.filter _
  have he' : ∀ e ∈ Table.drop t k, e.1 < size ∧ e.2 ≠ d := fun e hm => he e (List.mem_filter.1 hm).1
  unfold Table.set
  split
  · exact ⟨hp', he'⟩
  · rename_i hv
    refine ⟨Table.pairwise_place k v _ (Table.drop_ne t k) hp', ?_⟩
    intro e hm
    rcases (Table.mem_place k v _ e).1 hm with rfl | hm
    · exact ⟨hk, hv⟩
    · exact he' e hm

theorem Table.wf_nil [DecidableEq α] (d : α) (size : Nat) : Table.wf d size [] = true := by
  simp [Table.wf, Table.rises]

/-- Reading an index at or above the size of a canonical array gives the reset value. -/
theorem Table.get_beyond [DecidableEq α] (d : α) {size : Nat} {t : Table α} (h : Table.wf d size t = true) {k : Nat}
    (hk : size ≤ k) : Table.get d t k = d := by
  have he := ((Table.wf_iff d size t).1 h).2
  clear h
  induction t with
  | nil => rfl
  | cons e rest ih =>
    obtain ⟨j, v⟩ := e
    have hj : j < size := (he (j, v) (by simp)).1
    have : j ≠ k := by omega
    simpa [Table.get, this] using ih (fun e hm => he e (by simp [hm]))

/-! ### The three arrays -/

theorem State.freqOf_setFreq (s : State) (k : Nat) (v : Word) (n : Nat) :
    (s.setFreq k v).freqOf n = if n = k then v else s.freqOf n := Table.get_set 0 s.freq k v n

theorem State.codeOf_setCode (s : State) (k : Nat) (e : CodeEntry) (n : Nat) :
    (s.setCode k e).codeOf n = if n = k then e else s.codeOf n := Table.get_set _ s.codes k e n

theorem State.cbufOf_setCbuf (s : State) (k : Nat) (v : Word) (n : Nat) :
    (s.setCbuf k v).cbufOf n = if n = k then v else s.cbufOf n := Table.get_set 0 s.cbuf k v n

end Sys2Proof.Machine
end

