-- ==== Sys2Proof/Laws/Codes.lean ====
section
/-! SUPPORT. The tree below a node as a shape, the codes of a shape, and the code table made of them (43_extractor.md R151,
R152). -/

namespace Sys2Proof.Machine

/-- A strict binary tree with a weighted symbol at each leaf. -/
inductive Shape where
  | leaf (w sym : Nat)
  | node (l r : Shape)

/-- The leaves, left to right, as (symbol, weight). -/
def Shape.leaves : Shape → List (Nat × Nat)
  | .leaf w sym => [(sym, w)]
  | .node l r => l.leaves ++ r.leaves

/-- The total weight of the leaves. -/
def Shape.weight : Shape → Nat
  | .leaf w _ => w
  | .node l r => l.weight + r.weight

/-- The total weight of the internal nodes. -/
def Shape.innerTotal : Shape → Nat
  | .leaf _ _ => 0
  | .node l r => (l.weight + r.weight) + (l.innerTotal + r.innerTotal)

/-- The paths to the leaves from a start path (v, d) (R151). -/
def Shape.codes : Shape → Nat → Nat → List (Nat × CodeEntry)
  | .leaf _ sym, v, d => [(sym, { len := d, val := v })]
  | .node l r, v, d => l.codes (2 * v) (d + 1) ++ r.codes (2 * v + 1) (d + 1)

/-! ### Codes of a shape -/

theorem Shape.codes_syms (t : Shape) (v d : Nat) : (t.codes v d).map Prod.fst = t.leaves.map Prod.fst := by
  induction t generalizing v d with
  | leaf w sym => rfl
  | node l r ihl ihr => simp [Shape.codes, Shape.leaves, ihl, ihr]

theorem Shape.codes_length (t : Shape) (v d : Nat) : (t.codes v d).length = t.leaves.length := by
  simpa using congrArg List.length (t.codes_syms v d)

theorem Shape.leaves_pos (t : Shape) : 0 < t.leaves.length := by
  induction t with
  | leaf w sym => simp [Shape.leaves]
  | node l r ihl ihr => simp only [Shape.leaves, List.length_append]; omega

/-- A code starts with the start path, and its value fits its length. -/
theorem Shape.codes_start (t : Shape) {v d : Nat} (hv : v < 2 ^ d) :
    ∀ e ∈ t.codes v d, d ≤ e.2.len ∧ e.2.val / 2 ^ (e.2.len - d) = v ∧ e.2.val < 2 ^ e.2.len := by
  induction t generalizing v d with
  | leaf w sym => simp [Shape.codes, hv]
  | node l r ihl ihr =>
    have hl : 2 * v < 2 ^ (d + 1) := by rw [pow_succ]; omega
    have hr : 2 * v + 1 < 2 ^ (d + 1) := by rw [pow_succ]; omega
    intro e he
    rcases List.mem_append.1 he with he | he
    · obtain ⟨h1, h2, h3⟩ := ihl hl e he
      refine ⟨by omega, ?_, h3⟩
      rw [show e.2.len - d = (e.2.len - (d + 1)) + 1 by omega, pow_succ, ← Nat.div_div_eq_div_mul, h2]
      omega
    · obtain ⟨h1, h2, h3⟩ := ihr hr e he
      refine ⟨by omega, ?_, h3⟩
      rw [show e.2.len - d = (e.2.len - (d + 1)) + 1 by omega, pow_succ, ← Nat.div_div_eq_div_mul, h2]
      omega

/-- Two entries that start with different paths of one length: neither begins the other. -/
theorem not_begins_of_start {a b : CodeEntry} {d u v : Nat} (ha : d ≤ a.len) (hb : d ≤ b.len)
    (hu : a.val / 2 ^ (a.len - d) = u) (hv : b.val / 2 ^ (b.len - d) = v) (h : u ≠ v) : a.begins b = false := by
  rw [Bool.eq_false_iff]
  intro hc
  simp only [CodeEntry.begins, Bool.and_eq_true, decide_eq_true_eq, beq_iff_eq] at hc
  obtain ⟨hle, he⟩ := hc
  apply h
  rw [← hu, ← hv, ← he, Nat.div_div_eq_div_mul, ← pow_add]
  congr 2
  omega

/-- No code of a shape begins another one (R152(b)). -/
theorem Shape.codes_apart (t : Shape) {v d : Nat} (hv : v < 2 ^ d) :
    (t.codes v d).Pairwise (fun x y => x.2.begins y.2 = false ∧ y.2.begins x.2 = false) := by
  induction t generalizing v d with
  | leaf w sym => simp [Shape.codes]
  | node l r ihl ihr =>
    have hl : 2 * v < 2 ^ (d + 1) := by rw [pow_succ]; omega
    have hr : 2 * v + 1 < 2 ^ (d + 1) := by rw [pow_succ]; omega
    refine List.pairwise_append.2 ⟨ihl hl, ihr hr, ?_⟩
    intro x hx y hy
    obtain ⟨x1, x2, -⟩ := l.codes_start hl x hx
    obtain ⟨y1, y2, -⟩ := r.codes_start hr y hy
    exact ⟨not_begins_of_start x1 y1 x2 y2 (by omega), not_begins_of_start y1 x1 y2 x2 (by omega)⟩

/-- The Kraft sum of a full tree, scaled by 2^D: exactly the whole (R152(c)). -/
theorem Shape.codes_kraft (t : Shape) (v : Nat) {d D : Nat} (hD : ∀ e ∈ t.codes v d, e.2.len ≤ D) :
    ((t.codes v d).map (fun e => 2 ^ (D - e.2.len))).sum = 2 ^ (D - d) ∧ d ≤ D := by
  induction t generalizing v d with
  | leaf w sym =>
    have := hD (sym, { len := d, val := v }) (by simp [Shape.codes])
    simpa [Shape.codes] using this
  | node l r ihl ihr =>
    obtain ⟨h1, h2⟩ := ihl (2 * v) (fun e he => hD e (List.mem_append.2 (.inl he)))
    obtain ⟨h3, -⟩ := ihr (2 * v + 1) (fun e he => hD e (List.mem_append.2 (.inr he)))
    refine ⟨?_, by omega⟩
    rw [Shape.codes, List.map_append, List.sum_append, h1, h3, show D - d = (D - (d + 1)) + 1 by omega, pow_succ]
    omega

/-- A leaf is at most as deep as the number of other leaves (R133(e)). -/
theorem Shape.codes_depth (t : Shape) (v d : Nat) : ∀ e ∈ t.codes v d, e.2.len + 1 ≤ d + t.leaves.length := by
  induction t generalizing v d with
  | leaf w sym => simp [Shape.codes, Shape.leaves]
  | node l r ihl ihr =>
    intro e he
    have := l.leaves_pos
    have := r.leaves_pos
    simp only [Shape.leaves, List.length_append]
    rcases List.mem_append.1 he with he | he
    · have := ihl _ _ e he; omega
    · have := ihr _ _ e he; omega

/-- The weighted path length is the total of the internal nodes (R152(d)). -/
theorem Shape.codes_cost (t : Shape) (v d : Nat) :
    (List.zipWith (fun leaf e => leaf.2 * e.2.len) t.leaves (t.codes v d)).sum = d * t.weight + t.innerTotal := by
  induction t generalizing v d with
  | leaf w sym => simp [Shape.leaves, Shape.codes, Shape.weight, Shape.innerTotal, Nat.mul_comm]
  | node l r ihl ihr =>
    rw [Shape.leaves, Shape.codes, List.zipWith_append (l.codes_length _ _).symm, List.sum_append, ihl, ihr]
    simp only [Shape.weight, Shape.innerTotal]
    ring

/-! ### The shape below a node -/

/-- The tree below node n, if every entry it reads is defined within the given depth. -/
def shapeOf (nodes : List Node) : Nat → Nat → Option Shape
  | 0, _ => none
  | fuel + 1, n =>
    match nodes[n]? with
    | none => none
    | some (.leaf w sym) => some (.leaf w.toNat sym)
    | some (.internal _ l r) =>
      match shapeOf nodes fuel l, shapeOf nodes fuel r with
      | some a, some b => some (.node a b)
      | _, _ => none

/-- R151's walk lists the codes of the shape. -/
theorem walk_eq (nodes : List Node) (fuel n v d : Nat) :
    walk nodes fuel n v d = (shapeOf nodes fuel n).map (fun t => t.codes v d) := by
  induction fuel generalizing n v d with
  | zero => rfl
  | succ fuel ih =>
    unfold walk shapeOf
    cases nodes[n]? with
    | none => rfl
    | some node =>
      cases node with
      | leaf w sym => rfl
      | internal w l r =>
        simp only [ih]
        cases shapeOf nodes fuel l <;> cases shapeOf nodes fuel r <;> rfl

/-- Children stand before their parents (R48(b)). -/
def ChildrenBelow (nodes : List Node) : Prop :=
  ∀ (n : Nat) (w : Word) (l r : Nat), nodes[n]? = some (Node.internal w l r) → l < n ∧ r < n

theorem ForestOk.childrenBelow {nodes : List Node} {heap : List Nat} (h : ForestOk nodes heap) :
    ChildrenBelow nodes := fun n w l r hn => ⟨(h.internalOk n w l r hn).1, (h.internalOk n w l r hn).2.1⟩

theorem shapeOf_exists {nodes : List Node} (hb : ChildrenBelow nodes) {n : Nat} (hn : n < nodes.length) {fuel : Nat}
    (hf : n < fuel) : ∃ t, shapeOf nodes fuel n = some t := by
  induction n using Nat.strong_induction_on generalizing fuel with
  | _ n ih =>
    obtain ⟨fuel, rfl⟩ : ∃ f, fuel = f + 1 := ⟨fuel - 1, by omega⟩
    unfold shapeOf
    rw [List.getElem?_eq_getElem hn]
    cases hk : nodes[n] with
    | leaf w sym => exact ⟨_, rfl⟩
    | internal w l r =>
      obtain ⟨hl, hr⟩ := hb n w l r (by rw [List.getElem?_eq_getElem hn, hk])
      obtain ⟨a, ha⟩ := ih l hl (by omega) (fuel := fuel) (by omega)
      obtain ⟨b, hb'⟩ := ih r hr (by omega) (fuel := fuel) (by omega)
      exact ⟨.node a b, by simp [ha, hb']⟩

/-- The shape does not depend on how much depth is allowed beyond what is enough, nor on later nodes. -/
theorem shapeOf_stable {nodes : List Node} (hb : ChildrenBelow nodes) (more : List Node) {n : Nat}
    (hn : n < nodes.length) {f g : Nat} (hf : n < f) (hg : n < g) :
    shapeOf (nodes ++ more) f n = shapeOf nodes g n := by
  induction n using Nat.strong_induction_on generalizing f g with
  | _ n ih =>
    obtain ⟨f, rfl⟩ : ∃ f', f = f' + 1 := ⟨f - 1, by omega⟩
    obtain ⟨g, rfl⟩ : ∃ g', g = g' + 1 := ⟨g - 1, by omega⟩
    unfold shapeOf
    rw [List.getElem?_append_left hn, List.getElem?_eq_getElem hn]
    cases hk : nodes[n] with
    | leaf w sym => rfl
    | internal w l r =>
      obtain ⟨hl, hr⟩ := hb n w l r (by rw [List.getElem?_eq_getElem hn, hk])
      simp only
      rw [ih l hl (by omega) (f := f) (g := g) (by omega) (by omega),
        ih r hr (by omega) (f := f) (g := g) (by omega) (by omega)]

/-- The shape below a node, at the depth R151's walk allows. -/
def shapeAt (nodes : List Node) (n : Nat) : Shape := (shapeOf nodes nodes.length n).getD (.leaf 0 0)

theorem shapeOf_eq {nodes : List Node} (hb : ChildrenBelow nodes) {n : Nat} (hn : n < nodes.length) :
    shapeOf nodes nodes.length n = some (shapeAt nodes n) := by
  obtain ⟨t, ht⟩ := shapeOf_exists hb hn hn
  simp [shapeAt, ht]

theorem shapeAt_append {nodes : List Node} (hb : ChildrenBelow nodes) (more : List Node) {n : Nat}
    (hn : n < nodes.length) : shapeAt (nodes ++ more) n = shapeAt nodes n := by
  unfold shapeAt
  rw [shapeOf_stable hb more hn (f := (nodes ++ more).length) (g := nodes.length) (by simp; omega) hn]

theorem shapeAt_leaf {nodes : List Node} {n : Nat} {w : Word} {sym : Nat}
    (h : nodes[n]? = some (Node.leaf w sym)) : shapeAt nodes n = .leaf w.toNat sym := by
  have hn : n < nodes.length := (List.getElem?_eq_some_iff.1 h).1
  obtain ⟨k, hk⟩ : ∃ k, nodes.length = k + 1 := ⟨nodes.length - 1, by omega⟩
  unfold shapeAt
  rw [hk, shapeOf, h]
  rfl

theorem shapeAt_internal {nodes : List Node} (hb : ChildrenBelow nodes) {n : Nat} {w : Word} {l r : Nat}
    (h : nodes[n]? = some (Node.internal w l r)) : shapeAt nodes n = .node (shapeAt nodes l) (shapeAt nodes r) := by
  have hn : n < nodes.length := (List.getElem?_eq_some_iff.1 h).1
  obtain ⟨hl, hr⟩ := hb n w l r h
  obtain ⟨k, hk⟩ : ∃ k, nodes.length = k + 1 := ⟨nodes.length - 1, by omega⟩
  have e1 : shapeOf nodes k l = some (shapeAt nodes l) := by
    rw [← shapeOf_eq hb (by omega : l < nodes.length)]
    simpa using shapeOf_stable hb [] (by omega : l < nodes.length) (f := k) (g := nodes.length) (by omega) (by omega)
  have e2 : shapeOf nodes k r = some (shapeAt nodes r) := by
    rw [← shapeOf_eq hb (by omega : r < nodes.length)]
    simpa using shapeOf_stable hb [] (by omega : r < nodes.length) (f := k) (g := nodes.length) (by omega) (by omega)
  conv_lhs => unfold shapeAt
  rw [hk, shapeOf, h]
  simp [e1, e2]

theorem ChildrenBelow.init {nodes more : List Node} (hb : ChildrenBelow (nodes ++ more)) : ChildrenBelow nodes := by
  intro n w l r h
  have hn : n < nodes.length := (List.getElem?_eq_some_iff.1 h).1
  exact hb n w l r (by rw [List.getElem?_append_left hn, h])

/-- The leaves of a node store as (symbol, weight), in node order. -/
def leafPairs (nodes : List Node) : List (Nat × Nat) :=
  nodes.filterMap (fun node => match node with
    | .leaf w sym => some (sym, w.toNat)
    | .internal _ _ _ => none)

theorem leafPairs_syms (nodes : List Node) : (leafPairs nodes).map Prod.fst = leafSyms nodes := by
  induction nodes with
  | nil => rfl
  | cons node rest ih =>
    cases node with
    | leaf w sym =>
      show sym :: (leafPairs rest).map Prod.fst = sym :: leafSyms rest
      rw [ih]
    | internal w l r => exact ih

theorem leafPairs_weights (nodes : List Node) : ((leafPairs nodes).map Prod.snd).sum = leafTotal nodes := by
  induction nodes with
  | nil => rfl
  | cons node rest ih =>
    cases node with
    | leaf w sym =>
      have e : leafPairs (.leaf w sym :: rest) = (sym, w.toNat) :: leafPairs rest := rfl
      rw [e, List.map_cons, List.sum_cons, ih]
      simp [leafTotal, Node.leafWeight]
    | internal w l r =>
      have e : leafPairs (.internal w l r :: rest) = leafPairs rest := rfl
      rw [e, ih]
      simp [leafTotal, Node.leafWeight]

/-- What an internal node adds to the internal nodes' total weight. -/
def Node.innerWeight : Node → Nat
  | .leaf _ _ => 0
  | .internal w _ _ => w.toNat

/-- The total of the weights of all internal nodes (R152(d)). -/
def innerTotal (nodes : List Node) : Nat := (nodes.map Node.innerWeight).sum

/-- The weight stored in a node is the weight of its shape. -/
theorem ForestOk.weight_shape {nodes : List Node} {heap : List Nat} (h : ForestOk nodes heap) {n : Nat}
    (hn : n < nodes.length) : (weightAt nodes n).toNat = (shapeAt nodes n).weight := by
  induction n using Nat.strong_induction_on with
  | _ n ih =>
    have hk := List.getElem?_eq_getElem hn
    cases hnode : nodes[n] with
    | leaf w sym =>
      rw [hnode] at hk
      rw [shapeAt_leaf hk]
      simp [weightAt, hk, Node.weight, Shape.weight]
    | internal w l r =>
      rw [hnode] at hk
      obtain ⟨hl, hr, -, hw⟩ := h.internalOk n w l r hk
      rw [shapeAt_internal h.childrenBelow hk, Shape.weight, ← ih l hl (by omega), ← ih r hr (by omega), ← hw]
      simp [weightAt, hk, Node.weight]

/-- Whatever a shape collects from its own nodes, the trees of the queued nodes collect from every node of the store
exactly once (R48(c)). -/
theorem queued_collect {α : Type} (g : Shape → List α) (own : Node → List α) {nodes : List Node} {heap : List Nat}
    (hb : ChildrenBelow nodes) (hp : (heap ++ childFields nodes).Perm (List.range nodes.length))
    (hleaf : ∀ w sym, g (.leaf w.toNat sym) = own (.leaf w sym))
    (hnode : ∀ (n : Nat) (w : Word) (l r : Nat), nodes[n]? = some (Node.internal w l r) →
      g (.node (shapeAt nodes l) (shapeAt nodes r)) =
        own (.internal w l r) ++ (g (shapeAt nodes l) ++ g (shapeAt nodes r))) :
    (heap.flatMap (fun n => g (shapeAt nodes n))).Perm (nodes.flatMap own) := by
  induction nodes using List.reverseRecOn generalizing heap with
  | nil =>
    have : heap = [] := by simpa [childFields] using hp
    simp [this]
  | append_singleton nodes node ih =>
    have hbn := hb.init
    have hlast : nodes.length ∈ heap := by
      have := (hp.mem_iff (a := nodes.length)).2 (by simp)
      rcases List.mem_append.1 this with hm | hm
      · exact hm
      · exfalso
        obtain ⟨nd, hnd, hc⟩ := List.mem_flatMap.1 hm
        obtain ⟨i, hi, rfl⟩ := List.getElem_of_mem hnd
        cases hk : (nodes ++ [node])[i] with
        | leaf w sym => simp [hk, Node.children] at hc
        | internal w l r =>
          obtain ⟨h1, h2⟩ := hb i w l r (by rw [List.getElem?_eq_getElem hi, hk])
          simp only [hk, Node.children, List.mem_cons, List.not_mem_nil, or_false] at hc
          simp only [List.length_append, List.length_cons, List.length_nil] at hi
          omega
    obtain ⟨rest, hrest⟩ : ∃ rest, heap.Perm (nodes.length :: rest) :=
      ⟨_, List.perm_cons_erase hlast⟩
    have hp' : (rest ++ (childFields nodes ++ node.children)).Perm (List.range nodes.length) := by
      have h1 : (nodes.length :: (rest ++ (childFields nodes ++ node.children))).Perm
          (nodes.length :: List.range nodes.length) := by
        have e : List.range (nodes ++ [node]).length = List.range nodes.length ++ [nodes.length] := by
          simp [List.range_succ]
        rw [e, childFields_append, childFields_singleton] at hp
        exact ((hrest.append_right _).symm.trans hp).trans (List.perm_append_singleton _ _)
      exact h1.cons_inv
    have hp2 : ((node.children ++ rest) ++ childFields nodes).Perm (List.range nodes.length) := by
      refine List.Perm.trans ?_ hp'
      rw [← List.append_assoc, List.append_assoc]
      exact List.perm_append_comm
    have hsmall : ∀ n ∈ node.children ++ rest, n < nodes.length := by
      intro n hn
      have := (hp2.mem_iff (a := n)).1 (by simp only [List.mem_append] at hn ⊢; tauto)
      simpa using this
    have hih := ih hbn hp2 (fun n w l r hn => by
      have hlt : n < nodes.length := (List.getElem?_eq_some_iff.1 hn).1
      obtain ⟨h1, h2⟩ := hbn n w l r hn
      have := hnode n w l r (by rw [List.getElem?_append_left hlt, hn])
      rwa [shapeAt_append hbn _ (by omega), shapeAt_append hbn _ (by omega)] at this)
    have hext : ∀ l : List Nat, (∀ n ∈ l, n < nodes.length) →
        l.flatMap (fun n => g (shapeAt (nodes ++ [node]) n)) = l.flatMap (fun n => g (shapeAt nodes n)) := by
      intro l hl
      apply List.flatMap_congr
      intro n hn
      rw [shapeAt_append hbn [node] (hl n hn)]
    have hroot : g (shapeAt (nodes ++ [node]) nodes.length) ++
          rest.flatMap (fun n => g (shapeAt nodes n)) =
        own node ++ (node.children ++ rest).flatMap (fun n => g (shapeAt nodes n)) := by
      cases node with
      | leaf w sym =>
        rw [shapeAt_leaf (w := w) (sym := sym) (by simp)]
        simp [hleaf, Node.children]
      | internal w l r =>
        have h1 : l < nodes.length := hsmall l (by simp [Node.children])
        have h2 : r < nodes.length := hsmall r (by simp [Node.children])
        have h3 := hnode nodes.length w l r (by simp)
        rw [shapeAt_append hbn _ h1, shapeAt_append hbn _ h2] at h3
        rw [shapeAt_internal hb (w := w) (l := l) (r := r) (by simp), shapeAt_append hbn _ h1, shapeAt_append hbn _ h2, h3]
        simp [Node.children]
    refine (hrest.flatMap_right _).trans ?_
    rw [List.flatMap_cons, hext rest (fun n hn => hsmall n (by simp [hn])), hroot]
    have e : (nodes ++ [node]).flatMap own = nodes.flatMap own ++ own node := by simp
    rw [e]
    exact (hih.append_left _).trans List.perm_append_comm

/-- The trees of the queued nodes hold every leaf of the node store exactly once (R48(c), R133(c)). -/
theorem queued_leaves {nodes : List Node} {heap : List Nat} (hb : ChildrenBelow nodes)
    (hp : (heap ++ childFields nodes).Perm (List.range nodes.length)) :
    (heap.flatMap (fun n => (shapeAt nodes n).leaves)).Perm (leafPairs nodes) := by
  have h := queued_collect Shape.leaves (fun node => leafPairs [node]) hb hp (fun w sym => rfl)
    (fun n w l r _ => by simp [Shape.leaves, leafPairs])
  have e : nodes.flatMap (fun node => leafPairs [node]) = leafPairs nodes := by
    clear h hp hb
    induction nodes with
    | nil => rfl
    | cons node rest ih => rw [List.flatMap_cons, ih]; cases node <;> simp [leafPairs]
  rwa [e] at h

/-- The weights of a shape's internal nodes. -/
def Shape.inners : Shape → List Nat
  | .leaf _ _ => []
  | .node l r => (l.weight + r.weight) :: (l.inners ++ r.inners)

theorem Shape.inners_sum (t : Shape) : t.inners.sum = t.innerTotal := by
  induction t with
  | leaf w sym => rfl
  | node l r ihl ihr => simp [Shape.inners, Shape.innerTotal, ihl, ihr]

/-- The trees of the queued nodes hold every internal node exactly once, with its stored weight (R48(b), R48(c)). -/
theorem queued_inners {nodes : List Node} {heap : List Nat} (h : ForestOk nodes heap) :
    (heap.flatMap (fun n => (shapeAt nodes n).inners)).sum = innerTotal nodes := by
  have hc := queued_collect Shape.inners
    (fun node => match node with | .leaf _ _ => [] | .internal w _ _ => [w.toNat]) h.childrenBelow h.onceEach
    (fun w sym => rfl)
    (fun n w l r hn => by
      have hlt : n < nodes.length := (List.getElem?_eq_some_iff.1 hn).1
      obtain ⟨hl, hr, -, hw⟩ := h.internalOk n w l r hn
      rw [Shape.inners, ← h.weight_shape (by omega), ← h.weight_shape (by omega), ← hw]
      rfl)
  rw [hc.sum_eq]
  clear hc h
  unfold innerTotal
  induction nodes with
  | nil => rfl
  | cons node rest ih =>
    rw [List.flatMap_cons, List.sum_append, ih]
    cases node <;> simp [Node.innerWeight]

end Sys2Proof.Machine
end

