-- ==== Sys2Proof/Laws/CodeTable.lean ====
section
/-! SUPPORT. The code table: which symbols have a code, the longest code, validity, and the table EXTRACT writes
(10_state.md R33, 43_extractor.md R151, 45_decoder.md R191). -/

namespace Sys2Proof.Machine

theorem State.mem_codedSyms (s : State) (sym : Nat) :
    sym ∈ s.codedSyms ↔ sym < s.cfg.nsym ∧ (s.codeOf sym).len ≠ 0 := by
  simp [State.codedSyms]

theorem foldl_max_le (f : Nat → Nat) (l : List Nat) (m b : Nat) :
    l.foldl (fun m x => max m (f x)) m ≤ b ↔ m ≤ b ∧ ∀ x ∈ l, f x ≤ b := by
  induction l generalizing m with
  | nil => simp
  | cons a rest ih =>
    simp only [List.foldl_cons, ih, List.mem_cons, forall_eq_or_imp, max_le_iff]
    tauto

/-- MAXLEN is the least bound of all lengths (R33). -/
theorem State.maxLen_le_iff (s : State) (b : Nat) : s.maxLen ≤ b ↔ ∀ sym < s.cfg.nsym, (s.codeOf sym).len ≤ b := by
  unfold State.maxLen
  rw [foldl_max_le (fun sym => (s.codeOf sym).len)]
  simp

theorem State.len_le_maxLen (s : State) {sym : Nat} (h : sym < s.cfg.nsym) : (s.codeOf sym).len ≤ s.maxLen :=
  (s.maxLen_le_iff s.maxLen).1 le_rfl sym h

/-- Validity in words (R191). -/
theorem State.tableValid_iff (s : State) : s.tableValid = true ↔
    ∀ x < s.cfg.nsym, ∀ y < s.cfg.nsym, x ≠ y → (s.codeOf x).len ≠ 0 → (s.codeOf y).len ≠ 0 →
      (s.codeOf x).begins (s.codeOf y) = false := by
  simp only [State.tableValid, List.all_eq_true, State.mem_codedSyms, Bool.or_eq_true, beq_iff_eq, Bool.not_eq_true']
  constructor
  · intro h x hx y hy hne hlx hly
    exact (h x ⟨hx, hlx⟩ y ⟨hy, hly⟩).resolve_left hne
  · rintro h x ⟨hx, hlx⟩ y ⟨hy, hly⟩
    by_cases hne : x = y
    · exact .inl hne
    · exact .inr (h x hx y hy hne hlx hly)

theorem CodeEntry.begins_iff (a b : CodeEntry) :
    a.begins b = true ↔ a.len ≤ b.len ∧ b.val / 2 ^ (b.len - a.len) = a.val := by
  simp [CodeEntry.begins]

/-- On a valid table a code has at most one symbol (R192). -/
theorem State.valid_unique {s : State} (hv : s.tableValid = true) {x y : Nat} (hx : x < s.cfg.nsym)
    (hy : y < s.cfg.nsym) (hl : (s.codeOf x).len ≠ 0) (he : s.codeOf x = s.codeOf y) : x = y := by
  by_contra hne
  have := s.tableValid_iff.1 hv x hx y hy hne hl (he ▸ hl)
  rw [he, Bool.eq_false_iff] at this
  exact this ((CodeEntry.begins_iff _ _).2 ⟨le_rfl, by simp⟩)

/-- `lookup` finds exactly the symbol of a code (R192). -/
theorem State.lookup_some {s : State} (hv : s.tableValid = true) {sym len v : Nat} (hs : sym < s.cfg.nsym)
    (hl : len ≠ 0) (he : s.codeOf sym = { len := len, val := v }) : s.lookup len v = some sym := by
  unfold State.lookup
  cases h : (List.range s.cfg.nsym).find? (fun sym => s.codeOf sym == { len := len, val := v }) with
  | none =>
    exfalso
    have := List.find?_eq_none.1 h sym (by simpa using hs)
    simp [he] at this
  | some t =>
    have ht := List.find?_some h
    have hm := List.mem_of_find?_eq_some h
    rw [List.mem_range] at hm
    rw [beq_iff_eq] at ht
    rw [State.valid_unique hv hm hs (by rw [ht]; exact hl) (by rw [ht, he])]

theorem State.lookup_eq_none (s : State) (len v : Nat) :
    s.lookup len v = none ↔ ∀ sym < s.cfg.nsym, s.codeOf sym ≠ { len := len, val := v } := by
  simp [State.lookup, List.find?_eq_none]

theorem State.lookup_sound {s : State} {len v sym : Nat} (h : s.lookup len v = some sym) :
    sym < s.cfg.nsym ∧ s.codeOf sym = { len := len, val := v } := by
  refine ⟨by simpa using List.mem_of_find?_eq_some h, by simpa using List.find?_some h⟩

/-! ### The table of a list of codes -/

theorem tableOf_get_aux (ls : List (Nat × CodeEntry)) (t : Table CodeEntry) (hn : (ls.map Prod.fst).Nodup) (sym : Nat) :
    Table.get CodeEntry.absent (ls.foldl (fun t e => Table.set CodeEntry.absent t e.1 e.2) t) sym =
      match ls.find? (fun e => e.1 == sym) with
      | some e => e.2
      | none => Table.get CodeEntry.absent t sym := by
  induction ls generalizing t with
  | nil => rfl
  | cons a rest ih =>
    obtain ⟨k, e⟩ := a
    simp only [List.map_cons, List.nodup_cons] at hn
    rw [List.foldl_cons, ih _ hn.2, List.find?_cons, Table.get_set]
    by_cases hk : k = sym
    · subst hk
      have : rest.find? (fun e => e.1 == k) = none := by
        rw [List.find?_eq_none]
        intro x hx
        simp only [beq_iff_eq]
        intro he
        exact hn.1 (List.mem_map.2 ⟨x, hx, he⟩)
      simp [this]
    · simp only [beq_eq_false_iff_ne.2 hk, Ne.symm hk, if_false]

/-- A recorded code is read back (R151). -/
theorem tableOf_get_mem {ls : List (Nat × CodeEntry)} (hn : (ls.map Prod.fst).Nodup) {e : Nat × CodeEntry}
    (he : e ∈ ls) : Table.get CodeEntry.absent (tableOf ls) e.1 = e.2 := by
  unfold tableOf
  rw [tableOf_get_aux ls [] hn]
  cases h : ls.find? (fun x => x.1 == e.1) with
  | none =>
    exfalso
    have := List.find?_eq_none.1 h e he
    simp at this
  | some x =>
    have hx := List.find?_some h
    have hm := List.mem_of_find?_eq_some h
    simp only [beq_iff_eq] at hx
    have := List.inj_on_of_nodup_map hn hm he hx
    simp [this]

/-- A symbol without a recorded code has none (R151). -/
theorem tableOf_get_absent {ls : List (Nat × CodeEntry)} {sym : Nat} (h : sym ∉ ls.map Prod.fst) :
    Table.get CodeEntry.absent (tableOf ls) sym = CodeEntry.absent := by
  unfold tableOf
  suffices ∀ t : Table CodeEntry, Table.get CodeEntry.absent t sym = CodeEntry.absent →
      Table.get CodeEntry.absent (ls.foldl (fun t e => Table.set CodeEntry.absent t e.1 e.2) t) sym =
        CodeEntry.absent from this [] rfl
  induction ls with
  | nil => exact fun t ht => ht
  | cons a rest ih =>
    intro t ht
    simp only [List.map_cons, List.mem_cons, not_or] at h
    rw [List.foldl_cons]
    exact ih h.2 _ (by rw [Table.get_set, if_neg h.1, ht])

theorem tableOf_wf {ls : List (Nat × CodeEntry)} {size : Nat} (h : ∀ e ∈ ls, e.1 < size) :
    Table.wf CodeEntry.absent size (tableOf ls) = true := by
  unfold tableOf
  suffices ∀ t : Table CodeEntry, Table.wf CodeEntry.absent size t = true →
      Table.wf CodeEntry.absent size (ls.foldl (fun t e => Table.set CodeEntry.absent t e.1 e.2) t) = true from
    this [] (Table.wf_nil _ _)
  induction ls with
  | nil => exact fun t ht => ht
  | cons a rest ih =>
    intro t ht
    rw [List.foldl_cons]
    exact ih (fun e he => h e (by simp [he])) _ (Table.wf_set _ ht (h a (by simp)) _)

/-! ### The codes of a built tree -/

/-- The codes R151 gives a shape: "0" for a single leaf, the paths of a larger tree. -/
def Shape.table : Shape → List (Nat × CodeEntry)
  | .leaf _ sym => [(sym, { len := 1, val := 0 })]
  | .node l r => (Shape.node l r).codes 0 0

theorem Shape.table_syms (t : Shape) : t.table.map Prod.fst = t.leaves.map Prod.fst := by
  cases t with
  | leaf w sym => rfl
  | node l r => exact Shape.codes_syms _ 0 0

/-- Every recorded code is non-empty and fits its length. -/
theorem Shape.table_fits (t : Shape) : ∀ e ∈ t.table, 1 ≤ e.2.len ∧ e.2.val < 2 ^ e.2.len := by
  cases t with
  | leaf w sym => simp [Shape.table]
  | node l r =>
    intro e he
    refine ⟨?_, (Shape.codes_start (.node l r) (v := 0) (d := 0) (by simp) e he).2.2⟩
    rcases List.mem_append.1 he with he | he
    · exact (Shape.codes_start l (v := 2 * 0) (d := 0 + 1) (by simp) e he).1
    · exact (Shape.codes_start r (v := 2 * 0 + 1) (d := 0 + 1) (by simp) e he).1

theorem Shape.table_apart (t : Shape) :
    t.table.Pairwise (fun x y => x.2.begins y.2 = false ∧ y.2.begins x.2 = false) := by
  cases t with
  | leaf w sym => simp [Shape.table]
  | node l r => exact Shape.codes_apart _ (by simp)

/-- EXTRACT's codes are those of the shape below the root. -/
theorem State.treeCodes_eq {s : State} (hf : ForestOk s.nodes s.heap) {r : Nat} (hr : s.root = some r)
    (hd : r < s.nodes.length) : s.treeCodes = some (shapeAt s.nodes r).table := by
  unfold State.treeCodes
  rw [hr]
  simp only
  have hk := List.getElem?_eq_getElem hd
  cases hnode : s.nodes[r] with
  | leaf w sym =>
    rw [hnode] at hk
    rw [hk, shapeAt_leaf hk]
    rfl
  | internal w a b =>
    rw [hnode] at hk
    rw [hk]
    simp only
    rw [walk_eq, shapeOf_eq hf.childrenBelow hd, Option.map_some, shapeAt_internal hf.childrenBelow hk]
    rfl

/-- A BUILT tree of the invariant: empty, or one queued root whose tree holds every leaf (R129, R133). -/
theorem Invariant.built_cases {s : State} (h : Invariant s) (hb : s.bstate = .built) :
    (s.root = none ∧ s.nodes = [] ∧ s.heap = []) ∨
    (∃ r, s.root = some r ∧ s.heap = [r] ∧ r < s.nodes.length ∧
      (shapeAt s.nodes r).leaves.Perm (leafPairs s.nodes)) := by
  have hroot := h.rootOk
  rw [if_pos hb] at hroot
  have hlen := h.builtOk hb
  match hh : s.heap with
  | [] =>
    left
    rw [hh] at hroot
    refine ⟨hroot, ?_, rfl⟩
    by_contra hn
    have := h.forestOk.last_queued hn
    simp [hh] at this
  | [r] =>
    right
    rw [hh] at hroot
    have hd := h.forestOk.queued_defined r (by simp [hh])
    refine ⟨r, hroot, rfl, hd, ?_⟩
    have hq := queued_leaves h.forestOk.childrenBelow h.forestOk.onceEach
    rw [hh] at hq
    simpa using hq
  | _ :: _ :: _ => simp [hh] at hlen

end Sys2Proof.Machine
end

