-- ==== Sys2Proof/Laws/Encoding.lean ====
section
/-! SUPPORT. Fields of a word given as a number, and what an encoded instruction's two parts are. -/

namespace Sys2Proof

/-- A field of a word written as a number below 2^32. -/
theorem field_ofNat {n : Nat} (h : n < 2 ^ 32) (lo width : Nat) :
    field (BitVec.ofNat 32 n) lo width = n / 2 ^ lo % 2 ^ width := by
  rw [field, BitVec.toNat_ofNat, Nat.mod_eq_of_lt h]

theorem symFits_iff (n : Nat) : symFits n = true ↔ n < 65536 := by simp [symFits]

theorem idxFits_iff (n : Nat) : idxFits n = true ↔ n < 131072 := by simp [idxFits]

theorem wordIndexFits_iff (n : Nat) : wordIndexFits n = true ↔ n < 256 := by simp [wordIndexFits]

/-- The operand fields of a well-formed instruction fill at most bits [23:0]. -/
theorem Instr.operandBits_lt {i : Instr} (h : i.wellFormed = true) : i.operandBits < 2 ^ 24 := by
  cases i <;> simp only [Instr.wellFormed, Instr.operandBits, symFits_iff, idxFits_iff, wordIndexFits_iff,
    Bool.and_eq_true] at h ⊢ <;> try omega
  case decStart l => cases l <;> decide

theorem Instr.opcode_lt (i : Instr) : i.opcode < 2 ^ 8 := by cases i <;> norm_num [Instr.opcode]

end Sys2Proof
end

