-- ==== Sys2Proof/Laws/Matching.lean ====
section
/-! SUPPORT. The decoder's bit loop: what one bit does, that feeding a code's bits emits its symbol and nothing else, and
that bits beyond the limit are ignored (45_decoder.md R194, R195). -/

namespace Sys2Proof.Machine

/-- The bit string of a symbol's code (R10). -/
def State.codeBits (s : State) (sym : Nat) : List Bool := bitsOf (s.codeOf sym).len (s.codeOf sym).val

@[simp] theorem State.codeBits_length (s : State) (sym : Nat) : (s.codeBits sym).length = (s.codeOf sym).len := by
  simp [State.codeBits]

/-- A bit is ignored: limit mode, and the limit has been reached (R194). -/
def State.beyondLimit (s : State) (m : Match) : Bool := s.limitEn && decide (s.decNbits.toNat ≤ m.bitcnt.toNat)

/-- What a bit can do (R194): be ignored, complete a code, or be kept, with ENOMATCH when no longer code exists. -/
theorem decBit_cases (s : State) (b : Bool) (m : Match) :
    (s.beyondLimit m = true ∧ decBit s b m = m) ∨
    (s.beyondLimit m = false ∧
      ((∃ sym, s.lookup (m.accLen + 1) (2 * m.acc + b.toNat) = some sym ∧
        decBit s b m = { m with acc := 0, accLen := 0, bitcnt := m.bitcnt + 1, out := m.out ++ [BitVec.ofNat 16 sym] }) ∨
       (s.lookup (m.accLen + 1) (2 * m.acc + b.toNat) = none ∧
        decBit s b m = { m with
          acc := 2 * m.acc + b.toNat, accLen := m.accLen + 1, bitcnt := m.bitcnt + 1,
          stopped := decide (s.maxLen ≤ m.accLen + 1) }))) := by
  unfold decBit State.beyondLimit
  by_cases h : (s.limitEn && decide (s.decNbits.toNat ≤ m.bitcnt.toNat)) = true
  · exact .inl ⟨h, if_pos h⟩
  · refine .inr ⟨by simpa using h, ?_⟩
    rw [if_neg h]
    cases hl : s.lookup (m.accLen + 1) (2 * m.acc + b.toNat) with
    | some sym => exact .inl ⟨sym, rfl, rfl⟩
    | none => exact .inr ⟨rfl, rfl⟩

theorem decBits_append (s : State) (as bs : List Bool) (m : Match) (h : m.stopped = false) :
    decBits s (as ++ bs) m =
      if (decBits s as m).stopped then decBits s as m else decBits s bs (decBits s as m) := by
  induction as generalizing m with
  | nil => simp [decBits, h]
  | cons b as ih =>
    simp only [List.cons_append, decBits]
    by_cases hs : (decBit s b m).stopped = true
    · simp [hs]
    · simp only [hs, if_false, Bool.false_eq_true]
      exact ih _ (by simpa using hs)

/-- Bits beyond the limit change nothing (R194, R195). -/
theorem decBits_beyond (s : State) (bs : List Bool) (m : Match) (h : m.stopped = false)
    (hl : s.beyondLimit m = true) : decBits s bs m = m := by
  induction bs with
  | nil => rfl
  | cons b bs ih =>
    have e : decBit s b m = m := by
      rcases decBit_cases s b m with ⟨-, h⟩ | ⟨h, -⟩
      · exact h
      · rw [hl] at h; cases h
    simp only [decBits, e, h, Bool.false_eq_true, if_false]
    exact ih

/-- The string so far after one more bit. -/
theorem acc_bits (accLen acc : Nat) (b : Bool) :
    bitsOf (accLen + 1) (2 * acc + b.toNat) = bitsOf accLen acc ++ [b] := bitsOf_snoc accLen acc b

theorem acc_lt {accLen acc : Nat} (h : acc < 2 ^ accLen) (b : Bool) : 2 * acc + b.toNat < 2 ^ (accLen + 1) := by
  rw [pow_succ]; cases b <;> simp <;> omega

/-- A code that is how another bit string begins, as entries (R191). -/
theorem begins_of_bits {a b : CodeEntry} (ha : a.val < 2 ^ a.len) (hb : b.val < 2 ^ b.len) {more : List Bool}
    (h : bitsOf b.len b.val = bitsOf a.len a.val ++ more) : a.begins b = true := by
  have hlen := congrArg List.length h
  simp only [bitsOf_length, List.length_append] at hlen
  rw [CodeEntry.begins_iff]
  refine ⟨by omega, ?_⟩
  have e : b.len = a.len + (b.len - a.len) := by omega
  have h2 : bitsOf b.len b.val = bitsOf a.len (b.val / 2 ^ (b.len - a.len)) ++ bitsOf (b.len - a.len) b.val := by
    conv_lhs => rw [e]
    exact bitsOf_add _ _ _
  rw [h2] at h
  have h3 := (List.append_inj h (by simp)).1
  refine bitsOf_inj ?_ ha h3
  rw [Nat.div_lt_iff_lt_mul (Nat.two_pow_pos _), ← pow_add]
  rwa [← e]

/-- No proper beginning of a code is itself a code of a valid table (R191). -/
theorem lookup_proper_none {s : State} (hv : s.tableValid = true)
    (hfit : ∀ y, (s.codeOf y).val < 2 ^ (s.codeOf y).len) {sym : Nat} (hs : sym < s.cfg.nsym) {len v : Nat}
    (hl : len ≠ 0) {more : List Bool} (hm : more ≠ []) (h : s.codeBits sym = bitsOf len v ++ more) :
    s.lookup len v = none := by
  have hlen := congrArg List.length h
  simp only [State.codeBits_length, List.length_append, bitsOf_length] at hlen
  have hpos : 0 < more.length := List.length_pos_iff.2 hm
  cases hk : s.lookup len v with
  | none => rfl
  | some y =>
    exfalso
    obtain ⟨hy, he⟩ := State.lookup_sound hk
    have hne : y ≠ sym := by
      intro hc
      subst hc
      rw [he] at hlen
      simp only at hlen
      omega
    have hb := begins_of_bits (a := s.codeOf y) (b := s.codeOf sym) (hfit y) (hfit sym) (more := more) (by
      rw [he]; exact h)
    have := s.tableValid_iff.1 hv y hy sym hs hne (by rw [he]; exact hl) (by omega)
    rw [hb] at this
    cases this

/-- The number of bits appended, as the counter holds it. -/
theorem count_add_one (c : Count) (n : Nat) : c + 1 + BitVec.ofNat 64 n = c + BitVec.ofNat 64 (n + 1) := by
  rw [BitVec.add_assoc]
  congr 1
  apply BitVec.eq_of_toNat_eq
  have h1 : (1 : Count).toNat = 1 := rfl
  simp only [BitVec.toNat_add, BitVec.toNat_ofNat, h1]
  omega

/-- While the limit is not reached by the next n bits, none of them is beyond it. -/
def State.limitAllows (s : State) (c : Count) (n : Nat) : Prop :=
  s.limitEn = true → c.toNat + n ≤ s.decNbits.toNat

theorem State.limitAllows.head {s : State} {m : Match} {n : Nat} (h : s.limitAllows m.bitcnt (n + 1)) :
    s.beyondLimit m = false := by
  unfold State.beyondLimit
  cases hl : s.limitEn with
  | false => rfl
  | true =>
    have := h hl
    simp; omega

theorem State.limitAllows.tail {s : State} {c : Count} {n : Nat} (h : s.limitAllows c (n + 1)) :
    s.limitAllows (c + 1) n := by
  intro hl
  have h1 := h hl
  have h2 := s.decNbits.isLt
  have h3 : (1 : Count).toNat = 1 := rfl
  rw [BitVec.toNat_add, h3]
  omega

/-- Feeding the rest of a code's bits emits its symbol and empties the accumulator (R194). -/
theorem decBits_code {s : State} (hv : s.tableValid = true) (hfit : ∀ y, (s.codeOf y).val < 2 ^ (s.codeOf y).len)
    {sym : Nat} (hs : sym < s.cfg.nsym) (bs : List Bool) (hb : bs ≠ []) (m : Match) (hm : m.stopped = false)
    (hacc : m.acc < 2 ^ m.accLen) (hlim : s.limitAllows m.bitcnt bs.length)
    (h : s.codeBits sym = bitsOf m.accLen m.acc ++ bs) :
    decBits s bs m =
      { m with
        acc := 0, accLen := 0, bitcnt := m.bitcnt + BitVec.ofNat 64 bs.length, out := m.out ++ [BitVec.ofNat 16 sym] } := by
  induction bs generalizing m with
  | nil => exact absurd rfl hb
  | cons b bs ih =>
    have hlen := congrArg List.length h
    simp only [State.codeBits_length, List.length_append, bitsOf_length, List.length_cons] at hlen
    have hnb := hlim.head
    have hnew : s.codeBits sym = bitsOf (m.accLen + 1) (2 * m.acc + b.toNat) ++ bs := by rw [h, acc_bits]; simp
    by_cases hbs : bs = []
    · subst hbs
      have hv2 : (s.codeOf sym).val = 2 * m.acc + b.toNat := by
        simp only [List.append_nil, State.codeBits] at hnew
        simp only [List.length_nil] at hlen
        have hl2 : (s.codeOf sym).len = m.accLen + 1 := by omega
        rw [hl2] at hnew
        exact bitsOf_inj (by rw [← hl2]; exact hfit sym) (acc_lt hacc b) hnew
      have hlook : s.lookup (m.accLen + 1) (2 * m.acc + b.toNat) = some sym :=
        State.lookup_some hv hs (by omega) (by
          have hl2 : (s.codeOf sym).len = m.accLen + 1 := by simp only [List.length_nil] at hlen; omega
          rw [← hv2, ← hl2])
      rcases decBit_cases s b m with ⟨hc, -⟩ | ⟨-, ⟨y, hy, e⟩ | ⟨hn, -⟩⟩
      · rw [hnb] at hc; cases hc
      · rw [hlook] at hy
        injection hy with hy
        subst hy
        simp only [decBits, e, hm, Bool.false_eq_true, if_false]
        rfl
      · rw [hlook] at hn; cases hn
    · have hnone := lookup_proper_none hv hfit hs (by omega : m.accLen + 1 ≠ 0) hbs hnew
      have hpos : 0 < bs.length := List.length_pos_iff.2 hbs
      have hmax := s.len_le_maxLen hs
      rcases decBit_cases s b m with ⟨hc, -⟩ | ⟨-, ⟨y, hy, -⟩ | ⟨-, e⟩⟩
      · rw [hnb] at hc; cases hc
      · rw [hnone] at hy; cases hy
      · have hst : decide (s.maxLen ≤ m.accLen + 1) = false := by simp; omega
        rw [hst] at e
        simp only [decBits, e, Bool.false_eq_true, if_false]
        rw [ih hbs _ rfl (acc_lt hacc b) hlim.tail hnew]
        simp only [List.length_cons, count_add_one, hm]

/-- Feeding whole codes emits their symbols in order (R194). -/
theorem decBits_codes {s : State} (hv : s.tableValid = true) (hfit : ∀ y, (s.codeOf y).val < 2 ^ (s.codeOf y).len)
    (syms : List Nat) (hs : ∀ y ∈ syms, y < s.cfg.nsym ∧ (s.codeOf y).len ≠ 0) (m : Match) (hm : m.stopped = false)
    (h0 : m.accLen = 0) (ha : m.acc = 0) (hlim : s.limitAllows m.bitcnt (syms.flatMap s.codeBits).length) :
    decBits s (syms.flatMap s.codeBits) m =
      { m with
        bitcnt := m.bitcnt + BitVec.ofNat 64 (syms.flatMap s.codeBits).length,
        out := m.out ++ syms.map (BitVec.ofNat 16) } := by
  induction syms generalizing m with
  | nil => simp [decBits]
  | cons y rest ih =>
    obtain ⟨hy, hl⟩ := hs y (by simp)
    have hne : s.codeBits y ≠ [] := by
      intro hc
      have := congrArg List.length hc
      simp only [State.codeBits_length, List.length_nil] at this
      exact hl this
    have hlim1 : s.limitAllows m.bitcnt (s.codeBits y).length := by
      intro he
      have := hlim he
      rw [List.flatMap_cons, List.length_append] at this
      omega
    have e1 := decBits_code hv hfit hy (s.codeBits y) hne m hm (by rw [ha, h0]; simp) hlim1 (by rw [h0]; rfl)
    rw [List.flatMap_cons, decBits_append _ _ _ _ hm, e1]
    simp only [hm, Bool.false_eq_true, if_false]
    have hlim2 : s.limitAllows (m.bitcnt + BitVec.ofNat 64 (s.codeBits y).length) (rest.flatMap s.codeBits).length := by
      intro he
      have h1 := hlim he
      have h2 := s.decNbits.isLt
      rw [List.flatMap_cons, List.length_append] at h1
      rw [BitVec.toNat_add, BitVec.toNat_ofNat]
      omega
    rw [ih (fun z hz => hs z (by simp [hz])) _ rfl rfl rfl hlim2]
    simp only [List.map_cons, List.append_assoc, List.singleton_append, List.length_append, h0, ha]
    congr 1
    rw [BitVec.add_assoc]
    congr 1
    apply BitVec.eq_of_toNat_eq
    simp only [BitVec.toNat_add, BitVec.toNat_ofNat]
    omega

/-- In limit mode only the bits before the limit are decoded: the loop over a byte is the loop over those (R190, R194). -/
theorem decBits_take {s : State} (hl : s.limitEn = true) (bs : List Bool) (m : Match) (hm : m.stopped = false) :
    decBits s bs m = decBits s (bs.take (s.decNbits.toNat - m.bitcnt.toNat)) m := by
  induction bs generalizing m with
  | nil => simp
  | cons b bs ih =>
    cases hb : s.beyondLimit m with
    | true => rw [decBits_beyond s _ m hm hb, decBits_beyond s _ m hm hb]
    | false =>
      have hlt : m.bitcnt.toNat < s.decNbits.toNat := by simpa [State.beyondLimit, hl] using hb
      have hcnt : (decBit s b m).bitcnt = m.bitcnt + 1 := by
        rcases decBit_cases s b m with ⟨hc, -⟩ | ⟨-, ⟨y, -, e⟩ | ⟨-, e⟩⟩
        · rw [hb] at hc; cases hc
        · rw [e]
        · rw [e]
      have hnext : (m.bitcnt + 1).toNat = m.bitcnt.toNat + 1 := by
        have h1 := s.decNbits.isLt
        have h2 : (1 : Count).toNat = 1 := rfl
        rw [BitVec.toNat_add, h2]
        omega
      have hk : s.decNbits.toNat - m.bitcnt.toNat = s.decNbits.toNat - (decBit s b m).bitcnt.toNat + 1 := by
        rw [hcnt, hnext]; omega
      rw [hk, List.take_succ_cons]
      simp only [decBits]
      split
      · rfl
      · rename_i hs
        exact ih _ (by simpa using hs)

/-- The bits before the limit are within it, once the count has not passed it. -/
theorem State.limitAllows_take {s : State} {c : Count} (h : c.toNat ≤ s.decNbits.toNat) (bs : List Bool) :
    s.limitAllows c (bs.take (s.decNbits.toNat - c.toNat)).length := by
  intro _
  rw [List.length_take]
  omega

/-- What has been pushed before does not matter to the loop. -/
theorem decBits_out (s : State) (bs : List Bool) (m : Match) (p : List Entry) :
    decBits s bs { m with out := p ++ m.out } =
      { decBits s bs m with out := p ++ (decBits s bs m).out } := by
  induction bs generalizing m with
  | nil => rfl
  | cons b bs ih =>
    have e : decBit s b { m with out := p ++ m.out } = { decBit s b m with out := p ++ (decBit s b m).out } := by
      unfold decBit
      simp only
      split
      · rfl
      · split <;> simp
    simp only [decBits, e]
    split
    · rfl
    · exact ih _

/-- What the decoder's bit loop keeps: the accumulator fits its length, and it stays one that a longer code could match,
or the loop stopped at MAXLEN. A symbol takes at least one bit. -/
theorem decBits_bounds (s : State) (bs : List Bool) (m : Match) (h0 : m.stopped = false) (ha : m.acc < 2 ^ m.accLen)
    (hl : m.accLen = 0 ∨ m.accLen < s.maxLen) :
    (decBits s bs m).acc < 2 ^ (decBits s bs m).accLen ∧
    ((decBits s bs m).stopped = false → (decBits s bs m).accLen = 0 ∨ (decBits s bs m).accLen < s.maxLen) ∧
    (decBits s bs m).accLen ≤ max 1 s.maxLen ∧ (decBits s bs m).out.length ≤ m.out.length + bs.length := by
  induction bs generalizing m with
  | nil => simp only [decBits, ha, hl, List.length_nil]; exact ⟨trivial, fun _ => trivial, by omega, by omega⟩
  | cons b bs ih =>
    simp only [decBits]
    rcases decBit_cases s b m with ⟨hb, he⟩ | ⟨hb, ⟨sym, hs, he⟩ | ⟨hs, he⟩⟩
    · rw [he, if_neg (by simp [h0])]
      have := ih m h0 ha hl
      refine ⟨this.1, this.2.1, this.2.2.1, by simp; omega⟩
    · rw [he, if_neg (by simp [h0])]
      have := ih { m with acc := 0, accLen := 0, bitcnt := m.bitcnt + 1, out := m.out ++ [BitVec.ofNat 16 sym] } h0
        (by simp) (by simp)
      refine ⟨this.1, this.2.1, this.2.2.1, by simp at this ⊢; omega⟩
    · rw [he]
      split
      · rename_i hst
        simp only [decide_eq_true_eq] at hst
        refine ⟨acc_lt ha b, by simp [hst], ?_, by simp⟩
        simp only; omega
      · rename_i hst
        simp only [decide_eq_true_eq, not_le] at hst
        have := ih { m with
          acc := 2 * m.acc + b.toNat, accLen := m.accLen + 1, bitcnt := m.bitcnt + 1,
          stopped := decide (s.maxLen ≤ m.accLen + 1) } (by simpa using hst) (by simpa using acc_lt ha b)
          (by right; simpa using hst)
        refine ⟨this.1, this.2.1, this.2.2.1, by simp at this ⊢; omega⟩

/-- However the accumulator stands, a symbol takes at least one bit. -/
theorem decBits_out_length (s : State) (bs : List Bool) (m : Match) :
    (decBits s bs m).out.length ≤ m.out.length + bs.length := by
  induction bs generalizing m with
  | nil => simp [decBits]
  | cons b bs ih =>
    have h1 : (decBit s b m).out.length ≤ m.out.length + 1 := by
      rcases decBit_cases s b m with ⟨-, he⟩ | ⟨-, ⟨sym, -, he⟩ | ⟨-, he⟩⟩ <;> simp [he]
    simp only [decBits, List.length_cons]
    split
    · omega
    · have := ih (decBit s b m); omega

/-- Two counts of bits, one after the other. -/
theorem count_add (c : Count) (a b : Nat) : c + BitVec.ofNat 64 a + BitVec.ofNat 64 b = c + BitVec.ofNat 64 (a + b) := by
  rw [BitVec.add_assoc]
  congr 1
  apply BitVec.eq_of_toNat_eq
  simp only [BitVec.toNat_add, BitVec.toNat_ofNat]
  omega

theorem State.limitAllows.drop {s : State} {c : Count} {a b : Nat} (h : s.limitAllows c (a + b)) :
    s.limitAllows (c + BitVec.ofNat 64 a) b := by
  intro he
  have h1 := h he
  have h2 := s.decNbits.isLt
  rw [BitVec.toNat_add, BitVec.toNat_ofNat]
  omega

/-- An accumulator the decoder goes on with: empty, or shorter than MAXLEN with no code at its beginning (R194). Some longer
code may still begin with it, or none. -/
def State.mayGrow (s : State) (rest : List Bool) : Prop :=
  rest = [] ∨ (rest.length < s.maxLen ∧ ∀ sym < s.cfg.nsym, (s.codeOf sym).len ≠ 0 → ¬ s.codeBits sym <+: rest)

/-- On a valid table, how a longer code begins is such an accumulator. -/
theorem State.mayGrow_of_begins {s : State} (hv : s.tableValid = true)
    (hfit : ∀ y, (s.codeOf y).val < 2 ^ (s.codeOf y).len) {sym : Nat} (hs : sym < s.cfg.nsym) {rest more : List Bool}
    (hmore : more ≠ []) (h : s.codeBits sym = rest ++ more) : s.mayGrow rest := by
  have hlen := congrArg List.length h
  simp only [State.codeBits_length, List.length_append] at hlen
  have hpos : 0 < more.length := List.length_pos_iff.2 hmore
  have hmax := s.len_le_maxLen hs
  refine .inr ⟨by omega, fun y hy hl hp => ?_⟩
  obtain ⟨tail, ht⟩ := hp
  have hne : y ≠ sym := by
    rintro rfl
    have := congrArg List.length ht
    simp only [State.codeBits_length, List.length_append] at this
    omega
  have hb := begins_of_bits (hfit y) (hfit sym) (more := tail ++ more) (by
    have e : s.codeBits sym = s.codeBits y ++ (tail ++ more) := by rw [h, ← ht, List.append_assoc]
    exact e)
  rw [s.tableValid_iff.1 hv y hy sym hs hne hl (by omega)] at hb
  cases hb

/-- Feeding bits that leave such an accumulator, and complete no code, only keeps them (R194). -/
theorem decBits_rest {s : State} {rest : List Bool} (hr : s.mayGrow rest) (bs : List Bool) (m : Match)
    (hm : m.stopped = false) (hacc : m.acc < 2 ^ m.accLen) (hlim : s.limitAllows m.bitcnt bs.length)
    (h : bitsOf m.accLen m.acc ++ bs = rest) :
    decBits s bs m =
      { m with acc := bitsVal rest, accLen := rest.length, bitcnt := m.bitcnt + BitVec.ofNat 64 bs.length } := by
  induction bs generalizing m with
  | nil =>
    subst h
    cases m
    simp_all [decBits, bitsVal_bitsOf, bitsOf_length, Nat.mod_eq_of_lt]
  | cons b bs ih =>
    have hl := congrArg List.length h
    simp only [List.length_append, bitsOf_length, List.length_cons] at hl
    have hnew : bitsOf (m.accLen + 1) (2 * m.acc + b.toNat) ++ bs = rest := by rw [acc_bits, ← h]; simp
    rcases hr with hr | ⟨hshort, hno⟩
    · simp [hr] at hl
    · rcases decBit_cases s b m with ⟨hc, -⟩ | ⟨-, ⟨y, hy, -⟩ | ⟨-, e⟩⟩
      · rw [hlim.head] at hc; cases hc
      · obtain ⟨hy1, hy2⟩ := State.lookup_sound hy
        exact absurd ⟨bs, by rw [State.codeBits, hy2]; exact hnew⟩ (hno y hy1 (by rw [hy2]; simp))
      · rw [decide_eq_false (by omega : ¬ s.maxLen ≤ m.accLen + 1)] at e
        simp only [decBits, e, Bool.false_eq_true, if_false]
        rw [ih _ rfl (acc_lt hacc b) hlim.tail hnew]
        simp only [List.length_cons, count_add_one, hm]

/-- Feeding bits that complete some codes and then leave an accumulator to go on with (R194): the symbols come out, the rest
stays. -/
theorem decBits_parse {s : State} (hv : s.tableValid = true) (hfit : ∀ y, (s.codeOf y).val < 2 ^ (s.codeOf y).len)
    (syms : List Nat) (hs : ∀ y ∈ syms, y < s.cfg.nsym ∧ (s.codeOf y).len ≠ 0) {rest : List Bool}
    (hr : s.mayGrow rest) (bs : List Bool) (m : Match) (hm : m.stopped = false) (hacc : m.acc < 2 ^ m.accLen)
    (hlim : s.limitAllows m.bitcnt bs.length) (hh : syms = [] ∨ m.accLen < (s.codeBits (syms.headD 0)).length)
    (h : bitsOf m.accLen m.acc ++ bs = syms.flatMap s.codeBits ++ rest) :
    decBits s bs m =
      { m with
        acc := bitsVal rest, accLen := rest.length, bitcnt := m.bitcnt + BitVec.ofNat 64 bs.length,
        out := m.out ++ syms.map (BitVec.ofNat 16) } := by
  cases syms with
  | nil =>
    rw [decBits_rest hr bs m hm hacc hlim (by simpa using h)]
    simp
  | cons y ys =>
    simp only [List.headD_cons, reduceCtorEq, false_or] at hh
    rw [List.flatMap_cons, List.append_assoc, List.append_eq_append_iff] at h
    rcases h with ⟨bs1, e1, e2⟩ | ⟨c, e1, e2⟩
    · subst e2
      have hne : bs1 ≠ [] := by
        rintro rfl
        have := congrArg List.length e1
        simp only [State.codeBits_length, List.append_nil, bitsOf_length] at this hh
        omega
      rw [List.length_append] at hlim
      have l1 : s.limitAllows m.bitcnt bs1.length := fun he => by have := hlim he; omega
      have l2 := hlim.drop
      rw [List.length_append] at l2
      rw [decBits_append _ _ _ _ hm, decBits_code hv hfit (hs y (by simp)).1 bs1 hne m hm hacc l1 e1]
      simp only [hm, Bool.false_eq_true, if_false]
      rw [decBits_append _ _ _ _ rfl, decBits_codes hv hfit ys (fun z hz => hs z (by simp [hz])) _ rfl rfl rfl
        (fun he => by have := l2 he; simp only; omega)]
      simp only [Bool.false_eq_true, if_false]
      rw [decBits_rest hr rest _ rfl (by simp) l2.drop (by simp [bitsOf])]
      simp [count_add, Nat.add_assoc]
    · exfalso
      have := congrArg List.length e1
      simp only [State.codeBits_length, List.length_append, bitsOf_length] at this hh
      omega

end Sys2Proof.Machine
end

