-- ==== Sys2Proof/Laws/PerInstr.lean ====
section
/-! SUPPORT. Statements made once per instruction. Family `WordParts`: the word of a well-formed instruction holds its
opcode in bits [31:24] and its operand fields, every reserved bit 0, in bits [23:0] (30_encoding.md R80). -/

namespace Sys2Proof.Laws.WordParts

def Statement (i : Instr) : Prop :=
  i.wellFormed = true → opcodeField (encode i) = i.opcode ∧ field (encode i) 0 24 = i.operandBits

/-- The two parts of an encoded word, from the bounds on each. -/
theorem of_bounds (i : Instr) : Statement i := by
  intro h
  have h1 := Instr.operandBits_lt h
  have h2 := Instr.opcode_lt i
  have h3 : i.opcode * 2 ^ 24 + i.operandBits < 2 ^ 32 := by omega
  constructor
  · rw [opcodeField, encode, field_ofNat h3]
    omega
  · rw [encode, field_ofNat h3]
    omega

theorem nop : Statement .nop := of_bounds _

theorem softReset : Statement .softReset := of_bounds _

theorem errClr : Statement .errClr := of_bounds _

theorem freqClr : Statement .freqClr := of_bounds _

theorem freqWr (sym : Nat) : Statement (.freqWr sym) := of_bounds _

theorem freqInc (sym : Nat) : Statement (.freqInc sym) := of_bounds _

theorem freqRd (sym : Nat) : Statement (.freqRd sym) := of_bounds _

theorem bldSeed : Statement .bldSeed := of_bounds _

theorem bldStep : Statement .bldStep := of_bounds _

theorem bldFinish : Statement .bldFinish := of_bounds _

theorem pqPeek : Statement .pqPeek := of_bounds _

theorem heapRd (idx : Nat) : Statement (.heapRd idx) := of_bounds _

theorem nodeRd (idx : Nat) : Statement (.nodeRd idx) := of_bounds _

theorem extract : Statement .extract := of_bounds _

theorem codeRd (w sym : Nat) : Statement (.codeRd w sym) := of_bounds _

theorem codeClr : Statement .codeClr := of_bounds _

theorem cbufWr (w : Nat) : Statement (.cbufWr w) := of_bounds _

theorem codeWr (sym : Nat) : Statement (.codeWr sym) := of_bounds _

theorem pkStart : Statement .pkStart := of_bounds _

theorem pkSym (sym : Nat) : Statement (.pkSym sym) := of_bounds _

theorem pkFlush : Statement .pkFlush := of_bounds _

theorem decStart (limit : Bool) : Statement (.decStart limit) := of_bounds _

theorem decByte (byte : Byte) : Statement (.decByte byte) := of_bounds _

theorem decEnd : Statement .decEnd := of_bounds _

end Sys2Proof.Laws.WordParts
end

