-- ==== Sys2Proof/Laws/Steps.lean ====
section
/-! SUPPORT. What one step can do, said once: the engine's step, the host's step, and how a step's end is reached. The
provers cite these instead of unfolding `step`. -/

namespace Sys2Proof.Machine

/-! ### The scheduler's used turn touches nothing a command reads -/

@[simp] theorem State.takeTurn_room (s : State) : s.takeTurn.room = s.room := by simp [State.room]

/-- What the decoder makes of bits depends on the configuration, the code table and the limit alone. -/
theorem decBits_congr {s u : State} (hcfg : u.cfg = s.cfg) (hcodes : u.codes = s.codes) (hlim : u.limitEn = s.limitEn)
    (hn : u.decNbits = s.decNbits) (bs : List Bool) (m : Match) : decBits u bs m = decBits s bs m := by
  have hbit : ∀ b m, decBit u b m = decBit s b m := by
    intro b m
    have hl : u.lookup (m.accLen + 1) (2 * m.acc + b.toNat) = s.lookup (m.accLen + 1) (2 * m.acc + b.toNat) := by
      simp only [State.lookup, State.codeOf, hcfg, hcodes]
    have hx : u.maxLen = s.maxLen := by simp only [State.maxLen, State.codeOf, hcfg, hcodes]
    simp only [decBit, hl, hx, hlim, hn]
  induction bs generalizing m with
  | nil => rfl
  | cons b bs ih => simp only [decBits, hbit, ih]

/-- The room a command needs depends on the configuration, the code table and the streams alone (R66). -/
theorem State.needOf_congr {s u : State} (hcfg : u.cfg = s.cfg) (hcodes : u.codes = s.codes)
    (hpk : u.pkActive = s.pkActive ∧ u.pkAcc = s.pkAcc ∧ u.pkNb = s.pkNb)
    (hdec : u.decActive = s.decActive ∧ u.limitEn = s.limitEn ∧ u.decNbits = s.decNbits ∧ u.acc = s.acc ∧
      u.accLen = s.accLen ∧ u.decBitcnt = s.decBitcnt) (i : Instr) : u.needOf i = s.needOf i := by
  obtain ⟨h1, h2, h3⟩ := hpk
  obtain ⟨k1, k2, k3, k4, k5, k6⟩ := hdec
  cases i <;>
    simp only [State.needOf, State.pkSymChecks, State.noPacker, State.badSym, State.packSym, State.flushEntries,
      State.noDecoder, State.matchByte, State.codeOf, decBits_congr hcfg hcodes k2 k3, hcfg, hcodes, h1, h2, h3, k1, k4,
      k5, k6]

@[simp] theorem State.takeTurn_needOf (s : State) (i : Instr) : s.takeTurn.needOf i = s.needOf i := by
  apply State.needOf_congr <;> simp

theorem State.need_of_ok {c : Word} {i : Instr} (h : decode c = .ok i) (s : State) : s.need c = s.needOf i := by
  simp [State.need, h]

theorem State.need_of_error {c : Word} {why : Illegal} (h : decode c = .error why) (s : State) : s.need c = 0 := by
  simp [State.need, h]

@[simp] theorem State.takeTurn_need (s : State) (c : Word) : s.takeTurn.need c = s.need c := by
  cases h : decode c with
  | ok i => simp [State.need_of_ok h]
  | error why => simp [State.need_of_error h]

/-! ### The engine -/

theorem State.engineStep_ok {c : Word} {i : Instr} (h : decode c = .ok i) (s : State) :
    s.engineStep c = retireOutcome (exec i s) := by
  simp [State.engineStep, h]

theorem State.engineStep_error {c : Word} {why : Illegal} (h : decode c = .error why) (s : State) :
    s.engineStep c = .next (s.raise .eill).retire := by
  simp [State.engineStep, h]

theorem retireOutcome_next {o : Host.Outcome State Fault Refusal} {t : State} (h : retireOutcome o = .next t) :
    ∃ u, o = .next u ∧ t = u.retire := by
  cases o with
  | next u => exact ⟨u, rfl, by injection h with h; exact h.symm⟩
  | fault f => cases h
  | refused r => cases h

/-- An engine step raises EILL on an illegal word, or runs the command; both empty PENDING (R65). -/
theorem State.engineStep_cases {s t : State} {c : Word} (h : s.engineStep c = .next t) :
    (∃ why, decode c = .error why ∧ t = (s.raise .eill).retire) ∨
    (∃ i u, decode c = .ok i ∧ exec i s = .next u ∧ t = u.retire) := by
  cases hd : decode c with
  | error why =>
    rw [State.engineStep_error hd] at h
    injection h with h
    exact .inl ⟨why, rfl, h.symm⟩
  | ok i =>
    rw [State.engineStep_ok hd] at h
    obtain ⟨u, hu, rfl⟩ := retireOutcome_next h
    exact .inr ⟨i, u, rfl, hu, rfl⟩

/-! ### The host -/

theorem State.access_next {s t : State} {width : AccessWidth} {addr : Nat} {act : Nat → State}
    (h : s.access width addr act = .next t) :
    s.inReset = false ∧ ∃ off, windowOffset s.cfg width addr = some off ∧ t = act off := by
  unfold State.access at h
  split at h
  · cases h
  · rename_i hr
    split at h
    · cases h
    · rename_i off hoff
      injection h with h
      exact ⟨by simpa using hr, off, hoff, h.symm⟩

/-- The host reads a register, writes one, or the platform moves the reset input. -/
theorem State.hostOp_cases {s t : State} {op : HostOp} (h : s.hostOp op = .next t) :
    (s.inReset = false ∧ ∃ off, t = s.regRead off) ∨
    (s.inReset = false ∧ ∃ off v, t = s.regWrite off v) ∨
    (t = { s.resetAction with inReset := true }) ∨
    (t = { s with inReset := false }) := by
  cases op with
  | read width addr =>
    obtain ⟨hr, off, -, ht⟩ := State.access_next h
    exact .inl ⟨hr, off, ht⟩
  | write width addr v =>
    obtain ⟨hr, off, -, ht⟩ := State.access_next h
    exact .inr (.inl ⟨hr, off, v, ht⟩)
  | assertReset => injection h with h; exact .inr (.inr (.inl h.symm))
  | releaseReset => injection h with h; exact .inr (.inr (.inr h.symm))

/-- A register write stores an argument, is a CMD write, or is ignored (R62). -/
theorem State.regWrite_cases (s : State) (off : Nat) (v : Word) :
    s.regWrite off v = s.acceptCmd v ∨ s.regWrite off v = { s with arg0 := v } ∨
    s.regWrite off v = { s with arg1 := v } ∨ s.regWrite off v = s := by
  unfold State.regWrite
  split
  · exact .inl rfl
  · split
    · exact .inr (.inl rfl)
    · split
      · exact .inr (.inr (.inl rfl))
      · exact .inr (.inr (.inr rfl))

/-- A CMD write resets, records EBUSY, is discarded by the error lock, or latches (R63). -/
theorem State.acceptCmd_cases (s : State) (c : Word) :
    (c = softResetWord ∧ s.acceptCmd c = s.resetAction) ∨
    (c ≠ softResetWord ∧ s.busy = true ∧ s.acceptCmd c = s.record .ebusy c) ∨
    (c ≠ softResetWord ∧ s.busy = false ∧ (s.errcode ≠ .none ∧ c ≠ errClrWord) ∧ s.acceptCmd c = s) ∨
    (c ≠ softResetWord ∧ s.busy = false ∧ (s.errcode = .none ∨ c = errClrWord) ∧
      s.acceptCmd c = { s with pending := some { cmd := c, a0 := s.arg0, a1 := s.arg1 } }) := by
  unfold State.acceptCmd
  split
  · rename_i h
    exact .inl ⟨h, rfl⟩
  · rename_i hc
    split
    · rename_i hb
      exact .inr (.inl ⟨hc, hb, rfl⟩)
    · rename_i hb
      split
      · rename_i hl
        exact .inr (.inr (.inl ⟨hc, by simpa using hb, hl, rfl⟩))
      · rename_i hl
        exact .inr (.inr (.inr ⟨hc, by simpa using hb, by tauto, rfl⟩))

/-- STATUS is the exact sum of its fields (R25): none reaches the next one's place. -/
theorem State.status_toNat (s : State) : s.status.toNat =
    s.busy.toNat + s.held.toNat * 2 + (s.errcode != .none).toNat * 4 + s.bstate.value * 8 + s.pkActive.toNat * 32 +
      s.decActive.toNat * 64 + s.limitEn.toNat * 128 + s.pkNb.toNat * 256 + (!s.ofifo.isEmpty).toNat * 4096 := by
  have h1 := s.busy.toNat_le
  have h2 := s.held.toNat_le
  have h3 := (s.errcode != .none).toNat_le
  have h4 : s.bstate.value ≤ 2 := by cases s.bstate <;> decide
  have h5 := s.pkActive.toNat_le
  have h6 := s.decActive.toNat_le
  have h7 := s.limitEn.toNat_le
  have h8 := s.pkNb.isLt
  have h9 := (!s.ofifo.isEmpty).toNat_le
  rw [State.status, BitVec.toNat_ofNat]
  simp only [flagAt]
  omega

/-! ### One step -/

/-- A step that answers a next state is the engine's, with room for the command's pushes, or the host's (R64, R65). -/
theorem step_cases {s t : State} (h : step s = .next t) :
    (∃ l, s.pending = some l ∧ s.need l.cmd ≤ s.room ∧ s.takeTurn.engineStep l.cmd = .next t) ∨
    (∃ op rest, s.hostOps = op :: rest ∧ ({ s.takeTurn with hostOps := rest } : State).hostOp op = .next t) := by
  unfold step State.transition at h
  split at h
  · rename_i hg
    split at h
    · rename_i l hl
      refine .inl ⟨l, hl, ?_, h⟩
      simp only [State.engineGoes, State.engineEnabled, hl, Bool.and_eq_true, decide_eq_true_eq] at hg
      exact hg.1
    · cases h
  · split at h
    · rename_i op rest hop
      exact .inr ⟨op, rest, hop, h⟩
    · split at h <;> cases h

end Sys2Proof.Machine
end

