-- ==== Sys2Proof/Tests/Slice0.lean ====
section
/-! SUPPORT. Tests of the model: words and vectors of 95_test_vectors.md and of the rules, and for every obligation that
has hypotheses a state and operands that meet them. -/

namespace Sys2Proof.Tests

open Sys2Proof Sys2Proof.Machine Sys2Proof.Claims

/-! ### Well-formedness: each check refuses an operand one above its field (30_encoding.md R82 to R85) -/

theorem test_sym_largest : symFits 65535 = true := by decide
theorem test_sym_too_large : symFits 65536 = false := by decide
theorem test_idx_largest : idxFits 131071 = true := by decide
theorem test_idx_too_large : idxFits 131072 = false := by decide
theorem test_word_index_largest : wordIndexFits 255 = true := by decide
theorem test_word_index_too_large : wordIndexFits 256 = false := by decide
theorem test_ill_formed_symbols : [Instr.freqWr 65536, .freqInc 65536, .freqRd 65536, .codeWr 65536, .pkSym 65536,
    .codeRd 0 65536].all (fun i => !i.wellFormed) = true := by decide
theorem test_ill_formed_indices : [Instr.heapRd 131072, .nodeRd 131072].all (fun i => !i.wellFormed) = true := by decide
theorem test_ill_formed_word_indices : [Instr.cbufWr 256, .codeRd 256 0].all (fun i => !i.wellFormed) = true := by decide
theorem test_well_formed_largest : [Instr.freqWr 65535, .heapRd 131071, .nodeRd 131071, .codeRd 255 65535, .cbufWr 255,
    .codeWr 65535, .pkSym 65535].all Instr.wellFormed = true := by decide

/-! ### Decoding: a word of every constructor, written from R80 to R89 -/

/-- The word decodes to the command, and the command's word is that one. -/
def isWordOf (c : Word) (i : Instr) : Bool := decode c == .ok i && encode i == c

theorem test_word_nop : isWordOf 0x00000000 .nop = true := by decide
theorem test_word_soft_reset : isWordOf 0x01000000 .softReset = true := by decide
theorem test_word_err_clr : isWordOf 0x02000000 .errClr = true := by decide
theorem test_word_freq_clr : isWordOf 0x10000000 .freqClr = true := by decide
theorem test_word_freq_wr : isWordOf 0x11000061 (.freqWr 0x61) = true := by decide
theorem test_word_freq_inc : isWordOf 0x12000061 (.freqInc 0x61) = true := by decide
theorem test_word_freq_rd : isWordOf 0x1300007A (.freqRd 0x7A) = true := by decide
theorem test_word_bld_seed : isWordOf 0x20000000 .bldSeed = true := by decide
theorem test_word_bld_step : isWordOf 0x21000000 .bldStep = true := by decide
theorem test_word_bld_finish : isWordOf 0x22000000 .bldFinish = true := by decide
theorem test_word_pq_peek : isWordOf 0x23000000 .pqPeek = true := by decide
theorem test_word_heap_rd : isWordOf 0x2401FFFF (.heapRd 0x1FFFF) = true := by decide
theorem test_word_node_rd : isWordOf 0x25010008 (.nodeRd 0x10008) = true := by decide
theorem test_word_extract : isWordOf 0x30000000 .extract = true := by decide
theorem test_word_code_rd : isWordOf 0x31010061 (.codeRd 1 0x61) = true := by decide
theorem test_word_code_clr : isWordOf 0x32000000 .codeClr = true := by decide
theorem test_word_cbuf_wr : isWordOf 0x33000008 (.cbufWr 8) = true := by decide
theorem test_word_code_wr : isWordOf 0x34000062 (.codeWr 0x62) = true := by decide
theorem test_word_pk_start : isWordOf 0x40000000 .pkStart = true := by decide
theorem test_word_pk_sym : isWordOf 0x41000072 (.pkSym 0x72) = true := by decide
theorem test_word_pk_flush : isWordOf 0x42000000 .pkFlush = true := by decide
theorem test_word_dec_start : isWordOf 0x50000000 (.decStart false) = true := by decide
theorem test_word_dec_start_limit : isWordOf 0x50000001 (.decStart true) = true := by decide
theorem test_word_dec_byte : isWordOf 0x5100006E (.decByte 0x6E) = true := by decide
theorem test_word_dec_end : isWordOf 0x52000000 .decEnd = true := by decide

/-- V-E2, V-E5, V-E7, V-E9, V-E10, V-E11: a reserved bit is set (R90). -/
theorem test_reserved_bits : ([0x00000001, 0x11010061, 0x24020000, 0x50000002, 0x510001FF, 0x01000001, 0x33000100,
    0x25800000, 0x52800000] : List Word).all (fun c => decode c == .error .reservedBit) = true := by decide

/-- V-E3, V-E4: no opcode of the map (R91). -/
theorem test_undefined_opcodes : ([0xFF000000, 0x03000000, 0x14000000, 0x26000000, 0x35000000, 0x43000000, 0x53000000]
    : List Word).all (fun c => decode c == .error .undefinedOpcode) = true := by decide

theorem test_table_word : decodeTableWord 32 0x31010061 = some (.codeRd 1 0x61) := by decide
theorem test_table_word_illegal : decodeTableWord 32 0x03000000 = none := by decide

/-! ### Small states -/

/-- 4 symbols, codes of at most 8 bits, a FIFO of 8, the window at 256. -/
def small : State := State.resetWith { nsym := 4, codeMax := 8, ofifoDepth := 8, huffBase := 256 }

/-- A word waits in the latch. -/
def latched (c : Word) (s : State) : State := { s with pending := some { cmd := c, a0 := s.arg0, a1 := s.arg1 } }

/-- The table [0:"0", 1:"10", 2:"11"] of S3, for the ids 0 to 2. -/
def coded : State :=
  { small with codes := [(0, { len := 1, val := 0 }), (1, { len := 2, val := 2 }), (2, { len := 2, val := 3 })] }

/-- An open packer stream with the pending bits "110". -/
def packing : State := { coded with pkActive := true, pkAcc := 6, pkNb := 3 }

/-- An open decoder stream with the pending bit "1". -/
def decoding : State := { coded with decActive := true, acc := 1, accLen := 1 }

/-- The counts 1, 1, 2 of V-B6. -/
def counted : State := { small with freq := [(0, 1), (1, 1), (2, 2)] }

/-- The counts of `counted`, seeded. -/
def seeded : State :=
  { counted with nodes := [.leaf 1 0, .leaf 1 1, .leaf 2 2], heap := [0, 1, 2], bstate := .seeded }

/-- The counts of `counted`, built: node 3 over 0 and 1, node 4 over 2 and 3. -/
def built : State :=
  { counted with
    nodes := [.leaf 1 0, .leaf 1 1, .leaf 2 2, .internal 2 0 1, .internal 4 2 3], heap := [4], root := some 4,
    bstate := .built }

/-- One symbol of count 3, seeded and built (P4). -/
def seededOne : State := { small with nodes := [.leaf 3 1], heap := [0], bstate := .seeded }
def builtOne : State := { seededOne with root := some 0, bstate := .built }

/-- No symbol, seeded and built (V-B8). -/
def seededNone : State := { small with bstate := .seeded }
def builtNone : State := { small with bstate := .built }

/-- `built` where codes may have one bit only, too few for depth 2 (V-X2). -/
def tooDeep : State := { built with cfg := { built.cfg with codeMax := 1 } }

/-- A full FIFO and a partial byte to flush. -/
def full : State := { packing with ofifo := [1, 2, 3, 4, 5, 6, 7, 8] }

/-- What a function of the next state is after a command. -/
def after {α : Type} (i : Instr) (s : State) (f : State → α) : Option α :=
  match exec i s with
  | .next t => some (f t)
  | .fault _ => none
  | .refused _ => none

/-- What a function of the next state is after a step. -/
def afterStep {α : Type} (s : State) (f : State → α) : Option α :=
  match step s with
  | .next t => some (f t)
  | .fault _ => none
  | .refused _ => none

/-! ### Single commands -/

theorem test_nop : after .nop small id = some small := by decide

/-- V-C3. -/
theorem test_err_clr : after .errClr { small with errcode := .enocode, errinfo := 0x41000078 }
    (fun t => (t.errcode, t.errinfo)) = some (.none, 0) := by decide

/-- R101, R251 (executed from a latch: log 14). -/
theorem test_soft_reset : after .softReset { full with arg0 := 7 } id = some small := by decide

/-- V-F5. -/
theorem test_freq_clr : after .freqClr { built with codes := coded.codes } (fun t => (t.freq, t.codes, t.nodes)) =
    some ([], coded.codes, built.nodes) := by decide

theorem test_freq_wr : after (.freqWr 1) (latched 0x11000001 { counted with arg0 := 5 })
    (fun t => (t.freqOf 0, t.freqOf 1, t.freqOf 2)) = some (1, 5, 2) := by decide

/-- V-F3. -/
theorem test_freq_wr_esym : after (.freqWr 4) (latched 0x11000004 counted)
    (fun t => (t.errcode, t.errinfo, t.freq)) = some (.esym, 0x11000004, counted.freq) := by decide

theorem test_freq_inc : after (.freqInc 2) counted (fun t => (t.freqOf 2, t.errcode)) = some (3, .none) := by decide

/-- V-F2. -/
theorem test_freq_inc_eovf : after (.freqInc 0) (latched 0x12000000 { small with freq := [(0, 0xFFFFFFFF)] })
    (fun t => (t.errcode, t.errinfo, t.freqOf 0)) = some (.eovf, 0x12000000, 0xFFFFFFFF) := by decide

/-- V-F4: a count that was never written reads 0. -/
theorem test_freq_rd : after (.freqRd 2) counted (fun t => t.result0) = some 2 := by decide
theorem test_freq_rd_zero : after (.freqRd 3) { counted with result0 := 9 } (fun t => t.result0) = some 0 := by decide

/-- V-B6, counts 2, 1, 1: the heap is [1, 0, 2]. -/
theorem test_bld_seed : after .bldSeed { small with freq := [(0, 2), (1, 1), (2, 1)] }
    (fun t => (t.nodes, t.heap, t.bstate, t.result0)) =
    some ([.leaf 2 0, .leaf 1 1, .leaf 1 2], [1, 0, 2], .seeded, 3) := by decide

/-- V-B7: the exact total exceeds WMAX by one; the earlier tree stays. -/
theorem test_bld_seed_eovf : after .bldSeed (latched 0x20000000 { built with freq := [(0, 0xFFFFFFFF), (1, 1)] })
    (fun t => (t.errcode, t.nodes, t.bstate)) = some (.eovf, built.nodes, .built) := by decide

/-- V-B3 step 1: c (node 2) and d (node 3) become node 5, and H is [1, 4, 0, 5]. -/
theorem test_bld_step : after .bldStep
    { small with
      nodes := [.leaf 5 0x61, .leaf 2 0x62, .leaf 1 0x63, .leaf 1 0x64, .leaf 2 0x72], heap := [2, 3, 1, 0, 4],
      bstate := .seeded }
    (fun t => (t.nodes.getLast?, t.heap, t.result0, t.result1)) =
    some (some (.internal 2 2 3), [1, 4, 0, 5], 5, 2) := by decide

/-- V-B9. -/
theorem test_bld_step_estate : after .bldStep (latched 0x21000000 small) (fun t => (t.errcode, t.errinfo)) =
    some (.estate, 0x21000000) := by decide

/-- V-B6, counts 1, 1, 2. -/
theorem test_bld_finish : after .bldFinish seeded
    (fun t => (t.nodes, t.heap, t.rootReg, t.result0, t.result1)) =
    some (built.nodes, [4], 0x80000004, 2, 4) := by decide

/-- V-B8. -/
theorem test_bld_finish_empty : after .bldFinish seededNone (fun t => (t.bstate, t.rootReg, t.result0, t.result1)) =
    some (.built, 0, 0, 0) := by decide

theorem test_pq_peek : after .pqPeek seeded (fun t => (t.result0, t.result1, t.heap)) = some (0, 1, [0, 1, 2]) := by
  decide
theorem test_pq_peek_estate : after .pqPeek builtNone (fun t => t.errcode) = some .estate := by decide
theorem test_heap_rd : after (.heapRd 2) seeded (fun t => (t.result0, t.result1)) = some (2, 2) := by decide
theorem test_heap_rd_earg : after (.heapRd 3) seeded (fun t => t.errcode) = some .earg := by decide

/-- V-B4 in small: an internal node and a leaf. -/
theorem test_node_rd : after (.nodeRd 4) built (fun t => (t.result0, t.result1, t.result2)) =
    some (4, 0x80000002, 3) := by decide
theorem test_node_rd_leaf : after (.nodeRd 2) { built with result2 := 9 } (fun t => (t.result0, t.result1, t.result2)) =
    some (2, 2, 0) := by decide

/-- V-B6, counts 1, 1, 2: s2 "0", s0 "10", s1 "11". -/
theorem test_extract : after .extract { built with codes := [(3, { len := 1, val := 1 })] }
    (fun t => (t.codes, t.result0, t.result1)) =
    some ([(0, { len := 2, val := 2 }), (1, { len := 2, val := 3 }), (2, { len := 1, val := 0 })], 3, 2) := by decide

/-- V-X2: a leaf deeper than CODE_MAX; the table stays. -/
theorem test_extract_ecodelen : after .extract { tooDeep with codes := [(3, { len := 1, val := 1 })] }
    (fun t => (t.errcode, t.codes)) = some (.ecodelen, [(3, { len := 1, val := 1 })]) := by decide

/-- R153: word 1 of a 33-bit code. -/
theorem test_code_rd : after (.codeRd 1 2)
    { small with cfg := { small.cfg with codeMax := 64 }, codes := [(2, { len := 33, val := 0x100000005 })] }
    (fun t => (t.result0, t.result1)) = some (33, 1) := by decide

/-- V-X7 in small: NCW = 1. -/
theorem test_code_rd_earg : after (.codeRd 1 2) coded (fun t => t.errcode) = some .earg := by decide

theorem test_code_clr : after .codeClr coded (fun t => t.codes) = some [] := by decide

/-- V-X4. -/
theorem test_code_clr_estate : after .codeClr packing (fun t => (t.errcode, t.codes)) = some (.estate, coded.codes) := by
  decide

theorem test_cbuf_wr : after (.cbufWr 0) (latched 0x33000000 { small with arg0 := 0xFF }) (fun t => t.cbufOf 0) =
    some 0xFF := by decide
theorem test_cbuf_wr_earg : after (.cbufWr 1) small (fun t => (t.errcode, t.cbuf)) = some (.earg, []) := by decide

/-- V-X5: CBUF's bits at and above 3 are ignored. -/
theorem test_code_wr : after (.codeWr 1) (latched 0x34000001 { small with arg0 := 3, cbuf := [(0, 0xFF)] })
    (fun t => t.codeOf 1) = some { len := 3, val := 7 } := by decide

/-- V-X6: only a0[15:0] is the length. -/
theorem test_code_wr_low_half : after (.codeWr 1)
    (latched 0x34000001 { small with arg0 := 0x00010001, cbuf := [(0, 3)] }) (fun t => t.codeOf 1) =
    some { len := 1, val := 1 } := by decide

theorem test_pk_start : after .pkStart { coded with ofifo := [7], pkBitcnt := 9 }
    (fun t => (t.pkActive, t.ofifo, t.pkBitcnt)) = some (true, [], 0) := by decide

/-- V-P5. -/
theorem test_pk_start_estate : after .pkStart decoding (fun t => (t.errcode, t.pkActive)) = some (.estate, false) := by
  decide

/-- V-P1's eighth symbol: pending "1000101" and the code "0" of a push 0x8A. -/
theorem test_pk_sym : after (.pkSym 0) { packing with pkAcc := 0x45, pkNb := 7 }
    (fun t => (t.ofifo, t.pkNb, t.pkAcc, t.pkBitcnt)) = some ([0x8A], 0, 0, 1) := by decide

/-- V-P4. -/
theorem test_pk_sym_enocode : after (.pkSym 3) (latched 0x41000003 packing)
    (fun t => (t.errcode, t.errinfo, t.pkNb)) = some (.enocode, 0x41000003, 3) := by decide

/-- V-P1's flush: pending "1101110" is pushed as 0xDC. -/
theorem test_pk_flush : after .pkFlush { packing with pkAcc := 0x6E, pkNb := 7 }
    (fun t => (t.ofifo, t.pkNb, t.pkActive)) = some ([0xDC], 0, false) := by decide

/-- V-P6. -/
theorem test_pk_flush_empty : after .pkFlush { packing with pkAcc := 0, pkNb := 0 } (fun t => (t.ofifo, t.pkActive)) =
    some ([], false) := by decide

/-- R69: the limit is {a1, a0}. -/
theorem test_dec_start : after (.decStart true) (latched 0x50000001 { coded with arg0 := 23, arg1 := 1 })
    (fun t => (t.decActive, t.limitEn, t.decNbits)) = some (true, true, 0x100000017) := by decide

/-- V-D4: {"0", "01"}. -/
theorem test_dec_start_ebadtable : after (.decStart false)
    { small with codes := [(0, { len := 1, val := 0 }), (1, { len := 2, val := 1 })] }
    (fun t => (t.errcode, t.decActive)) = some (.ebadtable, false) := by decide

/-- P3: the bits 0 10 11 0 10 of 0x5A. -/
theorem test_dec_byte : after (.decByte 0x5A) { decoding with acc := 0, accLen := 0 }
    (fun t => (t.ofifo, t.accLen, t.decBitcnt)) = some ([0, 1, 2, 0, 1], 0, 8) := by decide

/-- V-D2: the table {"0", "10"} and the byte 0xC0. -/
theorem test_dec_byte_enomatch : after (.decByte 0xC0)
    (latched 0x510000C0
      { decoding with acc := 0, accLen := 0, codes := [(0, { len := 1, val := 0 }), (1, { len := 2, val := 2 })] })
    (fun t => ((t.errcode, t.errinfo, t.decActive), t.accLen, t.decBitcnt, t.ofifo)) =
    some ((.enomatch, 0x510000C0, false), 2, 2, []) := by decide

/-- V-D1, limit 21: EPARTIAL with residue 2. -/
theorem test_dec_end_epartial : after .decEnd
    (latched 0x52000000 { decoding with limitEn := true, decNbits := 21, decBitcnt := 21, acc := 3, accLen := 2 })
    (fun t => (t.errcode, t.errinfo, t.decResidue, t.decActive)) = some (.epartial, 0x52000000, 2, false) := by decide

/-- V-D1, limit 23 with two bytes: ESHORT. -/
theorem test_dec_end_eshort : after .decEnd { decoding with limitEn := true, decNbits := 23, decBitcnt := 16 }
    (fun t => (t.errcode, t.decResidue)) = some (.eshort, 1) := by decide

/-! ### Steps, accesses and errors -/

/-- V-R1 to V-R5, V-R7 and V-R8. -/
theorem test_registers_at_reset : [0x00, 0x04, 0x08, 0x0C, 0x80, 0x10, 0x30].map State.reset.regValue =
    [0x48554646, 0x00000100, 0x004000FF, 0, 0, 0, 0] := by decide

/-- P6: STATUS is BUSY, OUTWAIT, DEC_ACTIVE and OUT_NONEMPTY. -/
theorem test_status_held : (latched 0x51000000
    { small with
      codes := [(1, { len := 1, val := 0 })], decActive := true, ofifo := List.replicate 8 1 }).status =
    0x00001043 := by decide

/-- R88: the engine runs what is latched, with the latched argument (V-R10). -/
theorem test_step_engine : afterStep { latched 0x11000001 { small with arg0 := 5 } with arg0 := 9 }
    (fun t => (t.freqOf 1, t.pending, t.arg0)) = some (5, none, 9) := by decide

/-- R31, R259: a read of OUT_DATA pops. -/
theorem test_step_pop : afterStep { small with ofifo := [7, 8], hostOps := [.read .word (256 + 0x30)] }
    (fun t => (t.ofifo, t.hostReads)) = some ([8], [0x80000007]) := by decide

/-- V-C6: the error lock discards the command. -/
theorem test_step_locked : afterStep { small with errcode := .estate, hostOps := [.write .word (256 + 0x10) 0] }
    (fun t => (t.pending, t.errcode)) = some (none, .estate) := by decide

/-- V-C8: EBUSY is recorded with the rejected word. -/
theorem test_step_ebusy : afterStep { latched 0x42000000 full with hostOps := [.write .word (256 + 0x10) 0x10000000] }
    (fun t => (t.errcode, t.errinfo, t.pending.isSome)) = some (.ebusy, 0x10000000, true) := by decide

/-- V-C7: SOFT_RESET acts at once, also during a hold. -/
theorem test_step_soft_reset : afterStep { latched 0x42000000 full with hostOps := [.write .word (256 + 0x10) 0x01000000] }
    (fun t => (t.pending, t.ofifo, t.pkActive)) = some (none, [], false) := by decide

/-- V-E2: an illegal word raises EILL with itself in ERRINFO. -/
theorem test_step_illegal : afterStep (latched 0x00000001 small) (fun t => (t.errcode, t.errinfo, t.pending)) =
    some (.eill, 0x00000001, none) := by decide

/-- V-G2, V-G3: ESTATE before ESYM, ESYM before ENOCODE. -/
theorem test_priority : (after (.pkSym 4) small (fun t => t.errcode), after (.pkSym 4) packing (fun t => t.errcode)) =
    (some .estate, some .esym) := by decide

/-- The first error wins (R224). -/
theorem test_first_error : after .bldStep (latched 0x21000000 { small with errcode := .ebusy, errinfo := 5 })
    (fun t => (t.errcode, t.errinfo)) = some (.ebusy, 5) := by decide

theorem test_placed_word : afterStep (State.reset.withFetchWord 32 0x13000005) (fun t => (t.pending, t.errcode)) =
    some (none, .none) := by decide

/-! ### The invariant, checked by evaluation -/

def nodeCheck (nodes : List Node) (n : Nat) : Bool :=
  match nodes[n]? with
  | some (.internal w l r) =>
    decide (l < n ∧ r < n ∧ l ≠ r ∧ w.toNat = (weightAt nodes l).toNat + (weightAt nodes r).toNat)
  | some (.leaf w _) => decide (1 ≤ w.toNat)
  | none => true

def forestCheck (nodes : List Node) (heap : List Nat) : Bool :=
  (List.range nodes.length).all (nodeCheck nodes) &&
  (heap ++ childFields nodes).isPerm (List.range nodes.length) &&
  (List.range heap.length).all (fun i => i == 0 || !less nodes (heapAt heap i) (heapAt heap ((i - 1) / 2))) &&
  decide (queuedTotal nodes heap ≤ wmax)

theorem forestOk_of_check {nodes : List Node} {heap : List Nat} (h : forestCheck nodes heap = true) :
    ForestOk nodes heap := by
  simp only [forestCheck, Bool.and_eq_true, List.all_eq_true, List.mem_range, List.isPerm_iff, Bool.or_eq_true,
    beq_iff_eq, Bool.not_eq_true', decide_eq_true_eq] at h
  obtain ⟨⟨⟨h1, h2⟩, h3⟩, h4⟩ := h
  have hn : ∀ n node, nodes[n]? = some node → n < nodes.length := fun n node e => (List.getElem?_eq_some_iff.1 e).1
  refine ⟨fun n w l r e => ?_, h2, fun i h0 hi => ?_, fun n w sym e => ?_, h4⟩
  · simpa [nodeCheck, e] using h1 n (hn n _ e)
  · rcases h3 i hi with h | h
    · omega
    · exact h
  · simpa [nodeCheck, e] using h1 n (hn n _ e)

def codesCheck (limit : Nat) (t : Table CodeEntry) : Bool :=
  t.all (fun e => decide (e.2.len ≤ limit ∧ e.2.val < 2 ^ e.2.len))

theorem codes_of_check {limit : Nat} {t : Table CodeEntry} (h : codesCheck limit t = true) (sym : Nat) :
    (Table.get CodeEntry.absent t sym).len ≤ limit ∧
    (Table.get CodeEntry.absent t sym).val < 2 ^ (Table.get CodeEntry.absent t sym).len := by
  induction t with
  | nil => simp [Table.get, CodeEntry.absent]
  | cons e rest ih =>
    simp only [codesCheck, List.all_cons, Bool.and_eq_true, decide_eq_true_eq] at h
    simp only [Table.get]
    split
    · exact h.1
    · exact ih h.2

theorem codesFit_of_check {s : State} (h : codesCheck s.cfg.codeMax s.codes = true) : CodesFit s :=
  fun sym => (codes_of_check h sym).2

def latchCheck (s : State) : Bool :=
  match s.pending with
  | none => true
  | some l => decide (s.inReset = false ∧ l.cmd ≠ softResetWord ∧
      (s.errcode = .none ∨ s.errcode = .ebusy ∨ l.cmd = errClrWord))

def invariantCheck (s : State) : Bool :=
  decide s.cfg.Valid && Table.wf 0 s.cfg.nsym s.freq && Table.wf CodeEntry.absent s.cfg.nsym s.codes &&
  codesCheck s.cfg.codeMax s.codes && Table.wf 0 s.cfg.ncw s.cbuf &&
  decide (s.nodes.length ≤ s.cfg.nnodeMax ∧ s.heap.length ≤ s.cfg.heapMax) && forestCheck s.nodes s.heap &&
  decide ((leafSyms s.nodes).Nodup ∧ ∀ sym ∈ leafSyms s.nodes, sym < s.cfg.nsym) &&
  decide (s.bstate = .empty → s.nodes = [] ∧ s.heap = []) &&
  decide (s.root = if s.bstate = .built then s.heap.head? else none) &&
  decide (s.bstate = .built → s.heap.length ≤ 1) && decide (s.pkAcc.toNat < 2 ^ s.pkNb.toNat) &&
  decide (s.accLen ≤ s.cfg.codeMax ∧ s.acc < 2 ^ s.accLen) &&
  decide (s.decActive = true → s.tableValid = true ∧ (s.accLen = 0 ∨ s.accLen < s.maxLen)) &&
  decide (s.limitEn = false → s.decNbits = 0) && decide (s.decResidue ≤ s.cfg.codeMax) &&
  decide (¬ (s.pkActive = true ∧ s.decActive = true)) && decide (s.ofifo.length ≤ s.cfg.ofifoDepth) &&
  decide (s.errcode = .none → s.errinfo = 0) && latchCheck s

theorem invariant_of_check {s : State} (h : invariantCheck s = true) : Invariant s := by
  simp only [invariantCheck, Bool.and_eq_true, decide_eq_true_eq] at h
  obtain ⟨⟨⟨⟨⟨⟨⟨⟨⟨⟨⟨⟨⟨⟨⟨⟨⟨⟨⟨h1, h2⟩, h3⟩, h4⟩, h5⟩, h6⟩, h7⟩, h8⟩, h9⟩, h10⟩, h11⟩, h12⟩, h13⟩, h14⟩, h15⟩, h16⟩, h17⟩,
    h18⟩, h19⟩, h20⟩ := h
  refine ⟨h1, h2, h3, fun sym => codes_of_check h4 sym, h5, h6, forestOk_of_check h7, h8, h9, h10, h11, h12, h13, h14,
    h15, h16, h17, h18, h19, fun l hl => ?_, fun hr => ?_⟩
  · simp only [latchCheck, hl, decide_eq_true_eq] at h20
    exact h20.2
  · cases hp : s.pending with
    | none => rfl
    | some l =>
      simp only [latchCheck, hp, decide_eq_true_eq] at h20
      rw [hr] at h20
      exact absurd h20.1 (by decide)

/-! ### Witnesses: states and operands that meet the hypotheses of the obligations -/

/-- A step is a next state. -/
def steps (s : State) : Bool := (afterStep s (fun _ => ())).isSome

/-- A command gives a next state. -/
def runs (i : Instr) (s : State) : Bool := (after i s (fun _ => ())).isSome

theorem next_of_steps {s : State} (h : steps s = true) : ∃ t, step s = .next t := by
  unfold steps afterStep at h
  cases hs : step s with
  | next t => exact ⟨t, rfl⟩
  | fault r => simp [hs] at h
  | refused r => simp [hs] at h

theorem next_of_runs {i : Instr} {s : State} (h : runs i s = true) : ∃ t, exec i s = .next t := by
  unfold runs after at h
  cases hs : exec i s with
  | next t => exact ⟨t, rfl⟩
  | fault r => simp [hs] at h
  | refused r => simp [hs] at h

/-! Encoding. -/

theorem test_witness_DecodeEncodeAgree : (Instr.codeRd 255 65535).wellFormed = true ∧ (Instr.heapRd 131071).wellFormed = true ∧
    (Instr.cbufWr 255).wellFormed = true ∧ (Instr.decByte 255).wellFormed = true ∧ Instr.nop.wellFormed = true := by
  decide
theorem test_witness_DecodedWordsAreEncodings : decode 0x31FFFFFF = .ok (.codeRd 255 65535) := by decide
theorem test_witness_IllegalWordsRaiseEill : decode 0xFFFFFFFF = .error .undefinedOpcode ∧
    decode 0x52FFFFFF = .error .reservedBit := by decide
theorem test_witness_formats : opcodeField 0x00FFFFFF = 0x00 ∧ opcodeField 0x11FFFFFF = 0x11 ∧
    opcodeField 0x31FFFFFF = 0x31 ∧ opcodeField 0x24FFFFFF = 0x24 ∧ opcodeField 0x33FFFFFF = 0x33 ∧
    opcodeField 0x50FFFFFF = 0x50 ∧ opcodeField 0x51FFFFFF = 0x51 := by decide

/-! Steps and agents. -/

/-- The flush needs exactly the one free place. -/
theorem test_witness_StepRunsTheLatchedCommand :
    let s := latched 0x42000000 { packing with ofifo := List.replicate 7 0 }
    s.pending = some { cmd := 0x42000000, a0 := 0, a1 := 0 } ∧ decode 0x42000000 = .ok .pkFlush ∧
      s.need 0x42000000 ≤ s.room ∧ s.need 0x42000000 = 1 ∧ s.room = 1 ∧ s.hostOps = [] := by decide
theorem test_witness_StepRunsTheLatchedCommand_contested :
    let s := { latched 0 small with hostOps := [.releaseReset], turns := [.engine] }
    s.pending = some { cmd := 0, a0 := 0, a1 := 0 } ∧ decode 0 = .ok .nop ∧ s.need 0 ≤ s.room ∧
      s.turns.head? ≠ some .host := by decide
/-- An illegal word on a full FIFO: it pushes nothing. -/
theorem test_witness_StepRunsTheLatchedCommand_illegal :
    let s := latched 0x42000001 full
    s.pending = some { cmd := 0x42000001, a0 := 0, a1 := 0 } ∧ decode 0x42000001 = .error .reservedBit ∧
      s.need 0x42000001 ≤ s.room ∧ s.room = 0 ∧ s.hostOps = [] := by decide
theorem test_witness_WithoutEngineTheHostSteps_held :
    let s := latched 0x42000000 full
    s.pending = some { cmd := 0x42000000, a0 := 0, a1 := 0 } ∧ s.room < s.need 0x42000000 ∧ s.room = 0 ∧
      s.hostOps = [] ∧ ({ s with hostOps := [.releaseReset] } : State).hostOps = .releaseReset :: [] := by decide
theorem test_witness_WithoutEngineTheHostSteps_idle : small.pending = none ∧ small.hostOps = [] ∧
    ({ small with hostOps := [.assertReset] } : State).hostOps = .assertReset :: [] := by decide
theorem test_witness_EitherAgentMayStep :
    let s := { latched 0x42000000 { packing with ofifo := List.replicate 7 0 } with hostOps := [.releaseReset] }
    s.pending = some { cmd := 0x42000000, a0 := 0, a1 := 0 } ∧ s.need 0x42000000 ≤ s.room ∧
      s.hostOps = .releaseReset :: [] := by decide
theorem test_witness_PushesAreTheNeed_words : decode 0x42000000 = .ok .pkFlush ∧
    decode 0x42000001 = .error .reservedBit := by decide
theorem test_witness_PushesAreTheNeed : (∃ t, exec (.pkSym 1) { packing with pkNb := 7 } = .next t) ∧
    (∃ t, exec .pkFlush packing = .next t) ∧ (∃ t, exec (.decByte 0) decoding = .next t) ∧
    (∃ t, exec .pkStart coded = .next t) :=
  ⟨next_of_runs (by decide), next_of_runs (by decide), next_of_runs (by decide), next_of_runs (by decide)⟩
theorem test_witness_EmptyFifoLiftsEveryHold :
    let s := latched 0x42000000 packing
    Invariant s ∧ s.pending = some { cmd := 0x42000000, a0 := 0, a1 := 0 } ∧ s.ofifo = [] :=
  ⟨invariant_of_check (by decide), by decide, by decide⟩
/-- A drain, a reset, and an access that leaves the hold. -/
theorem test_witness_OnlyDrainingLiftsAHold :
    let s := fun op => { latched 0x42000000 full with hostOps := [op] }
    ((s (.read .word (256 + 0x30))).held = true ∧ ∃ t, step (s (.read .word (256 + 0x30))) = .next t) ∧
    ((s .assertReset).held = true ∧ ∃ t, step (s .assertReset) = .next t) ∧
    ((s (.read .word (256 + 0x34))).held = true ∧ ∃ t, step (s (.read .word (256 + 0x34))) = .next t) :=
  ⟨⟨by decide, next_of_steps (by decide)⟩, ⟨by decide, next_of_steps (by decide)⟩, by decide, next_of_steps (by decide)⟩
theorem test_witness_EveryCommandCompletes : Invariant small ∧ Invariant seeded ∧ Invariant built :=
  ⟨invariant_of_check (by decide), invariant_of_check (by decide), invariant_of_check (by decide)⟩

/-! The register window. -/

theorem test_witness_RegisterMap : small.root = none ∧ built.root = some 4 ∧ small.ofifo = [] ∧
    full.ofifo = 1 :: [2, 3, 4, 5, 6, 7, 8] ∧ 0x6C ≤ 0x6C ∧ 0x6C ≤ 0xFC := by decide
theorem test_witness_HostReads_drawn : (latched 0 small).inReset = false ∧ (latched 0 small).pending ≠ none ∧
    [0x1C, 0x24, 0x38, 0x68].all (fun off => decide (off < 256 ∧ off % 4 = 0)) = true := by decide
theorem test_witness_HostReads_exact : small.inReset = false ∧ ¬ small.pending ≠ none ∧
    [0x00, 0x18, 0x28, 0x30, 0x34, 0x6C, 0xFC].all (fun off => decide (off < 256 ∧ off % 4 = 0)) = true := by decide
theorem test_witness_HostWrites : small.inReset = false ∧
    [0x00, 0x0C, 0x14, 0x18, 0xFC].all (fun off => decide (off < 256 ∧ off % 4 = 0 ∧ off ≠ 0x10)) = true := by decide
theorem test_witness_CommandAcceptance : small.inReset = false ∧ (latched 0 small).inReset = false := by decide
theorem test_witness_OtherAccessesAreRefused_inReset : ({ small with inReset := true } : State).inReset = true := by
  decide
/-- One below the window, one above it, and a misaligned address inside; a byte access anywhere. -/
theorem test_witness_OtherAccessesAreRefused_unsupported : small.inReset = false ∧ AccessWidth.byte ≠ .word ∧
    255 < small.cfg.huffBase ∧ small.cfg.huffBase + 256 ≤ 512 ∧ (509 - small.cfg.huffBase) % 4 ≠ 0 := by decide
/-- An access that leaves the latch, the engine's own step, and a reset. -/
theorem test_witness_LatchIsStable :
    let s := { latched 0x42000000 full with hostOps := [.write .word (256 + 0x14) 9] }
    let u := latched 0x42000000 packing
    let v := { latched 0x42000000 full with hostOps := [.write .word (256 + 0x10) 0x01000000] }
    (s.pending = some { cmd := 0x42000000, a0 := 0, a1 := 0 } ∧ ∃ t, step s = .next t) ∧
    (u.pending = some { cmd := 0x42000000, a0 := 0, a1 := 0 } ∧ ∃ t, step u = .next t) ∧
    (v.pending = some { cmd := 0x42000000, a0 := 0, a1 := 0 } ∧ ∃ t, step v = .next t) :=
  ⟨⟨by decide, next_of_steps (by decide)⟩, ⟨by decide, next_of_steps (by decide)⟩, by decide, next_of_steps (by decide)⟩
theorem test_witness_FifoKeepsOrder : (∃ t, step (latched 0x42000000 packing) = .next t) ∧
    (∃ t, step { full with hostOps := [.read .word (256 + 0x30)] } = .next t) ∧
    (∃ t, step { full with hostOps := [.assertReset] } = .next t) ∧
    ∃ t, step (latched 0x40000000 coded) = .next t :=
  ⟨next_of_steps (by decide), next_of_steps (by decide), next_of_steps (by decide), next_of_steps (by decide)⟩

/-! Reset, invariants and errors. -/

theorem test_witness_ResetValues : (latched 0 coded).inReset = false := by decide
/-- The least and the greatest configuration. -/
theorem test_witness_ResetSatisfiesInvariant :
    ({ nsym := 1, codeMax := 1, ofifoDepth := 8, huffBase := 0 } : Config).Valid ∧
    ({ nsym := 65536, codeMax := 8192, ofifoDepth := 65535, huffBase := 256 } : Config).Valid := by decide
theorem test_witness_StepKeepsInvariant :
    (Invariant (latched 0x22000000 seeded) ∧ ∃ t, step (latched 0x22000000 seeded) = .next t) ∧
    (Invariant (latched 0x5100005A { coded with decActive := true }) ∧
      ∃ t, step (latched 0x5100005A { coded with decActive := true }) = .next t) :=
  ⟨⟨invariant_of_check (by decide), next_of_steps (by decide)⟩,
    ⟨invariant_of_check (by decide), next_of_steps (by decide)⟩⟩
theorem test_witness_FirstErrorStays :
    let s := { latched 0x02000000 small with errcode := .estate, errinfo := 0x21000000 }
    s.errcode ≠ .none ∧ ∃ t, step s = .next t :=
  ⟨by decide, next_of_steps (by decide)⟩
theorem test_witness_ErrorsArePrecise :
    (small.errcode = .none ∧ after .bldStep small (fun t => t.errcode) = some .estate) ∧
    (decoding.errcode = .none ∧ after (.decByte 0)
      { decoding with codes := [(0, { len := 1, val := 0 })] } (fun t => t.errcode) = some .enomatch) ∧
    after .decEnd { decoding with limitEn := true } (fun t => t.errcode) = some .epartial := by decide
theorem test_witness_OnlyTheNamedCommandsWrite : (∃ t, exec .bldFinish seeded = .next t) ∧ Instr.bldFinish ≠ .softReset :=
  ⟨next_of_runs (by decide), by decide⟩
theorem test_witness_TableLockedWhileStreamOpen :
    afterStep (latched 0x32000000 packing) (fun t => t.pkActive) = some true ∧
    afterStep (latched 0x50000000 coded) (fun t => t.decActive) = some true := by decide

/-! Commands on the counts and the tree. -/

theorem test_witness_symbols : small.cfg.nsym ≤ 4 ∧ 3 < small.cfg.nsym := by decide
theorem test_witness_FreqIncCounts : 0 < small.cfg.nsym ∧
    ({ small with freq := [(0, 0xFFFFFFFF)] } : State).freqOf 0 = 0xFFFFFFFF ∧
    ({ small with freq := [(0, 0xFFFFFFFE)] } : State).freqOf 0 ≠ 0xFFFFFFFF := by decide
theorem test_witness_BldSeedSeedsLeaves :
    ((List.range 4).map (fun sym => (({ small with freq := [(0, 0xFFFFFFFF), (1, 1)] } : State).freqOf sym).toNat)).sum =
      2 ^ 32 ∧
    ((List.range 4).map (fun sym => (({ small with freq := [(0, 0xFFFFFFFE), (1, 1)] } : State).freqOf sym).toNat)).sum =
      2 ^ 32 - 1 := by decide
theorem test_witness_BldStepMergesOnce : small.bstate ≠ .seeded ∧ seededOne.heap.length < 2 ∧
    seeded.bstate = .seeded ∧ 2 ≤ seeded.heap.length ∧ ∀ n ∈ seeded.heap, n < seeded.nodes.length := by decide
theorem test_witness_MergeTakesTheTwoLeast : Invariant seeded ∧ seeded.bstate = .seeded ∧ 2 ≤ seeded.heap.length :=
  ⟨invariant_of_check (by decide), by decide, by decide⟩
theorem test_witness_BldFinishMergesAll : built.bstate ≠ .seeded ∧ seeded.bstate = .seeded ∧
    (∀ n ∈ seeded.heap, n < seeded.nodes.length) ∧ seededNone.bstate = .seeded ∧ seededNone.heap = [] := by decide
theorem test_witness_BuiltTreeIsComplete :
    (Invariant seededNone ∧ seededNone.bstate = .seeded ∧ leafCount seededNone.nodes = 0) ∧
    (Invariant seededOne ∧ seededOne.bstate = .seeded ∧ 1 ≤ leafCount seededOne.nodes) ∧
    (Invariant seeded ∧ seeded.bstate = .seeded ∧ 1 ≤ leafCount seeded.nodes) :=
  ⟨⟨invariant_of_check (by decide), by decide, by decide⟩, ⟨invariant_of_check (by decide), by decide, by decide⟩,
    ⟨invariant_of_check (by decide), by decide, by decide⟩⟩
theorem test_witness_TreeIgnoresHeapArrangement : Invariant seeded ∧ Invariant { seeded with heap := [0, 2, 1] } ∧
    [0, 2, 1].Perm seeded.heap ∧ seeded.bstate = .seeded :=
  ⟨invariant_of_check (by decide), invariant_of_check (by decide), by decide, by decide⟩
theorem test_witness_QueueReads : small.heap = [] ∧ seeded.heap = 0 :: [1, 2] ∧ seeded.nodes[0]? = some (Node.leaf 1 0) ∧
    seeded.heap.length ≤ 3 ∧ seeded.heap[2]? = some 2 ∧ seeded.nodes[2]? = some (Node.leaf 2 2) := by decide
theorem test_witness_NodeRdReportsAnEntry : built.nodes.length ≤ 5 ∧ built.nodes[2]? = some (Node.leaf 2 2) ∧
    built.nodes[4]? = some (Node.internal 4 2 3) := by decide

/-! The code table. -/

/-- Every path of `built` has at most two edges. -/
theorem built_paths (bits : List Bool) (n : Nat) (h : follow built.nodes bits 4 = some n) : bits.length ≤ 2 := by
  match bits, h with
  | [], _ => simp
  | [_], _ => simp
  | [_, _], _ => simp
  | false :: _ :: _ :: _, h => simp [follow, built] at h
  | true :: false :: _ :: _, h => simp [follow, built] at h
  | true :: true :: _ :: _, h => simp [follow, built] at h

theorem built_depthFits : ∀ r, built.root = some r → DepthFits built r := by
  intro r hr bits n w sym hf _
  have h4 : r = 4 := by
    have : some 4 = some r := hr
    injection this with this
    exact this.symm
  subst h4
  have := built_paths bits n hf
  exact le_trans this (by decide)

theorem test_witness_ExtractRecordsPaths_estate : seeded.bstate ≠ .built ∧ packing.pkActive = true := by decide
theorem test_witness_ExtractRecordsPaths_ecodelen :
    Invariant tooDeep ∧ tooDeep.bstate = .built ∧ tooDeep.pkActive = false ∧ tooDeep.decActive = false ∧
      tooDeep.root = some 4 ∧ ¬ DepthFits tooDeep 4 := by
  refine ⟨invariant_of_check (by decide), by decide, by decide, by decide, by decide, fun h => ?_⟩
  exact absurd (h [true, false] 0 1 0 (by decide) (by decide)) (by decide)
theorem test_witness_ExtractRecordsPaths :
    (Invariant built ∧ built.bstate = .built ∧ built.pkActive = false ∧ built.decActive = false ∧
      built.root = some 4 ∧ 3 ∉ leafSyms built.nodes ∧ built.nodes[4]? = some (Node.internal 4 2 3) ∧
      follow built.nodes [true, false] 4 = some 0 ∧ built.nodes[0]? = some (Node.leaf 1 0)) ∧
    (∀ r, built.root = some r → DepthFits built r) :=
  ⟨⟨invariant_of_check (by decide), by decide, by decide, by decide, by decide, by decide, by decide, by decide,
    by decide⟩, built_depthFits⟩
theorem one_depthFits : ∀ r, builtOne.root = some r → DepthFits builtOne r := by
  intro r hr bits n w sym hf _
  match bits, hf with
  | [], _ => simp
  | b :: rest, hf =>
    have h0 : r = 0 := by
      have : some 0 = some r := hr
      injection this with this
      exact this.symm
    subst h0
    simp [follow, builtOne, seededOne] at hf
theorem test_witness_ExtractRecordsPaths_one : Invariant builtOne ∧ builtOne.bstate = .built ∧
    builtOne.pkActive = false ∧ builtOne.decActive = false ∧ builtOne.root = some 0 ∧
    builtOne.nodes[0]? = some (Node.leaf 3 1) ∧ (∀ r, builtOne.root = some r → DepthFits builtOne r) :=
  ⟨invariant_of_check (by decide), by decide, by decide, by decide, by decide, by decide, one_depthFits⟩
/-- The hypotheses of ExtractedCodeIsCompleteAndPrefixFree and of ExtractedCodeCost, with three leaves and with one. -/
theorem test_witness_ExtractedCode :
    (Invariant built ∧ built.bstate = .built ∧ built.pkActive = false ∧ built.decActive = false ∧
      (∃ t, exec .extract built = .next t) ∧ 2 ≤ leafCount built.nodes) ∧
    (∀ r, built.root = some r → DepthFits built r) ∧
    (Invariant builtOne ∧ builtOne.bstate = .built ∧ builtOne.pkActive = false ∧ builtOne.decActive = false ∧
      (∃ t, exec .extract builtOne = .next t) ∧ leafCount builtOne.nodes = 1) ∧
    (∀ r, builtOne.root = some r → DepthFits builtOne r) :=
  ⟨⟨invariant_of_check (by decide), by decide, by decide, by decide, next_of_runs (by decide), by decide⟩, built_depthFits,
    ⟨invariant_of_check (by decide), by decide, by decide, by decide, next_of_runs (by decide), by decide⟩, one_depthFits⟩
/-- CODE_RD and CBUF_WR: NCW = 1, so word 0 is the last one and word 1 is out of range. -/
theorem test_witness_CodeRdReports : coded.cfg.nsym ≤ 4 ∧ 3 < coded.cfg.nsym ∧ (coded.cfg.codeMax + 31) / 32 ≤ 1 ∧
    0 < (coded.cfg.codeMax + 31) / 32 := by decide
theorem test_witness_CodeClrClears : packing.pkActive = true ∧ decoding.decActive = true ∧ coded.pkActive = false ∧
    coded.decActive = false := by decide
theorem test_witness_CodeWrStores : coded.pkActive = false ∧ coded.decActive = false ∧ coded.cfg.nsym ≤ 4 ∧
    3 < coded.cfg.nsym ∧ coded.cfg.codeMax < (latched 0 { coded with arg0 := 9 }).a0.toNat % 2 ^ 16 ∧
    (latched 0 { coded with arg0 := 0x10008 }).a0.toNat % 2 ^ 16 ≤ coded.cfg.codeMax := by decide

/-! Streams. -/

def prefixCheck (s : State) : Bool :=
  (List.range s.cfg.nsym).all (fun x => (List.range s.cfg.nsym).all (fun y =>
    x == y || (s.codeOf x).len == 0 || (s.codeOf y).len == 0 ||
      !decide ((s.codeOf x).len ≤ (s.codeOf y).len ∧
        (s.codeOf y).val / 2 ^ ((s.codeOf y).len - (s.codeOf x).len) = (s.codeOf x).val)))

theorem prefixFree_iff_check (s : State) : PrefixFree s ↔ prefixCheck s = true := by
  simp only [PrefixFree, prefixCheck, List.all_eq_true, List.mem_range, Bool.or_eq_true, beq_iff_eq,
    Bool.not_eq_true', decide_eq_false_iff_not]
  constructor
  · intro h x hx y hy
    by_cases h1 : x = y
    · simp [h1]
    · by_cases h2 : (s.codeOf x).len = 0
      · simp [h2]
      · by_cases h3 : (s.codeOf y).len = 0
        · simp [h3]
        · exact .inr (h x hx y hy h1 h2 h3)
  · intro h x hx y hy h1 h2 h3
    rcases h x hx y hy with ((h | h) | h) | h
    · exact absurd h h1
    · exact absurd h h2
    · exact absurd h h3
    · exact h

theorem coded_prefixFree : PrefixFree coded := (prefixFree_iff_check _).2 (by decide)
theorem coded_fit : CodesFit coded := codesFit_of_check (by decide)

theorem test_witness_PkStartOpens : packing.pkActive = true ∧ decoding.decActive = true ∧ coded.pkActive = false ∧
    coded.decActive = false := by decide
theorem test_witness_PkSymAppendsTheCode : coded.pkActive = false ∧ packing.pkActive = true ∧ packing.cfg.nsym ≤ 4 ∧
    3 < packing.cfg.nsym ∧ (packing.codeOf 3).len = 0 ∧ (packing.codeOf 2).len ≠ 0 ∧
    packing.pkAcc.toNat < 2 ^ packing.pkNb.toNat := by decide
/-- The greatest partial byte, and none. -/
theorem test_witness_PkFlushPadsAndCloses : coded.pkActive = false ∧ packing.pkActive = true ∧
    (127 : BitVec 7).toNat < 2 ^ (7 : BitVec 3).toNat ∧ (0 : BitVec 7).toNat < 2 ^ (0 : BitVec 3).toNat := by decide
theorem test_witness_PackedStreamIsTheCodes : coded.pkActive = false ∧ coded.decActive = false ∧
    ∀ sym ∈ [0, 1, 2, 0, 1], sym < coded.cfg.nsym ∧ (coded.codeOf sym).len ≠ 0 := by decide
theorem test_witness_DecStartOpens_prefixFree : coded.pkActive = false ∧ coded.decActive = false ∧ PrefixFree coded :=
  ⟨by decide, by decide, coded_prefixFree⟩
/-- Two equal codes (V-D4). -/
theorem test_witness_DecStartOpens_invalid :
    ¬ PrefixFree { coded with codes := [(0, { len := 1, val := 1 }), (1, { len := 1, val := 1 })] } := by
  rw [prefixFree_iff_check]
  decide
/-- The pending bit "1" and the byte 01011010: "10", "10", "11", "0", "10". -/
theorem test_witness_DecByteDecodes : decoding.decActive = true ∧ PrefixFree decoding ∧ CodesFit decoding ∧
    decoding.acc < 2 ^ decoding.accLen ∧
    (∀ sym ∈ [1, 1, 2, 0, 1], sym < decoding.cfg.nsym ∧ (decoding.codeOf sym).len ≠ 0) ∧ Unfinished decoding [] ∧
    decoding.accLen < (codeBits decoding ([1, 1, 2, 0, 1].headD 0)).length ∧
    bitsOf decoding.accLen decoding.acc ++ bitsWithinLimit decoding 0x5A = [1, 1, 2, 0, 1].flatMap (codeBits decoding) ++ [] :=
  ⟨by decide, coded_prefixFree, coded_fit, by decide, by decide, .inl rfl, by decide, by decide⟩
/-- The same pending bit and byte with the limit n bits on. -/
def cut (n : Nat) : State := { decoding with limitEn := true, decNbits := decoding.decBitcnt + BitVec.ofNat 64 n }
/-- The limit after the first bit, "10", and before the last one, "10", "10", "11", "0" and the beginning "1". -/
theorem test_witness_DecByteDecodes_cut :
    (∀ n, (cut n).decActive = true ∧ PrefixFree (cut n) ∧ CodesFit (cut n) ∧ (cut n).acc < 2 ^ (cut n).accLen) ∧
    ((∀ sym ∈ [1], sym < (cut 1).cfg.nsym ∧ ((cut 1).codeOf sym).len ≠ 0) ∧ Unfinished (cut 1) [] ∧
      (cut 1).accLen < (codeBits (cut 1) ([1].headD 0)).length ∧
      bitsOf (cut 1).accLen (cut 1).acc ++ bitsWithinLimit (cut 1) 0x5A = [1].flatMap (codeBits (cut 1)) ++ []) ∧
    ((∀ sym ∈ [1, 1, 2, 0], sym < (cut 7).cfg.nsym ∧ ((cut 7).codeOf sym).len ≠ 0) ∧ Unfinished (cut 7) [true] ∧
      (cut 7).accLen < (codeBits (cut 7) ([1, 1, 2, 0].headD 0)).length ∧
      bitsOf (cut 7).accLen (cut 7).acc ++ bitsWithinLimit (cut 7) 0x5A =
        [1, 1, 2, 0].flatMap (codeBits (cut 7)) ++ [true]) :=
  ⟨fun _ => ⟨rfl, coded_prefixFree, coded_fit, (by decide : decoding.acc < 2 ^ decoding.accLen)⟩, ⟨by decide, .inl rfl, by decide, by decide⟩, by decide,
    .inr ⟨by decide, 1, by decide, by decide⟩, by decide, by decide⟩
/-- No symbol completes in a byte of a 9-bit code, and the bits are exactly within the limit. -/
def long : State :=
  { small with
    cfg := { small.cfg with codeMax := 9 }, codes := [(0, { len := 9, val := 0x1FF })], decActive := true,
    limitEn := true, decNbits := 8 }
theorem test_witness_DecByteDecodes_partial : long.decActive = true ∧ PrefixFree long ∧ CodesFit long ∧
    long.acc < 2 ^ long.accLen ∧ Unfinished long (byteBits 0xFF) ∧
    bitsOf long.accLen long.acc ++ bitsWithinLimit long 0xFF = [].flatMap (codeBits long) ++ byteBits 0xFF := by
  refine ⟨by decide, (prefixFree_iff_check _).2 (by decide), codesFit_of_check (by decide), by decide, ?_, by decide⟩
  exact .inr ⟨by decide, 0, by decide, by decide⟩
theorem test_witness_DecByteDecodes_beyond :
    let s := { long with decBitcnt := 8 }
    s.decActive = true ∧ s.limitEn = true ∧ s.decNbits.toNat ≤ s.decBitcnt.toNat := by decide
theorem test_witness_DecByteStopsAtNoMatch_estate : coded.decActive = false := by decide
/-- V-D2: the table {"0", "10"} and the byte 11000000 stop at the second bit. -/
def shortTable : State :=
  { small with decActive := true, codes := [(0, { len := 1, val := 0 }), (1, { len := 2, val := 2 })] }
/-- The same with the limit right after the failing bit. -/
def shortLimit : State := { shortTable with limitEn := true, decNbits := 2 }
theorem shortTable_prefixFree : PrefixFree shortTable := (prefixFree_iff_check _).2 (by decide)
theorem shortTable_fit : CodesFit shortTable := codesFit_of_check (by decide)
theorem test_witness_DecByteStopsAtNoMatch : shortTable.decActive = true ∧ PrefixFree shortTable ∧ CodesFit shortTable ∧
    shortTable.acc < 2 ^ shortTable.accLen ∧ Unfinished shortTable [true] ∧
    bitsWithinLimit shortTable 0xC0 = [true] ++ true :: [false, false, false, false, false, false] ∧
    bitsOf shortTable.accLen shortTable.acc ++ [true] = [].flatMap (codeBits shortTable) ++ [true] ∧
    (∀ sym < shortTable.cfg.nsym, codeBits shortTable sym ≠ [true] ++ [true]) ∧
    (∀ sym < shortTable.cfg.nsym, (shortTable.codeOf sym).len ≤ [true].length + 1) :=
  ⟨by decide, shortTable_prefixFree, shortTable_fit, by decide, .inr ⟨by decide, 1, by decide, by decide⟩, by decide,
    by decide, by decide, by decide⟩
theorem test_witness_DecByteStopsAtNoMatch_limit : shortLimit.decActive = true ∧ PrefixFree shortLimit ∧
    CodesFit shortLimit ∧ shortLimit.acc < 2 ^ shortLimit.accLen ∧ Unfinished shortLimit [true] ∧
    bitsWithinLimit shortLimit 0xC0 = [true] ++ true :: [] ∧
    bitsOf shortLimit.accLen shortLimit.acc ++ [true] = [].flatMap (codeBits shortLimit) ++ [true] ∧
    (∀ sym < shortLimit.cfg.nsym, codeBits shortLimit sym ≠ [true] ++ [true]) ∧
    (∀ sym < shortLimit.cfg.nsym, (shortLimit.codeOf sym).len ≤ [true].length + 1) :=
  ⟨by decide, shortTable_prefixFree, shortTable_fit, by decide, .inr ⟨by decide, 1, by decide, by decide⟩, by decide,
    by decide, by decide, by decide⟩
/-- The table {"0", "100"}, in limit mode with n bits: no code begins with "11", which is shorter than MAXLEN. -/
def dead (n : Nat) : State :=
  { small with
    decActive := true, limitEn := true, decNbits := BitVec.ofNat 64 n,
    codes := [(0, { len := 1, val := 0 }), (1, { len := 3, val := 4 })] }
theorem dead_prefixFree : PrefixFree (dead 2) ∧ PrefixFree (dead 8) :=
  ⟨(prefixFree_iff_check _).2 (by decide), (prefixFree_iff_check _).2 (by decide)⟩
theorem dead_fit : CodesFit (dead 2) ∧ CodesFit (dead 8) := ⟨codesFit_of_check (by decide), codesFit_of_check (by decide)⟩
/-- Two bits "11" are kept without an error. -/
theorem test_witness_DecByteDecodes_dead : (dead 2).decActive = true ∧ PrefixFree (dead 2) ∧ CodesFit (dead 2) ∧
    (dead 2).acc < 2 ^ (dead 2).accLen ∧ Unfinished (dead 2) [true, true] ∧
    bitsOf (dead 2).accLen (dead 2).acc ++ bitsWithinLimit (dead 2) 0xC0 =
      [].flatMap (codeBits (dead 2)) ++ [true, true] :=
  ⟨by decide, dead_prefixFree.1, dead_fit.1, by decide, .inr ⟨by decide, 1, by decide, by decide⟩, by decide⟩
/-- The byte 11000000 stops at its third bit. -/
theorem test_witness_DecByteStopsAtNoMatch_dead : (dead 8).decActive = true ∧ PrefixFree (dead 8) ∧ CodesFit (dead 8) ∧
    (dead 8).acc < 2 ^ (dead 8).accLen ∧ Unfinished (dead 8) [true, true] ∧
    bitsWithinLimit (dead 8) 0xC0 = [true, true] ++ false :: [false, false, false, false, false] ∧
    bitsOf (dead 8).accLen (dead 8).acc ++ [true, true] = [].flatMap (codeBits (dead 8)) ++ [true, true] ∧
    (∀ sym < (dead 8).cfg.nsym, codeBits (dead 8) sym ≠ [true, true] ++ [false]) ∧
    (∀ sym < (dead 8).cfg.nsym, ((dead 8).codeOf sym).len ≤ [true, true].length + 1) :=
  ⟨by decide, dead_prefixFree.2, dead_fit.2, by decide, .inr ⟨by decide, 1, by decide, by decide⟩, by decide,
    by decide, by decide, by decide⟩
/-- Neither error, ESHORT at one bit below the limit, EPARTIAL at the limit. -/
theorem test_witness_DecEndTerminates : coded.decActive = false ∧ decoding.decActive = true ∧ decoding.limitEn = false ∧
    ((7 : Count).toNat < (8 : Count).toNat) ∧ ¬ ((8 : Count).toNat < (8 : Count).toNat) ∧ 0 < decoding.accLen := by decide

/-- The table `coded` with the limit of "0 10 11 0 10", 8 bits, in the latch. -/
def limited : State := { coded with pending := some { cmd := 0, a0 := 8, a1 := 0 } }
theorem test_witness_LimitModeRoundTrip : limited.errcode = .none ∧ limited.pkActive = false ∧
    limited.decActive = false ∧ PrefixFree limited ∧ CodesFit limited ∧
    (∀ sym ∈ [0, 1, 2, 0, 1], sym < limited.cfg.nsym ∧ (limited.codeOf sym).len ≠ 0) ∧
    limited.a1.toNat * 2 ^ 32 + limited.a0.toNat = ([0, 1, 2, 0, 1].flatMap (codeBits limited)).length ∧
    ∃ t, execAll (.pkStart :: ([0, 1, 2, 0, 1].map Instr.pkSym ++ [.pkFlush])) limited = .next t ∧
      t.ofifo = [(0x5A : Byte)].map (fun y => BitVec.ofNat 16 y.toNat) :=
  ⟨by decide, by decide, by decide, coded_prefixFree, coded_fit, by decide, by decide, _, rfl, by decide⟩
/-- One symbol "0" leaves seven padding bits: z = 0, d0 = 1. -/
theorem test_witness_WholeByteRoundTrip : coded.errcode = .none ∧ coded.pkActive = false ∧ coded.decActive = false ∧
    PrefixFree coded ∧ CodesFit coded ∧ (∀ sym ∈ [0], sym < coded.cfg.nsym ∧ (coded.codeOf sym).len ≠ 0) ∧
    0 < coded.cfg.nsym ∧ 0 < 1 ∧ coded.codeOf 0 = { len := 1, val := 0 } ∧
    ∃ t, execAll (.pkStart :: ([0].map Instr.pkSym ++ [.pkFlush])) coded = .next t ∧
      t.ofifo = [(0x00 : Byte)].map (fun y => BitVec.ofNat 16 y.toNat) :=
  ⟨by decide, by decide, by decide, coded_prefixFree, coded_fit, by decide, by decide, by decide, by decide, _, rfl,
    by decide⟩

end Sys2Proof.Tests
end

section
/-! SUPPORT. What a command can do to the state, said once: the relation `Effect` has one constructor per outcome of a command,
and `exec_effect` ties it to the model's `exec`. -/

namespace Sys2Proof.Machine

/-- `Effect s i t`: the command i, executed on s, ends in t. One constructor for the commands that stop at a failed check, and
one for each way a command's rule is carried out, with what its checks have established. -/
inductive Effect (s : State) : Instr → State → Prop where
  | error (i : Instr) (e : ErrCode) (he : e ≠ .none) : Effect s i (s.raise e)
  | nop : Effect s .nop s
  | softReset : Effect s .softReset s.resetAction
  | errClr : Effect s .errClr s.clearError
  | freqClr : Effect s .freqClr { s with freq := [] }
  | freqWr (sym : Nat) (hsym : sym < s.cfg.nsym) : Effect s (.freqWr sym) (s.setFreq sym s.a0)
  | freqInc (sym : Nat) (hsym : sym < s.cfg.nsym) (hmax : s.freqOf sym ≠ 0xFFFFFFFF) :
      Effect s (.freqInc sym) (s.setFreq sym (s.freqOf sym + 1))
  | freqRd (sym : Nat) (hsym : sym < s.cfg.nsym) : Effect s (.freqRd sym) { s with result0 := s.freqOf sym }
  | bldSeed (f : Forest) (hf : f = seedLeaves s (List.range s.cfg.nsym) ([], [])) (htotal : s.freqTotal ≤ wmax) :
      Effect s .bldSeed { s with
        nodes := f.1, heap := f.2, root := none, bstate := .seeded, result0 := BitVec.ofNat 32 f.1.length }
  | bldStep (f : Forest) (hf : f = merge (s.nodes, s.heap)) (hphase : s.bstate = .seeded) (htwo : 2 ≤ s.heap.length) :
      Effect s .bldStep { s with
        nodes := f.1, heap := f.2, result0 := BitVec.ofNat 32 s.nodes.length, result1 := weightAt f.1 s.nodes.length }
  | bldFinish (f : Forest) (merges : Nat) (w : Word) (hf : mergeAll s.heap.length (s.nodes, s.heap) = (f, merges))
      (hw : w = (f.2.head?.map (weightAt f.1)).getD 0) (hphase : s.bstate = .seeded) :
      Effect s .bldFinish { s with
        nodes := f.1, heap := f.2, root := f.2.head?, bstate := .built, result0 := BitVec.ofNat 32 merges, result1 := w }
  | pqPeek (node : Node) (hnode : s.nodes[heapAt s.heap 0]? = some node) :
      Effect s .pqPeek { s with result0 := BitVec.ofNat 32 (heapAt s.heap 0), result1 := node.weight }
  | heapRd (idx : Nat) (node : Node) (hnode : s.nodes[heapAt s.heap idx]? = some node) :
      Effect s (.heapRd idx) { s with result0 := BitVec.ofNat 32 (heapAt s.heap idx), result1 := node.weight }
  | nodeRdLeaf (idx : Nat) (w : Word) (sym : Nat) (hnode : s.nodes[idx]? = some (.leaf w sym)) :
      Effect s (.nodeRd idx) { s with result0 := w, result1 := BitVec.ofNat 32 sym, result2 := 0 }
  | nodeRdInternal (idx : Nat) (w : Word) (l r : Nat) (hnode : s.nodes[idx]? = some (.internal w l r)) :
      Effect s (.nodeRd idx)
        { s with result0 := w, result1 := 0x80000000 + BitVec.ofNat 32 l, result2 := BitVec.ofNat 32 r }
  | extract (leaves : List (Nat × CodeEntry)) (hleaves : s.treeCodes = some leaves) (hphase : s.bstate = .built)
      (hpk : s.pkActive = false) (hdec : s.decActive = false) (hlen : ∀ e ∈ leaves, e.2.len ≤ s.cfg.codeMax) :
      Effect s .extract (s.installCodes (tableOf leaves))
  | codeRd (w sym : Nat) : Effect s (.codeRd w sym) { s with
      result0 := BitVec.ofNat 32 (s.codeOf sym).len,
      result1 := BitVec.ofNat 32 ((s.codeOf sym).val / 2 ^ (32 * w)) }
  | codeClr (hpk : s.pkActive = false) (hdec : s.decActive = false) : Effect s .codeClr { s with codes := [] }
  | cbufWr (w : Nat) (hw : w < s.cfg.ncw) : Effect s (.cbufWr w) (s.setCbuf w s.a0)
  | codeWr (sym : Nat) (hpk : s.pkActive = false) (hdec : s.decActive = false) (hsym : sym < s.cfg.nsym)
      (hlen : s.lengthArg ≤ s.cfg.codeMax) :
      Effect s (.codeWr sym) (s.setCode sym { len := s.lengthArg, val := s.cbufValue % 2 ^ s.lengthArg })
  | pkStart (hpk : s.pkActive = false) (hdec : s.decActive = false) :
      Effect s .pkStart { s with ofifo := [], pkAcc := 0, pkNb := 0, pkBitcnt := 0, pkActive := true }
  | pkSym (sym : Nat) (hchecks : firstError (s.pkSymChecks sym) = none) :
      Effect s (.pkSym sym) { s.pushAll ((s.packSym sym).1.map byteEntry) with
        pkAcc := (s.packSym sym).2.1.setWidth 7, pkNb := BitVec.ofNat 3 (s.packSym sym).2.2,
        pkBitcnt := s.pkBitcnt + BitVec.ofNat 64 (s.codeOf sym).len }
  | pkFlush (hpk : s.pkActive = true) :
      Effect s .pkFlush { s.pushAll s.flushEntries with pkAcc := 0, pkNb := 0, pkActive := false }
  | decStart (limit : Bool) (hpk : s.pkActive = false) (hdec : s.decActive = false) (hvalid : s.tableValid = true) :
      Effect s (.decStart limit) { s with
        ofifo := [], acc := 0, accLen := 0, decBitcnt := 0, decResidue := 0, limitEn := limit,
        decNbits := if limit then s.limitArg else 0, decActive := true }
  | decByte (byte : Byte) (m : Match) (hm : m = s.matchByte byte) (hdec : s.decActive = true)
      (hgo : m.stopped = false) :
      Effect s (.decByte byte)
        { s.pushAll m.out with acc := m.acc, accLen := m.accLen, decBitcnt := m.bitcnt }
  | decByteNoMatch (byte : Byte) (m : Match) (hm : m = s.matchByte byte) (hdec : s.decActive = true)
      (hstop : m.stopped = true) :
      Effect s (.decByte byte) (State.raise
        { s.pushAll m.out with acc := m.acc, accLen := m.accLen, decBitcnt := m.bitcnt, decActive := false } .enomatch)
  | decEnd (hdec : s.decActive = true) (hend : s.endError = none) :
      Effect s .decEnd { s with decResidue := s.accLen, acc := 0, accLen := 0, decActive := false }
  | decEndError (e : ErrCode) (hdec : s.decActive = true) (hend : s.endError = some e) (he : e ≠ .none) :
      Effect s .decEnd (State.raise { s with decResidue := s.accLen, acc := 0, accLen := 0, decActive := false } e)

/-- A check that fails is one of the list, so its code is recorded as the list gives it (R223). -/
theorem firstError_mem {checks : List (Bool × ErrCode)} {e : ErrCode} (h : firstError checks = some e) :
    (true, e) ∈ checks := by
  induction checks with
  | nil => simp at h
  | cons c rest ih =>
    obtain ⟨bad, e'⟩ := c
    cases bad with
    | false => exact List.mem_cons_of_mem _ (ih (by simpa using h))
    | true => simp_all

/-- A guarded command is an error of its checks, or the effect with every check passed. -/
theorem Effect.of_guarded {s t : State} {i : Instr} {checks : List (Bool × ErrCode)}
    {effect : Host.Outcome State Fault Refusal} (h : s.guarded checks effect = .next t)
    (hne : ∀ c ∈ checks, c.2 ≠ .none) (heff : (∀ c ∈ checks, c.1 = false) → effect = .next t → Effect s i t) :
    Effect s i t := by
  rcases State.guarded_next h with ⟨e, he, rfl⟩ | ⟨hpass, hnext⟩
  · exact .error i e (hne _ (firstError_mem he))
  · exact heff hpass hnext

/-- A queued entry that is reported is defined (R130, R131). -/
theorem State.reportQueued_next {s t : State} {n : Nat} (h : s.reportQueued n = .next t) :
    ∃ node, s.nodes[n]? = some node ∧ t = { s with result0 := BitVec.ofNat 32 n, result1 := node.weight } := by
  unfold State.reportQueued at h
  cases hn : s.nodes[n]? with
  | none => simp [hn] at h
  | some node =>
    rw [hn] at h
    cases h
    exact ⟨node, rfl, rfl⟩

theorem execBldSeed_effect {s t : State} (h : execBldSeed s = .next t) : Effect s .bldSeed t := by
  refine .of_guarded h (by simp) fun hpass hnext => ?_
  cases hnext
  exact .bldSeed _ rfl (by simpa using hpass)

theorem execBldStep_effect {s t : State} (h : execBldStep s = .next t) : Effect s .bldStep t := by
  refine .of_guarded h (by simp) fun hpass hnext => ?_
  obtain ⟨hphase, htwo⟩ : s.bstate = .seeded ∧ 1 < s.heap.length := by simpa using hpass
  split at hnext
  · cases hnext
    exact .bldStep _ rfl hphase htwo
  · cases hnext

theorem execBldFinish_effect {s t : State} (h : execBldFinish s = .next t) : Effect s .bldFinish t := by
  refine .of_guarded h (by simp) fun hpass hnext => ?_
  split at hnext
  · cases hnext
    refine .bldFinish _ _ _ rfl ?_ (by simpa using hpass)
    cases (mergeAll s.heap.length (s.nodes, s.heap)).1.2.head? <;> rfl
  · cases hnext

theorem execPqPeek_effect {s t : State} (h : execPqPeek s = .next t) : Effect s .pqPeek t := by
  refine .of_guarded h (by simp) fun _ hnext => ?_
  obtain ⟨node, hnode, rfl⟩ := State.reportQueued_next hnext
  exact .pqPeek node hnode

theorem execHeapRd_effect {s t : State} {idx : Nat} (h : execHeapRd idx s = .next t) : Effect s (.heapRd idx) t := by
  refine .of_guarded h (by simp) fun _ hnext => ?_
  obtain ⟨node, hnode, rfl⟩ := State.reportQueued_next hnext
  exact .heapRd idx node hnode

theorem execNodeRd_effect {s t : State} {idx : Nat} (h : execNodeRd idx s = .next t) : Effect s (.nodeRd idx) t := by
  unfold execNodeRd at h
  split at h <;> cases h
  case h_1 => exact .error _ .earg (by simp)
  case h_2 w sym hnode => exact .nodeRdLeaf idx w sym hnode
  case h_3 w l r hnode => exact .nodeRdInternal idx w l r hnode

theorem execExtract_effect {s t : State} (h : execExtract s = .next t) : Effect s .extract t := by
  refine .of_guarded h (by simp [State.streamOpen]) fun hpass hnext => ?_
  obtain ⟨hphase, hpk, hdec⟩ : s.bstate = .built ∧ s.pkActive = false ∧ s.decActive = false := by
    simpa [State.streamOpen] using hpass
  split at hnext
  · cases hnext
  · rename_i leaves hleaves
    refine .of_guarded hnext (by simp) fun hlen hnext => ?_
    cases hnext
    exact .extract leaves hleaves hphase hpk hdec (by simpa using hlen)

theorem execPkSym_effect {s t : State} {sym : Nat} (h : execPkSym sym s = .next t) : Effect s (.pkSym sym) t := by
  refine .of_guarded h (by simp [State.pkSymChecks, State.noPacker, State.badSym]) fun hpass hnext => ?_
  cases hnext
  exact .pkSym sym (firstError_none.2 hpass)

theorem execDecByte_effect {s t : State} {byte : Byte} (h : execDecByte byte s = .next t) :
    Effect s (.decByte byte) t := by
  refine .of_guarded h (by simp [State.noDecoder]) fun hpass hnext => ?_
  have hdec : s.decActive = true := by simpa [State.noDecoder] using hpass
  cases hnext
  split
  · rename_i hstop
    exact .decByteNoMatch byte _ rfl hdec hstop
  · rename_i hgo
    exact .decByte byte _ rfl hdec (by simpa using hgo)

theorem State.endError_ne_none {s : State} {e : ErrCode} (h : s.endError = some e) : e ≠ .none := by
  have := firstError_mem h
  simp only [List.mem_cons, Prod.mk.injEq, List.not_mem_nil, or_false] at this
  rcases this with ⟨-, rfl⟩ | ⟨-, rfl⟩ <;> decide

theorem execDecEnd_effect {s t : State} (h : execDecEnd s = .next t) : Effect s .decEnd t := by
  refine .of_guarded h (by simp [State.noDecoder]) fun hpass hnext => ?_
  have hdec : s.decActive = true := by simpa [State.noDecoder] using hpass
  cases hnext
  split
  · rename_i e hend
    exact .decEndError e hdec hend (State.endError_ne_none hend)
  · rename_i hend
    exact .decEnd hdec hend

/-- A command that answers a next state did one of the outcomes of `Effect`. -/
theorem exec_effect {i : Instr} {s t : State} (h : exec i s = .next t) : Effect s i t := by
  cases i with
  | nop => cases h; exact .nop
  | softReset => cases h; exact .softReset
  | errClr => cases h; exact .errClr
  | freqClr => cases h; exact .freqClr
  | freqWr sym =>
    refine .of_guarded h (by simp [State.badSym]) fun hpass hnext => ?_
    cases hnext
    exact .freqWr sym (by simpa [State.badSym] using hpass)
  | freqInc sym =>
    refine .of_guarded h (by simp [State.badSym]) fun hpass hnext => ?_
    obtain ⟨hsym, hmax⟩ : sym < s.cfg.nsym ∧ s.freqOf sym ≠ 0xFFFFFFFF := by simpa [State.badSym] using hpass
    cases hnext
    exact .freqInc sym hsym hmax
  | freqRd sym =>
    refine .of_guarded h (by simp [State.badSym]) fun hpass hnext => ?_
    cases hnext
    exact .freqRd sym (by simpa [State.badSym] using hpass)
  | bldSeed => exact execBldSeed_effect h
  | bldStep => exact execBldStep_effect h
  | bldFinish => exact execBldFinish_effect h
  | pqPeek => exact execPqPeek_effect h
  | heapRd idx => exact execHeapRd_effect h
  | nodeRd idx => exact execNodeRd_effect h
  | extract => exact execExtract_effect h
  | codeRd w sym =>
    refine .of_guarded h (by simp [State.badSym, State.badWord]) fun _ hnext => ?_
    cases hnext
    exact .codeRd w sym
  | codeClr =>
    refine .of_guarded h (by simp [State.streamOpen]) fun hpass hnext => ?_
    obtain ⟨hpk, hdec⟩ : s.pkActive = false ∧ s.decActive = false := by simpa [State.streamOpen] using hpass
    cases hnext
    exact .codeClr hpk hdec
  | cbufWr w =>
    refine .of_guarded h (by simp [State.badWord]) fun hpass hnext => ?_
    cases hnext
    exact .cbufWr w (by simpa [State.badWord] using hpass)
  | codeWr sym =>
    refine .of_guarded h (by simp [State.streamOpen, State.badSym]) fun hpass hnext => ?_
    obtain ⟨⟨hpk, hdec⟩, hsym, hlen⟩ :
        (s.pkActive = false ∧ s.decActive = false) ∧ sym < s.cfg.nsym ∧ s.lengthArg ≤ s.cfg.codeMax := by
      simpa [State.streamOpen, State.badSym] using hpass
    cases hnext
    exact .codeWr sym hpk hdec hsym hlen
  | pkStart =>
    refine .of_guarded h (by simp [State.streamOpen]) fun hpass hnext => ?_
    obtain ⟨hpk, hdec⟩ : s.pkActive = false ∧ s.decActive = false := by simpa [State.streamOpen] using hpass
    cases hnext
    exact .pkStart hpk hdec
  | pkSym sym => exact execPkSym_effect h
  | pkFlush =>
    refine .of_guarded h (by simp [State.noPacker]) fun hpass hnext => ?_
    cases hnext
    exact .pkFlush (by simpa [State.noPacker] using hpass)
  | decStart limit =>
    refine .of_guarded h (by simp [State.streamOpen]) fun hpass hnext => ?_
    obtain ⟨⟨hpk, hdec⟩, hvalid⟩ : (s.pkActive = false ∧ s.decActive = false) ∧ s.tableValid = true := by
      simpa [State.streamOpen] using hpass
    cases hnext
    exact .decStart limit hpk hdec hvalid
  | decByte byte => exact execDecByte_effect h
  | decEnd => exact execDecEnd_effect h

/-! ### What a command writes -/

/-- Settles O27: by the outcomes of each command, whose states differ from the start in the named elements only. -/
theorem onlyTheNamedCommandsWrite : Obligations.OnlyTheNamedCommandsWrite := by
  intro i s t h hreset
  cases exec_effect h with
  | softReset => exact absurd rfl hreset
  | _ => simp [State.clearError, State.installCodes]

end Sys2Proof.Machine
end

section
/-! SUPPORT. The invariant, part by part: what each command, the host and a reset make of it. -/

namespace Sys2Proof.Machine

/-! ### Reset -/

/-- The reset state of a valid configuration is a good state (R46, R48). -/
theorem Invariant.resetWith {cfg : Config} (h : cfg.Valid) : Invariant (State.resetWith cfg) where
  cfgValid := h
  freqForm := Table.wf_nil _ _
  codesForm := Table.wf_nil _ _
  codesFit _ := ⟨Nat.zero_le _, Nat.one_pos⟩
  cbufForm := Table.wf_nil _ _
  capacity := ⟨Nat.zero_le _, Nat.zero_le _⟩
  forestOk := forestOk_nil
  leavesOk := ⟨List.nodup_nil, by simp [State.resetWith, leafSyms]⟩
  phaseEmpty _ := ⟨rfl, rfl⟩
  rootOk := rfl
  builtOk h := nomatch h
  packerOk := Nat.one_pos
  decoderOk := ⟨Nat.zero_le _, Nat.one_pos⟩
  streamOk h := nomatch h
  limitOk _ := rfl
  residueOk := Nat.zero_le _
  oneStream h := nomatch h.1
  fifoFits := Nat.zero_le _
  infoOk _ := rfl
  latchOk _ h := nomatch h
  resetOk _ := rfl

/-- The reset action leads from a good state, whatever the reset input, to a good state (R251). -/
theorem Invariant.resetAction {s : State} (h : Invariant s) : Invariant s.resetAction :=
  { Invariant.resetWith h.cfgValid with resetOk := fun _ => rfl }

/-! ### Errors, the latch and the scheduler -/

theorem Invariant.retire {s : State} (h : Invariant s) : Invariant s.retire :=
  { h with latchOk := fun _ hl => (by cases hl), resetOk := fun _ => rfl }

/-- Raising an error and retiring the command (R65, R224). -/
theorem Invariant.raise_retire {s : State} (h : Invariant s) {e : ErrCode} (he : e ≠ .none) :
    Invariant (s.raise e).retire := by
  rcases s.raise_cases e with ⟨-, hr⟩ | ⟨-, hr⟩
  · rw [hr]; exact h.retire
  · rw [hr]
    exact { h.retire with infoOk := fun hn => absurd hn he, latchOk := fun _ hl => by cases hl }

theorem Invariant.takeTurn {s : State} (h : Invariant s) : Invariant s.takeTurn := by
  unfold State.takeTurn
  split
  · exact { h with }
  · exact h

/-! ### The builder -/

/-- A new node store with its heap, in a phase past EMPTY: what the builder commands have to establish (R38, R39, R48). -/
theorem Invariant.withForest {s : State} (h : Invariant s) {nodes : List Node} {heap : List Nat} {root : Option Nat}
    {phase : Phase} (hforest : ForestOk nodes heap)
    (hleaves : (leafSyms nodes).Nodup ∧ ∀ sym ∈ leafSyms nodes, sym < s.cfg.nsym) (hphase : phase ≠ .empty)
    (hroot : root = if phase = .built then heap.head? else none) (hbuilt : phase = .built → heap.length ≤ 1) :
    Invariant { s with nodes := nodes, heap := heap, root := root, bstate := phase } :=
  { h with
    capacity := hforest.capacity hleaves.1 hleaves.2
    forestOk := hforest
    leavesOk := hleaves
    phaseEmpty := fun hp => absurd hp hphase
    rootOk := hroot
    builtOk := hbuilt }

/-- The seeded forest and its leaves are good, whatever was built before (R126). -/
theorem seedLeaves_good {s : State} (htotal : s.freqTotal ≤ wmax) :
    let f := seedLeaves s (List.range s.cfg.nsym) ([], [])
    ForestOk f.1 f.2 ∧ (leafSyms f.1).Nodup ∧ ∀ sym ∈ leafSyms f.1, sym < s.cfg.nsym := by
  obtain ⟨hnodes, hforest⟩ := seedLeaves_spec s (List.range s.cfg.nsym) forestOk_nil rfl (by
    simpa [queuedTotal, State.freqTotal] using htotal)
  refine ⟨hforest, ?_⟩
  rw [hnodes, List.nil_append, leafSyms_seedNodes]
  exact ⟨List.nodup_range.filter _, fun sym hm => List.mem_range.1 (List.mem_filter.1 hm).1⟩

/-- Merging allocates internal nodes, so the leaves stay as they are (R125). -/
theorem leafSyms_append_internals (nodes : List Node) {more : List Node}
    (hm : ∀ node ∈ more, ∃ w l r, node = Node.internal w l r) : leafSyms (nodes ++ more) = leafSyms nodes := by
  have hmore : leafSyms more = [] := by
    rw [leafSyms, List.filterMap_eq_nil_iff]
    intro node hn
    obtain ⟨w, l, r, rfl⟩ := hm node hn
    rfl
  rw [leafSyms, List.filterMap_append]
  exact (congrArg _ hmore).trans (List.append_nil _)

theorem Invariant.bldSeed {s : State} (h : Invariant s) (r0 : Word) (htotal : s.freqTotal ≤ wmax) :
    let f := seedLeaves s (List.range s.cfg.nsym) ([], [])
    Invariant { s with nodes := f.1, heap := f.2, root := none, bstate := .seeded, result0 := r0 } := by
  obtain ⟨hforest, hleaves⟩ := seedLeaves_good htotal
  exact { h.withForest (phase := .seeded) hforest hleaves (by simp) rfl (by simp) with }

theorem Invariant.bldStep {s : State} (h : Invariant s) (r0 r1 : Word) (hphase : s.bstate = .seeded)
    (htwo : 2 ≤ s.heap.length) :
    let f := merge (s.nodes, s.heap)
    Invariant { s with nodes := f.1, heap := f.2, result0 := r0, result1 := r1 } := by
  obtain ⟨a, b, rest, heap, he, -, -, -, -, -, hforest⟩ := merge_spec h.forestOk htwo
  have hroot := h.rootOk
  simp only [hphase, reduceCtorEq, if_false] at hroot
  rw [he]
  exact { h.withForest (root := s.root) (phase := s.bstate) hforest (by rw [leafSyms_internal]; exact h.leavesOk)
    (by simp [hphase]) (by simp [hphase, hroot]) (by simp [hphase]) with }

theorem Invariant.bldFinish {s : State} (h : Invariant s) (r0 r1 : Word) :
    let f := (mergeAll s.heap.length (s.nodes, s.heap)).1
    Invariant { s with
      nodes := f.1, heap := f.2, root := f.2.head?, bstate := .built, result0 := r0, result1 := r1 } := by
  obtain ⟨hforest, hlen, -, ⟨more, hnodes, -, hmore⟩, -⟩ := mergeAll_spec s.heap.length h.forestOk (Nat.le_succ _)
  exact { h.withForest (phase := .built) hforest
    (by rw [hnodes, leafSyms_append_internals _ hmore]; exact h.leavesOk) (by simp) (by simp) (fun _ => by omega) with }

/-! ### The code table -/

/-- A new code table, which no open decoder stream looks at (R33, R150). -/
theorem Invariant.withCodes {s : State} (h : Invariant s) {codes : Table CodeEntry} (hdec : s.decActive = false)
    (hform : Table.wf CodeEntry.absent s.cfg.nsym codes = true)
    (hfit : ∀ sym, (Table.get CodeEntry.absent codes sym).len ≤ s.cfg.codeMax ∧
      (Table.get CodeEntry.absent codes sym).val < 2 ^ (Table.get CodeEntry.absent codes sym).len) :
    Invariant { s with codes := codes } :=
  { h with
    codesForm := hform
    codesFit := hfit
    streamOk := fun ha => by simp [hdec] at ha }

/-- The codes of a BUILT tree: one per symbol id, each value within its length (R151, R152). -/
theorem Invariant.treeCodes_fit {s : State} (h : Invariant s) (hphase : s.bstate = .built)
    {leaves : List (Nat × CodeEntry)} (hl : s.treeCodes = some leaves) :
    (leaves.map Prod.fst).Nodup ∧ ∀ e ∈ leaves, e.1 < s.cfg.nsym ∧ e.2.val < 2 ^ e.2.len := by
  obtain ⟨hnodup, hsyms⟩ := h.leavesOk
  rcases h.built_cases hphase with ⟨hroot, -, -⟩ | ⟨r, hroot, -, hr, hperm⟩
  · obtain rfl : [] = leaves := by simpa [State.treeCodes, hroot] using hl
    simp
  · obtain rfl : (shapeAt s.nodes r).table = leaves := by
      simpa [State.treeCodes_eq h.forestOk hroot hr] using hl
    have hkeys : ((shapeAt s.nodes r).table.map Prod.fst).Perm (leafSyms s.nodes) := by
      rw [Shape.table_syms, ← leafPairs_syms]
      exact hperm.map _
    exact ⟨hkeys.nodup_iff.2 hnodup, fun e he =>
      ⟨hsyms _ (hkeys.mem_iff.1 (List.mem_map_of_mem he)), (Shape.table_fits _ e he).2⟩⟩

theorem Invariant.extract {s : State} (h : Invariant s) {leaves : List (Nat × CodeEntry)}
    (hl : s.treeCodes = some leaves) (hphase : s.bstate = .built) (hdec : s.decActive = false)
    (hlen : ∀ e ∈ leaves, e.2.len ≤ s.cfg.codeMax) : Invariant (s.installCodes (tableOf leaves)) := by
  obtain ⟨hnodup, hfit⟩ := h.treeCodes_fit hphase hl
  refine { h.withCodes (codes := tableOf leaves) hdec (tableOf_wf fun e he => (hfit e he).1) fun sym => ?_ with }
  by_cases hm : sym ∈ leaves.map Prod.fst
  · obtain ⟨e, he, rfl⟩ := List.mem_map.1 hm
    rw [tableOf_get_mem hnodup he]
    exact ⟨hlen e he, (hfit e he).2⟩
  · rw [tableOf_get_absent hm]
    exact ⟨Nat.zero_le _, Nat.one_pos⟩

theorem Invariant.codeWr {s : State} (h : Invariant s) {sym len val : Nat} (hdec : s.decActive = false)
    (hsym : sym < s.cfg.nsym) (hlen : len ≤ s.cfg.codeMax) :
    Invariant (s.setCode sym { len := len, val := val % 2 ^ len }) := by
  refine h.withCodes hdec (Table.wf_set _ h.codesForm hsym _) fun n => ?_
  rw [Table.get_set]
  split
  · exact ⟨hlen, Nat.mod_lt _ (Nat.two_pow_pos len)⟩
  · exact h.codesFit n

/-! ### The packer -/

/-- Entries pushed within the room fit the FIFO (R43, R65). -/
theorem Invariant.push_fits {s : State} (h : Invariant s) {es : List Entry} (hroom : es.length ≤ s.room) :
    (s.ofifo ++ es).length ≤ s.cfg.ofifoDepth := by
  have hfits := h.fifoFits
  rw [State.room] at hroom
  rw [List.length_append]
  omega

theorem State.needOf_pkSym {s : State} {sym : Nat} (hc : firstError (s.pkSymChecks sym) = none) :
    s.needOf (.pkSym sym) = (s.packSym sym).1.length := by
  simp [State.needOf, needAfter, hc]

theorem State.needOf_pkFlush {s : State} (hpk : s.pkActive = true) : s.needOf .pkFlush = s.flushEntries.length := by
  simp [State.needOf, needAfter, State.noPacker, hpk]

theorem State.needOf_decByte {s : State} (hdec : s.decActive = true) (byte : Byte) :
    s.needOf (.decByte byte) = (s.matchByte byte).out.length := by
  simp [State.needOf, needAfter, State.noDecoder, hdec]

/-- What PK_SYM leaves pending fits its bit count (R172, R48(f)). -/
theorem Invariant.packSym_fits {s : State} (h : Invariant s) (sym : Nat) :
    ((s.packSym sym).2.1.setWidth 7).toNat < 2 ^ (BitVec.ofNat 3 (s.packSym sym).2.2).toNat := by
  have hpk := h.packerOk
  have hnb := s.pkNb.isLt
  obtain ⟨-, hacc, hlen, -⟩ := packBits_spec (bitsOf (s.codeOf sym).len (s.codeOf sym).val) (s.pkAcc.setWidth 8)
    s.pkNb.toNat (by omega) (by rw [BitVec.toNat_setWidth]; exact (Nat.mod_le _ _).trans_lt hpk)
  have hlt : (s.packSym sym).2.2 < 2 ^ 3 := by rw [State.packSym, hlen]; omega
  rw [BitVec.toNat_ofNat, Nat.mod_eq_of_lt hlt, BitVec.toNat_setWidth]
  exact (Nat.mod_le _ _).trans_lt hacc

theorem Invariant.pkSym {s : State} (h : Invariant s) {sym : Nat} (cnt : Count)
    (hroom : (s.packSym sym).1.length ≤ s.room) :
    Invariant { s.pushAll ((s.packSym sym).1.map byteEntry) with
      pkAcc := (s.packSym sym).2.1.setWidth 7, pkNb := BitVec.ofNat 3 (s.packSym sym).2.2, pkBitcnt := cnt } :=
  { h with
    packerOk := h.packSym_fits sym
    fifoFits := h.push_fits (by simpa using hroom) }

/-! ### The decoder -/

theorem Invariant.maxLen_le {s : State} (h : Invariant s) : s.maxLen ≤ s.cfg.codeMax :=
  (s.maxLen_le_iff _).2 fun sym _ => (h.codesFit sym).1

/-- What DEC_BYTE leaves of the accumulator (R48(f), R194). -/
theorem Invariant.matchByte_fits {s : State} (h : Invariant s) (hdec : s.decActive = true) (byte : Byte) :
    let m := s.matchByte byte
    (m.accLen ≤ s.cfg.codeMax ∧ m.acc < 2 ^ m.accLen) ∧
      (m.stopped = false → m.accLen = 0 ∨ m.accLen < s.maxLen) := by
  obtain ⟨hacc, hgo, hlen, -⟩ := decBits_bounds s (bitsOf 8 byte.toNat)
    { acc := s.acc, accLen := s.accLen, bitcnt := s.decBitcnt, out := [], stopped := false } rfl h.decoderOk.2
    (h.streamOk hdec).2
  have hmax := h.maxLen_le
  have hpos : 1 ≤ s.cfg.codeMax := h.cfgValid.2.2.1
  exact ⟨⟨hlen.trans (max_le hpos hmax), hacc⟩, hgo⟩

/-- The state after DEC_BYTE's bits, with the stream left open only if no bit has ended it (R195, R227(a)). -/
theorem Invariant.decByte {s : State} (h : Invariant s) (hdec : s.decActive = true) {byte : Byte} {active : Bool}
    (hactive : active = true → (s.matchByte byte).stopped = false)
    (hroom : (s.matchByte byte).out.length ≤ s.room) :
    Invariant { s.pushAll (s.matchByte byte).out with
      acc := (s.matchByte byte).acc, accLen := (s.matchByte byte).accLen, decBitcnt := (s.matchByte byte).bitcnt,
      decActive := active } := by
  obtain ⟨hfits, hgo⟩ := h.matchByte_fits hdec byte
  exact { h with
    decoderOk := hfits
    streamOk := fun ha => ⟨(h.streamOk hdec).1, hgo (hactive ha)⟩
    oneStream := fun hboth => h.oneStream ⟨hboth.1, hdec⟩
    fifoFits := h.push_fits hroom }

/-- The state after the accumulator is terminated (R196). -/
theorem Invariant.decEnd {s : State} (h : Invariant s) :
    Invariant { s with decResidue := s.accLen, acc := 0, accLen := 0, decActive := false } :=
  { h with
    decoderOk := ⟨Nat.zero_le _, Nat.one_pos⟩
    streamOk := fun ha => nomatch ha
    residueOk := h.decoderOk.1
    oneStream := fun hboth => nomatch hboth.2 }

/-! ### Every command -/

/-- Every command that has its room keeps the invariant, once it is retired (R48, R65). -/
theorem Effect.keepsInvariant {s t : State} {i : Instr} (he : Effect s i t) (h : Invariant s)
    (hroom : s.needOf i ≤ s.room) : Invariant t.retire := by
  cases he with
  | error _ e hne => exact h.raise_retire hne
  | nop => exact h.retire
  | softReset => exact h.resetAction.retire
  | errClr => exact { h.retire with infoOk := fun _ => rfl, latchOk := fun _ hl => (by cases hl) }
  | freqClr => exact { h.retire with freqForm := Table.wf_nil _ _ }
  | freqWr sym hsym => exact { h.retire with freqForm := Table.wf_set _ h.freqForm hsym _ }
  | freqInc sym hsym _ => exact { h.retire with freqForm := Table.wf_set _ h.freqForm hsym _ }
  | freqRd sym _ => exact { h.retire with }
  | bldSeed f hf htotal => subst hf; exact (h.bldSeed _ htotal).retire
  | bldStep f hf hphase htwo => subst hf; exact (h.bldStep _ _ hphase htwo).retire
  | bldFinish f merges w hf _ _ =>
    have hforest := (h.bldFinish (BitVec.ofNat 32 merges) w).retire
    rwa [hf] at hforest
  | pqPeek node _ => exact { h.retire with }
  | heapRd idx node _ => exact { h.retire with }
  | nodeRdLeaf idx w sym _ => exact { h.retire with }
  | nodeRdInternal idx w l r _ => exact { h.retire with }
  | extract leaves hl hphase _ hdec hlen => exact (h.extract hl hphase hdec hlen).retire
  | codeRd w sym => exact { h.retire with }
  | codeClr _ hdec =>
    exact (h.withCodes hdec (Table.wf_nil _ _) fun _ => ⟨Nat.zero_le _, Nat.one_pos⟩).retire
  | cbufWr w hw => exact { h.retire with cbufForm := Table.wf_set _ h.cbufForm hw _ }
  | codeWr sym _ hdec hsym hlen => exact (h.codeWr hdec hsym hlen).retire
  | pkStart _ hdec =>
    exact { h.retire with
      packerOk := Nat.one_pos
      oneStream := fun hboth => by simp [hdec] at hboth
      fifoFits := Nat.zero_le _ }
  | pkSym sym hchecks => exact (h.pkSym _ (State.needOf_pkSym hchecks ▸ hroom)).retire
  | pkFlush hpk =>
    exact { h.retire with
      packerOk := Nat.one_pos
      oneStream := fun hboth => nomatch hboth.1
      fifoFits := h.push_fits (State.needOf_pkFlush hpk ▸ hroom) }
  | decStart limit hpk _ hvalid =>
    exact { h.retire with
      decoderOk := ⟨Nat.zero_le _, Nat.one_pos⟩
      streamOk := fun _ => ⟨hvalid, .inl rfl⟩
      limitOk := fun hl => if_neg (by simpa using hl)
      residueOk := Nat.zero_le _
      oneStream := fun hboth => by simp [hpk] at hboth
      fifoFits := Nat.zero_le _ }
  | decByte byte m hm hdec hgo =>
    subst hm
    have hkeep := h.decByte (active := s.decActive) hdec (fun _ => hgo) (State.needOf_decByte hdec byte ▸ hroom)
    exact hkeep.retire
  | decByteNoMatch byte m hm hdec _ =>
    subst hm
    have hkeep := h.decByte (active := false) hdec (fun ha => nomatch ha) (State.needOf_decByte hdec byte ▸ hroom)
    exact hkeep.raise_retire (by simp)
  | decEnd _ _ => exact h.decEnd.retire
  | decEndError e _ _ hne => exact h.decEnd.raise_retire hne

/-- Every engine step keeps the invariant (R65). -/
theorem Invariant.engineStep {s t : State} (h : Invariant s) {c : Word} (hroom : s.need c ≤ s.room)
    (hstep : s.engineStep c = .next t) : Invariant t := by
  rcases State.engineStep_cases hstep with ⟨why, -, rfl⟩ | ⟨i, u, hc, hu, rfl⟩
  · exact h.raise_retire (by simp)
  · exact (exec_effect hu).keepsInvariant h (State.need_of_ok hc s ▸ hroom)

/-! ### The host -/

/-- A register read removes at most the FIFO head (R31). -/
theorem Invariant.regRead {s : State} (h : Invariant s) (off : Nat) : Invariant (s.regRead off) := by
  have hlen : (if off = 0x30 then s.ofifo.tail else s.ofifo).length ≤ s.cfg.ofifoDepth := by
    have hfits := h.fifoFits
    split
    · rw [List.length_tail]; omega
    · exact hfits
  exact { h with fifoFits := hlen }

/-- EBUSY is recorded beside the waiting command (R63, R224). -/
theorem Invariant.record_ebusy {s : State} (h : Invariant s) (c : Word) : Invariant (s.record .ebusy c) := by
  by_cases he : s.errcode = .none
  · rw [State.record_first he]
    exact { h with
      infoOk := fun hn => by cases hn
      latchOk := fun l hl => ⟨(h.latchOk l hl).1, .inr (.inl rfl)⟩ }
  · rw [State.record_later he]
    exact h

/-- A CMD write out of reset keeps the invariant (R63). -/
theorem Invariant.acceptCmd {s : State} (h : Invariant s) (hr : s.inReset = false) (c : Word) :
    Invariant (s.acceptCmd c) := by
  rcases s.acceptCmd_cases c with ⟨-, e⟩ | ⟨-, -, e⟩ | ⟨-, -, -, e⟩ | ⟨hc, -, hlock, e⟩ <;> rw [e]
  · exact h.resetAction
  · exact h.record_ebusy c
  · exact h
  · exact { h with
      latchOk := fun l hl => by
        obtain rfl : _ = l := Option.some.inj hl
        exact ⟨hc, hlock.imp_right .inr⟩
      resetOk := fun ht => by simp [hr] at ht }

/-- Whatever the outside does next keeps the invariant (R61, R62, R250). -/
theorem Invariant.hostOp {s t : State} (h : Invariant s) {op : HostOp} (hop : s.hostOp op = .next t) : Invariant t := by
  rcases State.hostOp_cases hop with ⟨-, off, rfl⟩ | ⟨hr, off, v, rfl⟩ | rfl | rfl
  · exact h.regRead off
  · rcases s.regWrite_cases off v with e | e | e | e <;> rw [e]
    · exact h.acceptCmd hr v
    · exact { h with }
    · exact { h with }
    · exact h
  · exact { h.resetAction with resetOk := fun _ => rfl }
  · exact { h with resetOk := fun hf => by cases hf }

/-- Settles O24: the engine's step and the host's each keep every part of the invariant. -/
theorem stepKeepsInvariant : Obligations.StepKeepsInvariant := by
  intro s t h hstep
  rcases step_cases hstep with ⟨l, -, hroom, hengine⟩ | ⟨op, rest, -, hhost⟩
  · exact h.takeTurn.engineStep (by simpa using hroom) hengine
  · have hturn : Invariant { s.takeTurn with hostOps := rest } := { h.takeTurn with }
    exact hturn.hostOp hhost

/-- Settles O23: the default configuration is a valid one. -/
theorem resetSatisfiesInvariant : Obligations.ResetSatisfiesInvariant :=
  ⟨.resetWith (by decide), fun _ => .resetWith⟩

end Sys2Proof.Machine
end

section
/-! SUPPORT. What the registers read, and what a reset leaves (10_state.md R21 to R47). -/

namespace Sys2Proof.Machine

open Sys2Proof.Claims

/-! ### The register map -/

/-- The halves of a 64-bit counter make up the counter (R69). -/
theorem halves_toNat (c : Count) : (loHalf c).toNat + (hiHalf c).toNat * 2 ^ 32 = c.toNat := by
  have hc := c.isLt
  simp only [loHalf, hiHalf, BitVec.toNat_setWidth, BitVec.toNat_ushiftRight, Nat.shiftRight_eq_div_pow]
  omega

/-- The offsets above DEC_RESIDUE are reserved (R47). -/
theorem State.regValue_reserved (s : State) {off : Nat} (h : 0x6C ≤ off) : s.regValue off = 0 := by
  simp (disch := omega) only [State.regValue, if_neg]

theorem State.outData_cons {s : State} {e : Entry} {rest : List Entry} (h : s.ofifo = e :: rest) :
    s.outData = BitVec.ofNat 32 (2 ^ 31 + e.toNat) := by
  simp only [State.outData, h]

theorem State.rootReg_some {s : State} {r : Nat} (h : s.root = some r) :
    s.rootReg = BitVec.ofNat 32 (2 ^ 31 + r) := by
  simp only [State.rootReg, h]

/-- Settles O12: each offset selects its register. -/
theorem registerMap : Obligations.RegisterMap := by
  intro s
  refine ⟨rfl, rfl, rfl, rfl, rfl, rfl, rfl, rfl, rfl, rfl, rfl, rfl, rfl, halves_toNat _, halves_toNat _,
    halves_toNat _, rfl, rfl, fun h => ?root, fun r h => State.rootReg_some h, fun h => ?empty,
    fun e rest h => State.outData_cons h, fun off h => s.regValue_reserved h, ?errcode⟩
  case root =>
    show s.rootReg = 0
    simp only [State.rootReg, h]
  case empty =>
    show s.outData = 0
    simp only [State.outData, h]
  case errcode =>
    show BitVec.ofNat 32 s.errcode.value = _
    cases s.errcode <;> rfl

/-! ### STATUS -/

/-- A command is held exactly when its pushes do not fit (R65, R66). -/
theorem State.held_iff (s : State) : s.held = true ↔ ∃ l, s.pending = some l ∧ s.room < s.need l.cmd := by
  cases hp : s.pending <;> simp [State.held, State.busy, State.engineEnabled, hp]

/-- Settles O13: STATUS is the sum of its fields, so each is a quotient and a remainder of that sum. -/
theorem statusFields : Obligations.StatusFields := by
  intro s status
  have hsum : status.toNat = _ := s.status_toNat
  have hbusy := s.busy.toNat_le
  have hheld := s.held.toNat_le
  have herr := (s.errcode != .none).toNat_le
  have hphase : s.bstate.value ≤ 2 := by cases s.bstate <;> decide
  have hpk := s.pkActive.toNat_le
  have hdec := s.decActive.toNat_le
  have hlim := s.limitEn.toNat_le
  have hnb := s.pkNb.isLt
  have hfifo := (!s.ofifo.isEmpty).toNat_le
  simp only [field, hsum]
  refine ⟨?busy, ?held, ?err, ?phase, by omega, by omega, by omega, by omega, ?fifo, by omega⟩
  case busy =>
    show _ = s.busy.toNat
    omega
  case held =>
    rw [← State.held_iff, ← Bool.toNat_eq_one]
    omega
  case err =>
    rw [← bne_iff_ne, ← Bool.toNat_eq_one]
    omega
  case phase =>
    refine (show _ = s.bstate.value by omega).trans ?_
    cases s.bstate <;> rfl
  case fifo =>
    have hne : s.ofifo ≠ [] ↔ (!s.ofifo.isEmpty) = true := by simp
    rw [hne, ← Bool.toNat_eq_one]
    omega

/-! ### NCODES and MAXLEN -/

/-- MAXLEN is 0 or the length of some symbol (R33). -/
theorem State.maxLen_attained (s : State) : s.maxLen = 0 ∨ ∃ sym < s.cfg.nsym, (s.codeOf sym).len = s.maxLen := by
  by_contra hc
  push Not at hc
  obtain ⟨hpos, hne⟩ := hc
  have hless : s.maxLen ≤ s.maxLen - 1 := (s.maxLen_le_iff _).2 fun sym hsym => by
    have hle := s.len_le_maxLen hsym
    have := hne sym hsym
    omega
  omega

/-- Settles O14: the counters are the count and the maximum they are defined as, and the maximum is attained. -/
theorem codeCounters : Obligations.CodeCounters := by
  intro s
  refine ⟨rfl, rfl, ?_, fun sym hsym => s.len_le_maxLen hsym, s.maxLen_attained⟩
  rw [State.ncodes, State.codedSyms]
  congr 1
  exact List.filter_congr fun sym _ => Bool.eq_iff_iff.2 (by simp)

/-! ### Reset values -/

/-- The reset action puts every state element at its reset value (R46, R251). -/
theorem atReset_resetAction (s : State) : AtReset s.resetAction := by
  have hcode : ∀ sym, s.resetAction.codeOf sym = CodeEntry.absent := fun _ => rfl
  have hncodes : s.resetAction.ncodes = 0 := by simp [State.ncodes, State.codedSyms, hcode, CodeEntry.absent]
  have hmaxLen : s.resetAction.maxLen = 0 :=
    Nat.le_zero.1 ((State.maxLen_le_iff _ 0).2 fun sym _ => by simp [hcode, CodeEntry.absent])
  exact ⟨rfl, rfl, rfl, rfl, rfl, rfl, rfl, rfl, rfl, fun _ => rfl, fun _ => rfl, fun _ => rfl, rfl, rfl, rfl, rfl, rfl,
    rfl, rfl, rfl, rfl, rfl, rfl, rfl, rfl, rfl, rfl, hncodes, hmaxLen, rfl, rfl, rfl⟩

/-- The CMD register stands at its offset in the window (R26, R60). -/
theorem windowOffset_cmd (c : Config) : windowOffset c .word (c.huffBase + 0x10) = some 0x10 := by
  simp [windowOffset]

/-- The SOFT_RESET word written to CMD is acted on at once (R63). -/
theorem State.write_softReset {s : State} (h : s.inReset = false) :
    s.hostOp (.write .word (s.cfg.huffBase + 0x10) softResetWord) = .next s.resetAction := by
  simp [State.hostOp, State.access, h, windowOffset_cmd, State.regWrite, State.acceptCmd]

/-- Settles O21: both resets do the reset action. -/
theorem resetValues : Obligations.ResetValues :=
  ⟨atReset_resetAction State.reset, fun s =>
    ⟨⟨_, rfl, atReset_resetAction { s with inReset := true }, rfl⟩,
      fun h => ⟨_, State.write_softReset h, atReset_resetAction s, rfl⟩⟩⟩

end Sys2Proof.Machine
end

section
/-! SUPPORT. The scheduler: which agent takes a step, and what the engine's enabled step and a hold depend on
(20_memory.md R64 to R66). -/

namespace Sys2Proof.Machine

/-! ### The scheduler (R64, R65) -/

/-- The engine is enabled exactly when a word is latched and its pushes fit (R65). -/
theorem State.engineEnabled_iff (s : State) :
    s.engineEnabled = true ↔ ∃ l, s.pending = some l ∧ s.need l.cmd ≤ s.room := by
  cases hp : s.pending <;> simp [State.engineEnabled, hp]

/-- An enabled engine takes the step when the host has nothing to do or the next turn is not the host's (log 4). -/
theorem State.engineGoes_iff (s : State) :
    s.engineGoes = true ↔ s.engineEnabled = true ∧ (s.hostOps = [] ∨ s.turns.head? ≠ some .host) := by
  simp [State.engineGoes]

/-- A step without an enabled engine uses up no turn. -/
theorem State.takeTurn_of_not_enabled {s : State} (h : s.engineEnabled = false) : s.takeTurn = s := by
  simp [State.takeTurn, State.contested, h]

/-- With an enabled engine a turn is used up exactly when the host could step too. -/
theorem State.takeTurn_of_enabled {s : State} (h : s.engineEnabled = true) :
    s.takeTurn = { s with turns := if s.hostOps = [] then s.turns else s.turns.tail } := by
  by_cases hops : s.hostOps = []
  · have hcontested : s.contested = false := by simp [State.contested, hops]
    rw [if_pos hops, State.takeTurn, hcontested]
    rfl
  · have hcontested : s.contested = true := by simp [State.contested, h, hops]
    rw [if_neg hops, State.takeTurn, if_pos hcontested]

theorem step_of_engineGoes {s : State} {l : Latch} (hgo : s.engineGoes = true) (hl : s.pending = some l) :
    step s = s.takeTurn.engineStep l.cmd := by
  simp [step, State.transition, hgo, hl]

theorem step_of_host {s : State} {op : HostOp} {rest : List HostOp} (hgo : s.engineGoes = false)
    (hops : s.hostOps = op :: rest) : step s = ({ s.takeTurn with hostOps := rest } : State).hostOp op := by
  simp [step, State.transition, hgo, hops]

/-- Without an enabled engine the step is the host's next operation, on the state as it is. -/
theorem step_of_not_enabled {s : State} (h : s.engineEnabled = false) {op : HostOp} {rest : List HostOp}
    (hops : s.hostOps = op :: rest) : step s = ({ s with hostOps := rest } : State).hostOp op := by
  rw [step_of_host (by simp [State.engineGoes, h]) hops, State.takeTurn_of_not_enabled h]

/-- With no agent to step, the machine hangs on a held command, or the run is over (U11, R77, log 7). -/
theorem stop_of_not_enabled {s : State} (h : s.engineEnabled = false) (hops : s.hostOps = []) :
    step s = if s.busy then .fault .hang else .fault .runOver := by
  simp [step, State.transition, State.engineGoes, h, hops]

/-- Settles O5: the enabled engine is given the step, and its step is the retired outcome of the command. -/
theorem stepRunsTheLatchedCommand : Obligations.StepRunsTheLatchedCommand := by
  intro s l hl hroom hturn
  have henabled : s.engineEnabled = true := s.engineEnabled_iff.2 ⟨l, hl, hroom⟩
  have hstep : step s = s.takeTurn.engineStep l.cmd := step_of_engineGoes (s.engineGoes_iff.2 ⟨henabled, hturn⟩) hl
  refine ⟨State.takeTurn_of_enabled henabled, State.cmd_of_pending hl, State.a0_of_pending hl, State.a1_of_pending hl,
    hstep, fun i hi => ?_, fun why hwhy => ?_⟩
  · rw [hstep, State.engineStep_ok hi]
    cases exec i s.takeTurn <;> rfl
  · rw [hstep, State.engineStep_error hwhy]
    rfl

/-- Settles O6: a held command and an empty latch both leave the engine without a step. -/
theorem withoutEngineTheHostSteps : Obligations.WithoutEngineTheHostSteps := by
  refine ⟨fun s l hl hneed => ?_, fun s hnone => ?_⟩
  · have hdisabled : s.engineEnabled = false := by simp [State.engineEnabled, hl, hneed]
    obtain ⟨-, houtwait, -⟩ := statusFields s
    refine ⟨houtwait.2 ⟨l, hl, hneed⟩, fun hops => ?_, fun op rest => step_of_not_enabled hdisabled⟩
    simp [stop_of_not_enabled hdisabled hops, State.busy, hl]
  · have hdisabled : s.engineEnabled = false := by simp [State.engineEnabled, hnone]
    refine ⟨fun hops => ?_, fun op rest => step_of_not_enabled hdisabled⟩
    simp [stop_of_not_enabled hdisabled hops, State.busy, hnone]

/-! ### What a hold depends on (R65, R66) -/

/-- The part of the state a hold depends on: the latch, the FIFO and its capacity, and what the need of a word is
computed from. -/
def State.holdView (s : State) : Config × Option Latch × List Entry × Table CodeEntry ×
    (Bool × BitVec 7 × BitVec 3) × (Bool × Bool × Count × Nat × Nat × Count) :=
  (s.cfg, s.pending, s.ofifo, s.codes, (s.pkActive, s.pkAcc, s.pkNb),
    (s.decActive, s.limitEn, s.decNbits, s.acc, s.accLen, s.decBitcnt))

theorem State.pending_of_holdView {s t : State} (h : t.holdView = s.holdView) : t.pending = s.pending :=
  congrArg (fun view => view.2.1) h

theorem State.ofifo_of_holdView {s t : State} (h : t.holdView = s.holdView) : t.ofifo = s.ofifo :=
  congrArg (fun view => view.2.2.1) h

theorem State.engineEnabled_congr {s u : State} (h : u.holdView = s.holdView) : u.engineEnabled = s.engineEnabled := by
  simp only [State.holdView, Prod.mk.injEq] at h
  obtain ⟨hcfg, hpending, hofifo, hcodes, hpk, hdec⟩ := h
  have hneed : ∀ c, u.need c = s.need c := fun c => by
    simp only [State.need, State.needOf_congr hcfg hcodes hpk hdec]
  rw [Bool.eq_iff_iff, u.engineEnabled_iff, s.engineEnabled_iff]
  simp only [State.room, hpending, hneed, hcfg, hofifo]

theorem State.held_congr {s u : State} (h : u.holdView = s.holdView) : u.held = s.held := by
  simp only [State.held, State.busy, State.engineEnabled_congr h, State.pending_of_holdView h]

@[simp] theorem State.takeTurn_holdView (s : State) : s.takeTurn.holdView = s.holdView := by
  simp [State.holdView]

/-- Settles O7: the turn decides which of the two agents steps, whatever the others are. -/
theorem eitherAgentMayStep : Obligations.EitherAgentMayStep := by
  intro s l op rest turns hl hroom hops
  have henabled : ∀ ts, ({ s with turns := ts } : State).engineEnabled = true := fun ts => by
    have hview : ({ s with turns := ts } : State).holdView = s.holdView := rfl
    rw [State.engineEnabled_congr hview]
    exact s.engineEnabled_iff.2 ⟨l, hl, hroom⟩
  have hturn : ∀ a, ({ s with turns := a :: turns } : State).takeTurn = { s with turns := turns } := fun a => by
    rw [State.takeTurn_of_enabled (henabled _), if_neg (by simp [hops])]
    rfl
  constructor
  · have hgo : ({ s with turns := .engine :: turns } : State).engineGoes = true :=
      (State.engineGoes_iff _).2 ⟨henabled _, .inr (by simp)⟩
    rw [step_of_engineGoes hgo hl, hturn]
  · have hgo : ({ s with turns := .host :: turns } : State).engineGoes = false := by simp [State.engineGoes, hops]
    rw [step_of_host hgo hops, hturn]

end Sys2Proof.Machine
end

section
/-! SUPPORT. The entries a command pushes onto the FIFO, and that an empty FIFO has room for them (20_memory.md R66). -/

namespace Sys2Proof.Machine

theorem needAfter_le (checks : List (Bool × ErrCode)) (pushes : Nat) : needAfter checks pushes ≤ pushes := by
  unfold needAfter
  split
  · exact Nat.zero_le _
  · exact le_rfl

theorem State.needOf_pkSym_le (s : State) (sym : Nat) :
    s.needOf (.pkSym sym) ≤ (s.pkNb.toNat + (s.codeOf sym).len) / 8 := by
  have hnb := s.pkNb.isLt
  obtain ⟨hlen, -⟩ := packBits_length (bitsOf (s.codeOf sym).len (s.codeOf sym).val) (s.pkAcc.setWidth 8)
    s.pkNb.toNat (by omega)
  rw [bitsOf_length] at hlen
  exact hlen ▸ needAfter_le (s.pkSymChecks sym) (s.packSym sym).1.length

theorem State.needOf_pkFlush_le (s : State) : s.needOf .pkFlush ≤ 1 := by
  have hlen : s.flushEntries.length ≤ 1 := by
    unfold State.flushEntries
    split <;> simp
  exact (needAfter_le _ _).trans hlen

theorem State.needOf_decByte_le (s : State) (byte : Byte) : s.needOf (.decByte byte) ≤ 8 := by
  have hlen : (s.matchByte byte).out.length ≤ 8 := by
    simpa [State.matchByte] using decBits_out_length s (bitsOf 8 byte.toNat)
      { acc := s.acc, accLen := s.accLen, bitcnt := s.decBitcnt, out := [], stopped := false }
  exact (needAfter_le _ _).trans hlen

/-- Only PK_SYM, PK_FLUSH and DEC_BYTE need room (R66). -/
theorem State.needOf_cases (s : State) (i : Instr) :
    s.needOf i = 0 ∨ (∃ sym, i = .pkSym sym) ∨ i = .pkFlush ∨ ∃ byte, i = .decByte byte := by
  cases i <;> simp [State.needOf]

/-- A command whose effect pushes a number of entries pushes what `needAfter` counts: none when a check fails. -/
theorem State.guarded_pushes {s t : State} {checks : List (Bool × ErrCode)}
    {effect : Host.Outcome State Fault Refusal} {pushes : Nat} (h : s.guarded checks effect = .next t)
    (heff : effect = .next t → ∃ es, t.ofifo = s.ofifo ++ es ∧ es.length = pushes) :
    ∃ es, t.ofifo = s.ofifo ++ es ∧ es.length = needAfter checks pushes := by
  rcases State.guarded_next h with ⟨e, he, rfl⟩ | ⟨hpass, hnext⟩
  · exact ⟨[], by simp, by simp [needAfter, he]⟩
  · simpa [needAfter, firstError_none.2 hpass] using heff hnext

/-- A command adds exactly its need at the tail of the FIFO, or is one of the three that empty it (R66). -/
theorem exec_ofifo {i : Instr} {s t : State} (h : exec i s = .next t) :
    (∃ es, t.ofifo = s.ofifo ++ es ∧ es.length = s.needOf i) ∨
    (t.ofifo = [] ∧ (i = .softReset ∨ i = .pkStart ∨ ∃ limit, i = .decStart limit)) := by
  cases i with
  | pkSym sym =>
    refine .inl (State.guarded_pushes h fun hnext => ?_)
    cases hnext
    exact ⟨_, rfl, List.length_map _⟩
  | pkFlush =>
    refine .inl (State.guarded_pushes h fun hnext => ?_)
    cases hnext
    exact ⟨_, rfl, rfl⟩
  | decByte byte =>
    refine .inl (State.guarded_pushes h fun hnext => ?_)
    cases hnext
    exact ⟨(s.matchByte byte).out, by split <;> simp, rfl⟩
  | softReset =>
    cases h
    exact .inr ⟨rfl, .inl rfl⟩
  | pkStart =>
    cases exec_effect h with
    | error _ e => exact .inl ⟨[], by simp, rfl⟩
    | pkStart => exact .inr ⟨rfl, .inr (.inl rfl)⟩
  | decStart limit =>
    cases exec_effect h with
    | error _ e => exact .inl ⟨[], by simp, rfl⟩
    | decStart => exact .inr ⟨rfl, .inr (.inr ⟨limit, rfl⟩)⟩
  | _ =>
    have hsame : t.ofifo = s.ofifo := by
      cases exec_effect h <;> simp [State.installCodes]
    exact .inl ⟨[], by simpa using hsame, rfl⟩

/-- Settles O8: the bounds hold of each pushing command, and the pushes of a command are counted behind its checks. -/
theorem pushesAreTheNeed : Obligations.PushesAreTheNeed := by
  refine ⟨fun i s t h => ⟨s.needOf_cases i, ?sym, ?flush, ?byte, exec_ofifo h⟩,
    fun s c => ⟨fun i hi => State.need_of_ok hi s, fun why hwhy => State.need_of_error hwhy s⟩,
    fun s => ⟨rfl, s.engineEnabled_iff, s.held_iff⟩⟩
  case sym => rintro sym rfl; exact s.needOf_pkSym_le sym
  case flush => rintro rfl; exact s.needOf_pkFlush_le
  case byte => rintro byte rfl; exact s.needOf_decByte_le byte

/-- No command needs more entries than the FIFO holds, by the least capacity R6 allows. -/
theorem Invariant.needOf_le_depth {s : State} (h : Invariant s) (i : Instr) : s.needOf i ≤ s.cfg.ofifoDepth := by
  obtain ⟨-, -, -, -, height, hcode, -, -⟩ := h.cfgValid
  rcases s.needOf_cases i with hzero | ⟨sym, rfl⟩ | rfl | ⟨byte, rfl⟩
  · omega
  · have hneed := s.needOf_pkSym_le sym
    have hnb := s.pkNb.isLt
    have hlen := (h.codesFit sym).1
    omega
  · exact s.needOf_pkFlush_le.trans (by omega)
  · exact (s.needOf_decByte_le byte).trans height

theorem Invariant.need_le_depth {s : State} (h : Invariant s) (c : Word) : s.need c ≤ s.cfg.ofifoDepth := by
  cases hc : decode c with
  | ok i => exact State.need_of_ok hc s ▸ h.needOf_le_depth i
  | error why => exact State.need_of_error hc s ▸ Nat.zero_le _

/-- Settles O9: the room of an empty FIFO is its capacity. -/
theorem emptyFifoLiftsEveryHold : Obligations.EmptyFifoLiftsEveryHold := by
  intro s l h hl hempty
  have hroom : s.room = s.cfg.ofifoDepth := by simp [State.room, hempty]
  exact s.engineEnabled_iff.2 ⟨l, hl, hroom ▸ h.need_le_depth l.cmd⟩

end Sys2Proof.Machine
end

section
/-! SUPPORT. What a host access does: reads, writes and the acceptance of a command (20_memory.md R60 to R63, R67,
R68). -/

namespace Sys2Proof.Machine

theorem State.access_inReset {s : State} (h : s.inReset = true) (width : AccessWidth) (addr : Nat) (act : Nat → State) :
    s.access width addr act = .refused .accessInReset := by
  simp [State.access, h]

/-- A supported address is its offset in the window (R60, R68). -/
theorem State.access_window {s : State} (h : s.inReset = false) {off : Nat} (hlt : off < 256) (halign : off % 4 = 0)
    (act : Nat → State) : s.access .word (s.cfg.huffBase + off) act = .next (act off) := by
  simp [State.access, h, windowOffset, hlt, halign]

theorem windowOffset_none {c : Config} {width : AccessWidth} {addr : Nat}
    (h : width ≠ .word ∨ addr < c.huffBase ∨ c.huffBase + 256 ≤ addr ∨ (addr - c.huffBase) % 4 ≠ 0) :
    windowOffset c width addr = none := by
  refine if_neg ?_
  rintro ⟨hwidth, hlo, hhi, halign⟩
  rcases h with h | h | h | h
  · exact h hwidth
  · omega
  · omega
  · exact h halign

theorem State.access_unsupported {s : State} (h : s.inReset = false) {width : AccessWidth} {addr : Nat}
    (haddr : width ≠ .word ∨ addr < s.cfg.huffBase ∨ s.cfg.huffBase + 256 ≤ addr ∨ (addr - s.cfg.huffBase) % 4 ≠ 0)
    (act : Nat → State) : s.access width addr act = .refused .unsupportedAccess := by
  simp [State.access, h, windowOffset_none haddr]

/-- Settles O18: an access reaches no register in reset, nor outside the window. -/
theorem otherAccessesAreRefused : Obligations.OtherAccessesAreRefused := fun _ _ _ _ =>
  ⟨fun hr => ⟨State.access_inReset hr _ _ _, State.access_inReset hr _ _ _⟩,
    fun hr haddr => ⟨State.access_unsupported hr haddr _, State.access_unsupported hr haddr _⟩⟩

/-- The aligned offsets of R67's inexact registers are those of its list. -/
theorem inexactWhileBusy_iff {off : Nat} (halign : off % 4 = 0) : inexactWhileBusy off = true ↔
    off ∈ [0x1C, 0x20, 0x24, 0x38, 0x3C, 0x40, 0x44, 0x48, 0x4C, 0x50, 0x54, 0x58, 0x5C, 0x60, 0x64, 0x68] := by
  simp only [inexactWhileBusy, Bool.or_eq_true, decide_eq_true_eq, List.mem_cons, List.not_mem_nil, or_false]
  omega

theorem State.drawsValue_iff (s : State) {off : Nat} (halign : off % 4 = 0) : s.drawsValue off = true ↔
    s.pending ≠ none ∧
      off ∈ [0x1C, 0x20, 0x24, 0x38, 0x3C, 0x40, 0x44, 0x48, 0x4C, 0x50, 0x54, 0x58, 0x5C, 0x60, 0x64, 0x68] := by
  rw [State.drawsValue, Bool.and_eq_true, inexactWhileBusy_iff halign, State.busy, Option.isSome_iff_ne_none]

theorem State.drawsValue_outData (s : State) : s.drawsValue 0x30 = false := by
  simp [State.drawsValue, inexactWhileBusy]

/-- A free draw removes nothing: OUT_DATA is exact (R67). -/
theorem State.regRead_drawn {s : State} {off : Nat} (h : s.drawsValue off = true) : s.regRead off =
    { s with hostReads := s.hostReads ++ [Config.freeRead s.draws], draws := s.draws + 1 } := by
  have hoff : off ≠ 0x30 := by
    rintro rfl
    simp [State.drawsValue_outData] at h
  simp [State.regRead, State.readValue, h, hoff]

theorem State.regRead_exact {s : State} {off : Nat} (h : s.drawsValue off = false) : s.regRead off =
    { s with
      hostReads := s.hostReads ++ [s.regValue off], ofifo := if off = 0x30 then s.ofifo.drop 1 else s.ofifo } := by
  simp [State.regRead, State.readValue, h]

/-- Settles O15: a supported read is the register's, drawn or exact. -/
theorem hostReads : Obligations.HostReads := by
  intro s off hr hlt halign drawn
  have hread : s.hostOp (.read .word (s.cfg.huffBase + off)) = .next (s.regRead off) :=
    State.access_window hr hlt halign _
  have hdrawn : s.drawsValue off = true ↔ drawn := s.drawsValue_iff halign
  exact ⟨fun hd => by rw [hread, State.regRead_drawn (hdrawn.2 hd)],
    fun hd => by rw [hread, State.regRead_exact (Bool.eq_false_iff.2 fun h => hd (hdrawn.1 h))]⟩

/-- Settles O16: outside CMD a register write is the store into its argument, or nothing. -/
theorem hostWrites : Obligations.HostWrites := by
  intro s off v hr hlt halign hcmd
  have hwrite : s.hostOp (.write .word (s.cfg.huffBase + off) v) = .next (s.regWrite off v) :=
    State.access_window hr hlt halign _
  rw [hwrite, State.regWrite, if_neg hcmd]

/-- Settles O17: a CMD write is accepted as R63 says, and SOFT_RESET is the reset action out of reset. -/
theorem commandAcceptance : Obligations.CommandAcceptance := by
  intro s c hr
  have hwrite : s.hostOp (.write .word (s.cfg.huffBase + 0x10) c) = .next (s.acceptCmd c) :=
    State.access_window hr (by decide) (by decide) _
  have hreset : s.resetAction =
      { State.resetWith s.cfg with
        hostOps := s.hostOps, hostReads := s.hostReads, turns := s.turns, draws := s.draws } := by
    simp [State.resetAction, State.resetWith, hr]
  rw [hwrite, State.acceptCmd]
  exact congrArg _ (if_congr Iff.rfl hreset (if_congr Option.isSome_iff_ne_none rfl rfl))

end Sys2Proof.Machine
end

section
/-! SUPPORT. What a step makes of the latch and of the FIFO, said once for the host's step, and what follows for a hold,
a latched command and the order of the FIFO (20_memory.md R65, R66, R74, R76). -/

namespace Sys2Proof.Machine

/-- The block alone: the state with the model's own fields cleared. -/
def State.block (s : State) : State :=
  { s with hostOps := [], hostReads := [], turns := [], draws := 0, inReset := false }

/-- `HostEffect s t`: what the host's step makes of the latch and the FIFO, one constructor for each way it can touch
them. -/
inductive HostEffect (s t : State) : Prop where
  /-- The block is in its reset state (R63, R250). -/
  | reset (hblock : t.block = State.resetWith s.cfg)
  /-- OUT_DATA handed over the head of the FIFO (R31). -/
  | drain (e : Entry) (hhead : s.ofifo = e :: t.ofifo)
      (hread : t.hostReads = s.hostReads ++ [BitVec.ofNat 32 (2 ^ 31 + e.toNat)]) (hlatch : t.pending = s.pending)
  /-- A CMD write filled the empty latch (R63). -/
  | latch (hidle : s.pending = none) (hfifo : t.ofifo = s.ofifo)
  /-- Nothing a hold depends on has changed. -/
  | keep (hview : t.holdView = s.holdView)

/-- Only an OUT_DATA read of a non-empty FIFO touches it (R31, R67). -/
theorem State.regRead_effect (s : State) (off : Nat) : HostEffect s (s.regRead off) := by
  by_cases hoff : off = 0x30
  · subst hoff
    rw [State.regRead_exact s.drawsValue_outData]
    cases hfifo : s.ofifo with
    | nil => exact .keep (by simp [State.holdView, hfifo])
    | cons e rest =>
      have hvalue : s.regValue 0x30 = BitVec.ofNat 32 (2 ^ 31 + e.toNat) := State.outData_cons hfifo
      exact .drain e (by simp [hfifo]) (by simp [hvalue]) rfl
  · exact .keep (by simp [State.holdView, State.regRead, hoff])

theorem State.acceptCmd_effect (s : State) (c : Word) : HostEffect s (s.acceptCmd c) := by
  rcases s.acceptCmd_cases c with ⟨-, e⟩ | ⟨-, -, e⟩ | ⟨-, -, -, e⟩ | ⟨-, hidle, -, e⟩ <;> rw [e]
  · exact .reset rfl
  · exact .keep (by simp [State.holdView])
  · exact .keep rfl
  · exact .latch (by simpa [State.busy] using hidle) rfl

theorem State.hostOp_effect {s t : State} {op : HostOp} (h : s.hostOp op = .next t) : HostEffect s t := by
  rcases State.hostOp_cases h with ⟨-, off, rfl⟩ | ⟨-, off, v, rfl⟩ | rfl | rfl
  · exact s.regRead_effect off
  · rcases s.regWrite_cases off v with e | e | e | e <;> rw [e]
    · exact s.acceptCmd_effect v
    · exact .keep rfl
    · exact .keep rfl
    · exact .keep rfl
  · exact .reset rfl
  · exact .keep rfl

/-- A step is the engine's, with room for its pushes, or has one of the host's effects (R64, R65). -/
theorem step_effect {s t : State} (h : step s = .next t) :
    (∃ l, s.pending = some l ∧ s.need l.cmd ≤ s.room ∧ s.takeTurn.engineStep l.cmd = .next t) ∨ HostEffect s t := by
  refine (step_cases h).imp_right ?_
  rintro ⟨op, rest, -, hhost⟩
  have hview : ({ s.takeTurn with hostOps := rest } : State).holdView = s.holdView := s.takeTurn_holdView
  cases State.hostOp_effect hhost with
  | reset hblock => exact .reset (by simpa using hblock)
  | drain e hhead hread hlatch => exact .drain e (by simpa using hhead) (by simpa using hread) (by simpa using hlatch)
  | latch hidle hfifo => exact .latch (by simpa using hidle) (by simpa using hfifo)
  | keep hkeep => exact .keep (hkeep.trans hview)

theorem State.pending_of_block_reset {t : State} {cfg : Config} (h : t.block = State.resetWith cfg) :
    t.pending = none :=
  congrArg State.pending h

theorem State.ofifo_of_block_reset {t : State} {cfg : Config} (h : t.block = State.resetWith cfg) : t.ofifo = [] :=
  congrArg State.ofifo h

/-- Settles O10: a held command gives the engine no step, and the host can only drain, reset, or leave the hold. -/
theorem onlyDrainingLiftsAHold : Obligations.OnlyDrainingLiftsAHold := by
  intro s t hheld hstep
  obtain ⟨l, hl, hneed⟩ := s.held_iff.1 hheld
  rcases step_effect hstep with ⟨l', hl', hroom, -⟩ | heffect
  · obtain rfl : l = l' := Option.some.inj (hl.symm.trans hl')
    omega
  cases heffect with
  | reset hblock => exact .inr (.inr hblock)
  | drain e hhead hread hlatch => exact .inr (.inl ⟨hlatch, e, hhead, hread⟩)
  | latch hidle _ => simp [hidle] at hl
  | keep hview => exact .inl ⟨State.pending_of_holdView hview, (State.held_congr hview).trans hheld⟩

/-- The engine's step empties PENDING, whatever the word is (R65). -/
theorem State.engineStep_pending {s t : State} {c : Word} (h : s.engineStep c = .next t) : t.pending = none := by
  rcases State.engineStep_cases h with ⟨why, -, rfl⟩ | ⟨i, u, -, -, rfl⟩ <;> rfl

/-- Settles O19: the engine ends the command it executes; the host fills the latch only when it is empty. -/
theorem latchIsStable : Obligations.LatchIsStable := by
  intro s t l hl hstep
  rcases step_effect hstep with ⟨l', hl', hroom, hengine⟩ | heffect
  · obtain rfl : l = l' := Option.some.inj (hl.symm.trans hl')
    exact .inr ⟨State.engineStep_pending hengine, .inl ⟨hroom, hengine⟩⟩
  cases heffect with
  | reset hblock => exact .inr ⟨State.pending_of_block_reset hblock, .inr hblock⟩
  | drain _ _ _ hlatch => exact .inl (hlatch.trans hl)
  | latch hidle _ => simp [hidle] at hl
  | keep hview => exact .inl ((State.pending_of_holdView hview).trans hl)

/-- The engine's step adds to the tail of the FIFO, or executes a command that empties it (R76). -/
theorem State.engineStep_ofifo {s t : State} {c : Word} (h : s.engineStep c = .next t) :
    (∃ es, t.ofifo = s.ofifo ++ es) ∨
    (t.ofifo = [] ∧ ((decode c = .ok .pkStart ∨ ∃ limit, decode c = .ok (.decStart limit)) ∨
      t.block = State.resetWith s.cfg)) := by
  rcases State.engineStep_cases h with ⟨why, -, rfl⟩ | ⟨i, u, hc, hu, rfl⟩
  · exact .inl ⟨[], by simp⟩
  rcases exec_ofifo hu with ⟨es, hes, -⟩ | ⟨hempty, rfl | rfl | ⟨limit, rfl⟩⟩
  · exact .inl ⟨es, hes⟩
  · cases hu
    exact .inr ⟨hempty, .inr rfl⟩
  · exact .inr ⟨hempty, .inl (.inl hc)⟩
  · exact .inr ⟨hempty, .inl (.inr ⟨limit, hc⟩)⟩

/-- Settles O20: the engine only adds or empties, the host only takes the head or resets. -/
theorem fifoKeepsOrder : Obligations.FifoKeepsOrder := by
  intro s t hstep
  rcases step_effect hstep with ⟨l, hl, -, hengine⟩ | heffect
  · rcases State.engineStep_ofifo hengine with ⟨es, hes⟩ | ⟨hempty, hcause⟩
    · exact .inl ⟨es, by simpa using hes⟩
    · rw [State.takeTurn_cfg] at hcause
      exact .inr (.inr ⟨hempty, State.engineStep_pending hengine, hcause.imp_left fun hc => ⟨l, hl, hc⟩⟩)
  cases heffect with
  | reset hblock =>
    exact .inr (.inr ⟨State.ofifo_of_block_reset hblock, State.pending_of_block_reset hblock, .inr hblock⟩)
  | drain e hhead hread _ => exact .inr (.inl ⟨e, hhead, hread⟩)
  | latch _ hfifo => exact .inl ⟨[], by simpa using hfifo⟩
  | keep hview => exact .inl ⟨[], by simpa using State.ofifo_of_holdView hview⟩

end Sys2Proof.Machine
end

section
/-! SUPPORT. The two directions of the encoding at once: a word decodes to a command exactly when the command is well-formed
and the word is its encoding. A format is described by the relation `Format.Builds`, tied to the decoder by
`Format.read_eq_ok_iff` and to the encoder by `Instr.builds_operandBits` and `opcodeMap_builds` (30_encoding.md R80 to
R92). -/

namespace Sys2Proof

/-! ### Fields of a word -/

theorem field_lt (c : Word) (lo width : Nat) : field c lo width < 2 ^ width := Nat.mod_lt _ (Nat.two_pow_pos _)

/-- Bits [23:0] are their r high bits above their k low bits. -/
theorem field_split (c : Word) {k r : Nat} (hk : k + r = 24) : field c k r * 2 ^ k + field c 0 k = field c 0 24 := by
  simp only [field, Nat.pow_zero, Nat.div_one]
  rw [← hk, Nat.pow_add, Nat.mod_mul, Nat.mul_comm, Nat.add_comm]

/-- A word is its opcode in bits [31:24] above its bits [23:0] (R80). -/
theorem word_of_fields (c : Word) : BitVec.ofNat 32 (opcodeField c * 2 ^ 24 + field c 0 24) = c := by
  apply BitVec.eq_of_toNat_eq
  rw [BitVec.toNat_ofNat, opcodeField, field, field]
  omega

/-! ### The formats (R81 to R87) -/

/-- `fmt.Builds n i`: in the format `fmt`, the bits n of [23:0] are operands that fit their fields, and make the command i. -/
inductive Format.Builds : Format → Nat → Instr → Prop where
  | noOperand (i : Instr) : Builds (.noOperand i) 0 i
  | symbol (mk : Nat → Instr) (sym : Nat) (hsym : symFits sym = true) : Builds (.symbol mk) sym (mk sym)
  | symbolWord (mk : Nat → Nat → Instr) (w sym : Nat) (hw : wordIndexFits w = true) (hsym : symFits sym = true) :
      Builds (.symbolWord mk) (w * 2 ^ 16 + sym) (mk w sym)
  | index (mk : Nat → Instr) (idx : Nat) (hidx : idxFits idx = true) : Builds (.index mk) idx (mk idx)
  | word (mk : Nat → Instr) (w : Nat) (hw : wordIndexFits w = true) : Builds (.word mk) w (mk w)
  | byte (mk : Byte → Instr) (b : Byte) : Builds (.byte mk) b.toNat (mk b)
  | flag (mk : Bool → Instr) (limit : Bool) : Builds (.flag mk) limit.toNat (mk limit)

theorem ifReservedZero_eq_ok_iff {reserved : Nat} {i j : Instr} :
    ifReservedZero reserved i = .ok j ↔ reserved = 0 ∧ i = j := by
  unfold ifReservedZero
  split <;> simp [*]

/-- With r reserved bits above a k-bit operand: the reserved bits are 0 exactly when all of [23:0] is an operand of k bits
(R90). -/
theorem ifReservedZero_field_eq_ok_iff {c : Word} {k r : Nat} (hk : k + r = 24) (mk : Nat → Instr) {i : Instr} :
    ifReservedZero (field c k r) (mk (field c 0 k)) = .ok i ↔ field c 0 24 < 2 ^ k ∧ mk (field c 0 24) = i := by
  rw [ifReservedZero_eq_ok_iff, ← field_split c hk]
  constructor
  · rintro ⟨hres, rfl⟩
    simpa [hres] using field_lt c 0 k
  · rintro ⟨hfit, rfl⟩
    have hres : field c k r = 0 := by
      by_contra hne
      have := Nat.le_mul_of_pos_left (2 ^ k) (Nat.pos_of_ne_zero hne)
      omega
    simp [hres]

/-- Where bits [23:0] are operands of the format, the decoder reads the command they make (R90). -/
theorem Format.read_of_builds {fmt : Format} {c : Word} {i : Instr} (h : fmt.Builds (field c 0 24) i) :
    fmt.read c = .ok i := by
  generalize hn : field c 0 24 = n at h
  cases h with
  | noOperand => exact ifReservedZero_eq_ok_iff.2 ⟨hn, rfl⟩
  | symbol mk _ hsym =>
    exact (ifReservedZero_field_eq_ok_iff rfl mk).2 ⟨hn ▸ (symFits_iff _).1 hsym, congrArg mk hn⟩
  | symbolWord mk w sym hw hsym =>
    rw [wordIndexFits_iff] at hw
    rw [symFits_iff] at hsym
    have hlow := field_lt c 0 16
    have hsplit : field c 16 8 * 2 ^ 16 + field c 0 16 = field c 0 24 := field_split c rfl
    exact congrArg Except.ok (congrArg₂ mk (by omega) (by omega))
  | index mk _ hidx =>
    exact (ifReservedZero_field_eq_ok_iff rfl mk).2 ⟨hn ▸ (idxFits_iff _).1 hidx, congrArg mk hn⟩
  | word mk _ hw =>
    exact (ifReservedZero_field_eq_ok_iff rfl mk).2 ⟨hn ▸ (wordIndexFits_iff _).1 hw, congrArg mk hn⟩
  | byte mk b =>
    refine (ifReservedZero_field_eq_ok_iff rfl fun v => mk (BitVec.ofNat 8 v)).2 ⟨hn ▸ b.isLt, congrArg mk ?_⟩
    rw [hn, BitVec.ofNat_toNat, BitVec.setWidth_eq]
  | flag mk limit =>
    refine (ifReservedZero_field_eq_ok_iff rfl fun v => mk (v == 1)).2 ⟨hn ▸ limit.toNat_lt, congrArg mk ?_⟩
    rw [hn]
    cases limit <;> rfl

/-- What the decoder reads is the command that bits [23:0] make, every operand fitting its field. -/
theorem Format.builds_of_read {fmt : Format} {c : Word} {i : Instr} (h : fmt.read c = .ok i) :
    fmt.Builds (field c 0 24) i := by
  cases fmt with
  | noOperand j =>
    obtain ⟨hzero, rfl⟩ := ifReservedZero_eq_ok_iff.1 h
    rw [hzero]
    exact .noOperand j
  | symbol mk =>
    obtain ⟨hfit, rfl⟩ := (ifReservedZero_field_eq_ok_iff rfl mk).1 h
    exact .symbol mk _ ((symFits_iff _).2 hfit)
  | symbolWord mk =>
    cases h
    rw [← field_split c (show 16 + 8 = 24 from rfl)]
    exact .symbolWord mk _ _ ((wordIndexFits_iff _).2 (field_lt c 16 8)) ((symFits_iff _).2 (field_lt c 0 16))
  | index mk =>
    obtain ⟨hfit, rfl⟩ := (ifReservedZero_field_eq_ok_iff rfl mk).1 h
    exact .index mk _ ((idxFits_iff _).2 hfit)
  | word mk =>
    obtain ⟨hfit, rfl⟩ := (ifReservedZero_field_eq_ok_iff rfl mk).1 h
    exact .word mk _ ((wordIndexFits_iff _).2 hfit)
  | byte mk =>
    obtain ⟨hfit, rfl⟩ := (ifReservedZero_field_eq_ok_iff rfl fun v => mk (BitVec.ofNat 8 v)).1 h
    have hbyte := Builds.byte mk (BitVec.ofNat 8 (field c 0 24))
    rwa [BitVec.toNat_ofNat, Nat.mod_eq_of_lt hfit] at hbyte
  | flag mk =>
    obtain ⟨hfit, rfl⟩ := (ifReservedZero_field_eq_ok_iff rfl fun v => mk (v == 1)).1 h
    obtain hbit | hbit : field c 0 24 = 0 ∨ field c 0 24 = 1 := by omega
    · simpa [hbit] using Builds.flag mk false
    · simpa [hbit] using Builds.flag mk true

theorem Format.read_eq_ok_iff {fmt : Format} {c : Word} {i : Instr} :
    fmt.read c = .ok i ↔ fmt.Builds (field c 0 24) i :=
  ⟨Format.builds_of_read, Format.read_of_builds⟩

theorem ifReservedZero_ne_undefinedOpcode (reserved : Nat) (i : Instr) :
    ifReservedZero reserved i ≠ .error .undefinedOpcode := by
  unfold ifReservedZero
  split <;> simp

/-- A defined opcode is illegal for its reserved bits only (R90). -/
theorem Format.read_ne_undefinedOpcode (fmt : Format) (c : Word) : fmt.read c ≠ .error .undefinedOpcode := by
  cases fmt with
  | symbolWord mk => simp [Format.read]
  | noOperand | symbol | index | word | byte | flag => exact ifReservedZero_ne_undefinedOpcode _ _

/-! ### The opcode map (R89) -/

theorem mem_opcodeMap_of_formatOf {opc : Nat} {fmt : Format} (h : formatOf opc = some fmt) : (opc, fmt) ∈ opcodeMap := by
  obtain ⟨row, hfind, rfl⟩ := Option.map_eq_some_iff.1 h
  obtain rfl : row.1 = opc := by simpa using List.find?_some hfind
  exact List.mem_of_find?_eq_some hfind

theorem formatOf_eq_none_iff (opc : Nat) : formatOf opc = none ↔ opc ∉ opcodeMap.map Prod.fst := by
  simp only [formatOf, Option.map_eq_none_iff, List.find?_eq_none, List.mem_map, beq_iff_eq, not_exists, not_and]

/-- The command made in the format of a row has the row's opcode and the operand bits it is made of, and is well-formed. -/
theorem opcodeMap_builds {opc n : Nat} {fmt : Format} {i : Instr} (hrow : (opc, fmt) ∈ opcodeMap) (h : fmt.Builds n i) :
    i.opcode = opc ∧ i.operandBits = n ∧ i.wellFormed = true := by
  fin_cases hrow
  all_goals cases h
  all_goals simp [Instr.opcode, Instr.operandBits, Instr.wellFormed, *]

/-- The map has the format of every command, and the operand bits of a well-formed command make it in that format. -/
theorem Instr.builds_operandBits {i : Instr} (h : i.wellFormed = true) :
    ∃ fmt, formatOf i.opcode = some fmt ∧ fmt.Builds i.operandBits i := by
  cases i with
  | nop | softReset | errClr | freqClr | bldSeed | bldStep | bldFinish | pqPeek | extract | codeClr | pkStart | pkFlush
  | decEnd => exact ⟨_, rfl, .noOperand _⟩
  | freqWr sym | freqInc sym | freqRd sym | codeWr sym | pkSym sym => exact ⟨_, rfl, .symbol _ sym h⟩
  | heapRd idx | nodeRd idx => exact ⟨_, rfl, .index _ idx h⟩
  | codeRd w sym =>
    obtain ⟨hw, hsym⟩ := Bool.and_eq_true_iff.1 h
    exact ⟨_, rfl, .symbolWord _ w sym hw hsym⟩
  | cbufWr w => exact ⟨_, rfl, .word _ w h⟩
  | decStart limit => exact ⟨_, rfl, .flag _ limit⟩
  | decByte b => exact ⟨_, rfl, .byte _ b⟩

/-! ### Decoding -/

theorem decode_of_formatOf {c : Word} {fmt : Format} (h : formatOf (opcodeField c) = some fmt) :
    decode c = fmt.read c := by
  simp [decode, h]

/-- Only an opcode outside the map makes a word's opcode undefined (R91). -/
theorem decode_eq_undefinedOpcode_iff (c : Word) :
    decode c = .error .undefinedOpcode ↔ formatOf (opcodeField c) = none := by
  cases h : formatOf (opcodeField c) with
  | none => simp [decode, h]
  | some fmt => simpa [decode_of_formatOf h] using fmt.read_ne_undefinedOpcode c

/-- A word is the command whose format reads it (R92). -/
theorem decode_eq_ok_iff_read {c : Word} {i : Instr} :
    decode c = .ok i ↔ ∃ fmt, formatOf (opcodeField c) = some fmt ∧ fmt.read c = .ok i := by
  cases h : formatOf (opcodeField c) <;> simp [decode, h]

/-- The words that decode to a command are its encodings, of which a well-formed command has one (R80 to R92). -/
theorem decode_eq_ok_iff {c : Word} {i : Instr} : decode c = .ok i ↔ i.wellFormed = true ∧ encode i = c := by
  simp only [decode_eq_ok_iff_read, Format.read_eq_ok_iff]
  constructor
  · rintro ⟨fmt, hfmt, hbuilds⟩
    obtain ⟨hopc, hbits, hwf⟩ := opcodeMap_builds (mem_opcodeMap_of_formatOf hfmt) hbuilds
    exact ⟨hwf, by rw [encode, hopc, hbits, word_of_fields]⟩
  · rintro ⟨hwf, rfl⟩
    obtain ⟨hopc, hbits⟩ := Laws.WordParts.of_bounds i hwf
    rw [hopc, hbits]
    exact Instr.builds_operandBits hwf

/-- Settles O1: the word of a well-formed command decodes to it. -/
theorem decodeEncodeAgree : Obligations.DecodeEncodeAgree := fun _ hwf => decode_eq_ok_iff.2 ⟨hwf, rfl⟩

/-- Settles O2: the same equivalence, read from the word. -/
theorem decodedWordsAreEncodings : Obligations.DecodedWordsAreEncodings := fun _ _ h => decode_eq_ok_iff.1 h

/-- Settles O3: the map lists the defined opcodes, and the engine raises EILL on a word that does not decode. -/
theorem illegalWordsRaiseEill : Obligations.IllegalWordsRaiseEill := by
  constructor
  · intro c
    rw [decode_eq_undefinedOpcode_iff, formatOf_eq_none_iff]
    rfl
  · intro s c why hwhy
    rw [Machine.State.engineStep_error hwhy]
    rfl

/-- Settles O4: the twelve words are decoded. -/
theorem specWordsDecode : Obligations.SpecWordsDecode := by
  unfold Obligations.SpecWordsDecode
  decide

end Sys2Proof
end

section
/-! SUPPORT. Words of a defined opcode whose format has reserved bits (30_encoding.md R81 to R87, R90), and the control
commands (40_control.md R100 to R102). -/

namespace Sys2Proof

open Machine Claims

/-! ### Words with reserved bits -/

theorem ifReservedZero_of_ne {reserved : Nat} (h : reserved ≠ 0) (i : Instr) :
    ifReservedZero reserved i = .error .reservedBit := if_neg h

/-- The engine raises EILL on a word that the decoder refuses for a reserved bit (R90). -/
theorem reservedRaisesEill_of_decode {c : Word} (h : decode c = .error .reservedBit) : ReservedRaisesEill c :=
  ⟨h, fun s => State.engineStep_error h s⟩

/-- Both clauses about the words of a format: the command where the reserved bits are 0, EILL where they are not (R90). -/
theorem decode_or_eill_of_read {c : Word} {fmt : Format} {reserved : Nat} {i : Instr}
    (hfmt : formatOf (opcodeField c) = some fmt) (hread : fmt.read c = ifReservedZero reserved i) :
    if reserved = 0 then decode c = .ok i else ReservedRaisesEill c := by
  have hdecode : decode c = ifReservedZero reserved i := (decode_of_formatOf hfmt).trans hread
  split
  case isTrue hzero => exact hdecode.trans (ifReservedZero_eq_ok_iff.2 ⟨hzero, rfl⟩)
  case isFalse hset => exact reservedRaisesEill_of_decode (hdecode.trans (ifReservedZero_of_ne hset i))

/-- A row of the map in format N gives the words of its opcode (R81). -/
theorem encodedN_of_formatOf {opc : Nat} {i : Instr} (h : formatOf opc = some (.noOperand i)) : EncodedN opc i :=
  fun _ hopc => decode_or_eill_of_read (hopc ▸ h) rfl

/-! ### The control commands -/

theorem exec_nop (s : State) : exec .nop s = .next s := rfl

theorem exec_errClr (s : State) : exec .errClr s = .next s.clearError := rfl

theorem exec_softReset (s : State) : exec .softReset s = .next s.resetAction := rfl

/-- Settles O29: both opcodes have format N; NOP answers its own state and ERR_CLR the state without its error. -/
theorem nopAndErrClr : Obligations.NopAndErrClr :=
  ⟨encodedN_of_formatOf rfl, encodedN_of_formatOf rfl, fun s => ⟨exec_nop s, exec_errClr s⟩⟩

/-- Settles O30: opcode 0x01 has format N, and SOFT_RESET executed from a latch does the reset action. -/
theorem latchedSoftResetResets : Obligations.LatchedSoftResetResets :=
  ⟨encodedN_of_formatOf rfl, exec_softReset⟩

end Sys2Proof
end

section
/-! SUPPORT. Words of format S (30_encoding.md R82), the ESYM check (R88), and the frequency table commands
(41_frequency.md R111 to R114). -/

namespace Sys2Proof

open Machine Claims

/-- A row of the map in format S gives the words of its opcode (R82). -/
theorem encodedS_of_formatOf {opc : Nat} {mk : Nat → Instr} (h : formatOf opc = some (.symbol mk)) :
    EncodedS opc mk :=
  fun _ hopc => decode_or_eill_of_read (hopc ▸ h) rfl

/-! ### The ESYM check (R88) -/

/-- A symbol at or above NSYM raises ESYM, whatever is checked after it (R223). -/
theorem Machine.State.guarded_badSym {s : State} {sym : Nat} (h : s.cfg.nsym ≤ sym) (rest : List (Bool × ErrCode))
    (effect : Host.Outcome State Fault Refusal) :
    s.guarded (s.badSym sym :: rest) effect = .next (raised s .esym) :=
  State.guarded_error (by simp [State.badSym, h]) effect

/-- A symbol below NSYM leaves the later checks to decide. -/
theorem Machine.State.firstError_badSym {s : State} {sym : Nat} (h : sym < s.cfg.nsym)
    (rest : List (Bool × ErrCode)) : firstError (s.badSym sym :: rest) = firstError rest := by
  simp [State.badSym, h]

/-! ### The frequency table commands -/

theorem exec_freqClr (s : State) : exec .freqClr s = .next { s with freq := [] } := rfl

theorem exec_freqWr {s : State} {sym : Nat} (h : sym < s.cfg.nsym) :
    exec (.freqWr sym) s = .next (s.setFreq sym s.a0) :=
  State.guarded_ok (State.firstError_badSym h _) _

theorem exec_freqInc {s : State} {sym : Nat} (h : sym < s.cfg.nsym) (hmax : s.freqOf sym ≠ 0xFFFFFFFF) :
    exec (.freqInc sym) s = .next (s.setFreq sym (s.freqOf sym + 1)) :=
  State.guarded_ok ((State.firstError_badSym h _).trans (by simpa using hmax)) _

theorem exec_freqInc_max {s : State} {sym : Nat} (h : sym < s.cfg.nsym) (hmax : s.freqOf sym = 0xFFFFFFFF) :
    exec (.freqInc sym) s = .next (raised s .eovf) :=
  State.guarded_error ((State.firstError_badSym h _).trans (by simp [hmax])) _

theorem exec_freqRd {s : State} {sym : Nat} (h : sym < s.cfg.nsym) :
    exec (.freqRd sym) s = .next { s with result0 := s.freqOf sym } :=
  State.guarded_ok (State.firstError_badSym h _) _

/-- Settles O31: the empty array has every count at its reset value. -/
theorem freqClrClears : Obligations.FreqClrClears :=
  ⟨encodedN_of_formatOf rfl, fun s => ⟨{ s with freq := [] }, exec_freqClr s, fun _ => rfl, rfl⟩⟩

/-- Settles O32: behind the ESYM check the command is one array write. -/
theorem freqWrStores : Obligations.FreqWrStores :=
  ⟨encodedS_of_formatOf rfl, fun s sym => ⟨fun hbad => State.guarded_badSym hbad _ _,
    fun hsym => ⟨s.setFreq sym s.a0, exec_freqWr hsym, s.freqOf_setFreq sym s.a0, rfl⟩⟩⟩

/-- Settles O33: behind both checks the count is not the greatest word, so the addition does not wrap. -/
theorem freqIncCounts : Obligations.FreqIncCounts := by
  refine ⟨encodedS_of_formatOf rfl, fun s sym => ⟨fun hbad => State.guarded_badSym hbad _ _, exec_freqInc_max,
    fun hsym hmax => ⟨s.setFreq sym (s.freqOf sym + 1), exec_freqInc hsym hmax, ?count, ?others, rfl⟩⟩⟩
  case count =>
    rw [State.freqOf_setFreq, if_pos rfl]
    bv_omega
  case others =>
    intro y hy
    rw [State.freqOf_setFreq, if_neg hy]

/-- Settles O34: behind the ESYM check the command only writes RESULT0. -/
theorem freqRdReports : Obligations.FreqRdReports :=
  ⟨encodedS_of_formatOf rfl, fun _ _ => ⟨fun hbad => State.guarded_badSym hbad _ _, exec_freqRd⟩⟩

end Sys2Proof
end

section
/-! SUPPORT. Seeding as a fold over the leaves (42_builder.md R126), the merge loop as a number of merges (R129), and what of
the forest does not depend on the arrangement of the heap array (R133, R134). -/

namespace Sys2Proof.Machine

open Claims

/-! ### Nodes allocated later do not move what is queued (R123) -/

theorem heapInsert_append {nodes : List Node} {h : List Nat} {n : Nat} (hdef : ∀ m ∈ n :: h, m < nodes.length)
    (more : List Node) : heapInsert (nodes ++ more) h n = heapInsert nodes h n := by
  refine siftUp_congr _ _ _ (fun m hm => weightAt_append (hdef m ?_) more) (by simp)
  simpa [or_comm] using hm

theorem foldl_heapInsert_append {nodes : List Node} {ns h : List Nat} (hns : ∀ n ∈ ns, n < nodes.length)
    (hh : ∀ n ∈ h, n < nodes.length) (more : List Node) :
    ns.foldl (heapInsert (nodes ++ more)) h = ns.foldl (heapInsert nodes) h := by
  induction ns generalizing h with
  | nil => rfl
  | cons n ns ih =>
    obtain ⟨hn, hns⟩ := List.forall_mem_cons.1 hns
    have hdef : ∀ m ∈ n :: h, m < nodes.length := List.forall_mem_cons.2 ⟨hn, hh⟩
    rw [List.foldl_cons, List.foldl_cons, heapInsert_append hdef]
    exact ih hns fun m hm => hdef m ((heapInsert_perm nodes h n).mem_iff.1 hm)

/-! ### Seeding (R126) -/

theorem seedNodes_cons_zero {s : State} {sym : Nat} (h : s.freqOf sym = 0) (rest : List Nat) :
    seedNodes s (sym :: rest) = seedNodes s rest := by
  simp [seedNodes, h]

theorem seedNodes_cons_ne_zero {s : State} {sym : Nat} (h : s.freqOf sym ≠ 0) (rest : List Nat) :
    seedNodes s (sym :: rest) = .leaf (s.freqOf sym) sym :: seedNodes s rest := by
  unfold seedNodes
  rw [List.filter_cons_of_pos (by simpa using h), List.map_cons]

theorem seedLeaves_eq_foldl (s : State) (syms : List Nat) (f : Forest) :
    seedLeaves s syms f = (seedNodes s syms).foldl Forest.add f := by
  induction syms generalizing f with
  | nil => rfl
  | cons sym rest ih =>
    unfold seedLeaves
    by_cases hzero : s.freqOf sym = 0
    · rw [if_pos hzero, ih, seedNodes_cons_zero hzero]
    · rw [if_neg hzero, ih, seedNodes_cons_ne_zero hzero, List.foldl_cons]

/-- Nodes added in turn to an empty forest stand in the store as given, and are inserted in the order of their indices. -/
theorem foldl_add_nil (nodes : List Node) :
    nodes.foldl Forest.add ([], []) = (nodes, (List.range nodes.length).foldl (heapInsert nodes) []) := by
  induction nodes using List.reverseRecOn with
  | nil => rfl
  | append_singleton nodes node ih =>
    have hearlier : (List.range nodes.length).foldl (heapInsert (nodes ++ [node])) [] =
        (List.range nodes.length).foldl (heapInsert nodes) [] :=
      foldl_heapInsert_append (fun n hn => List.mem_range.1 hn) (by simp) [node]
    rw [List.foldl_concat, ih, List.length_append, List.length_singleton, List.range_succ, List.foldl_concat, hearlier]
    rfl

/-! ### The merge loop (R129) -/

theorem merge_length {f : Forest} (h : 2 ≤ f.2.length) : (merge f).2.length + 1 = f.2.length := by
  obtain ⟨a, h1, b, h2, -, -, hlen, heq⟩ := merge_eq f.1 f.2 h
  rw [heq, (heapInsert_perm _ h2 _).length_eq, List.length_cons]
  omega

/-- The loop merges once less often than nodes are queued, and counts that (R129). -/
theorem mergeAll_eq_iterate {fuel : Nat} {f : Forest} (hfuel : f.2.length ≤ fuel + 1) :
    mergeAll fuel f = (merge^[f.2.length - 1] f, f.2.length - 1) := by
  induction fuel generalizing f with
  | zero =>
    have hdone : f.2.length - 1 = 0 := by omega
    rw [hdone]
    rfl
  | succ fuel ih =>
    unfold mergeAll
    split
    case isTrue hfew =>
      have hdone : f.2.length - 1 = 0 := by omega
      rw [hdone]
      rfl
    case isFalse hmany =>
      have hlen := merge_length (f := f) (by omega)
      have hround : f.2.length - 1 = ((merge f).2.length - 1) + 1 := by omega
      rw [ih (by omega), hround]
      rfl

theorem iterate_merge_length {n : Nat} {f : Forest} (h : n ≤ f.2.length - 1) :
    (merge^[n] f).2.length = f.2.length - n := by
  induction n generalizing f with
  | zero => rfl
  | succ n ih =>
    have hlen := merge_length (f := f) (by omega)
    rw [Function.iterate_succ_apply, ih (by omega)]
    omega

/-! ### The arrangement of the heap (R134) -/

/-- The least node of a queue, and the others, do not depend on how the queue is written down: `less` is total. -/
theorem least_unique {nodes : List Node} {a b : Nat} {as bs : List Nat} (hperm : (a :: as).Perm (b :: bs))
    (ha : ∀ n ∈ as, less nodes n a = false) (hb : ∀ n ∈ bs, less nodes n b = false) : a = b ∧ as.Perm bs := by
  have heq : a = b := by
    by_contra hne
    have hab : a ∈ bs := List.mem_of_ne_of_mem hne (hperm.mem_iff.1 List.mem_cons_self)
    have hba : b ∈ as := List.mem_of_ne_of_mem (Ne.symm hne) (hperm.mem_iff.2 List.mem_cons_self)
    rcases less_total (nodes := nodes) hne with hlt | hlt
    · simp [hb a hab] at hlt
    · simp [ha b hba] at hlt
  subst heq
  exact ⟨rfl, hperm.cons_inv⟩

/-- Merging two arrangements of one queue allocates the same node and leaves two arrangements of one queue. -/
theorem merge_perm {nodes : List Node} {h1 h2 : List Nat} (hok1 : ForestOk nodes h1) (hok2 : ForestOk nodes h2)
    (hperm : h1.Perm h2) (htwo : 2 ≤ h1.length) :
    ∃ nodes' h1' h2', merge (nodes, h1) = (nodes', h1') ∧ merge (nodes, h2) = (nodes', h2') ∧ h1'.Perm h2' ∧
      ForestOk nodes' h1' ∧ ForestOk nodes' h2' := by
  obtain ⟨a1, b1, rest1, h1', heq1, hp1, hp1', hleast1, hnext1, -, hok1'⟩ := merge_spec hok1 htwo
  obtain ⟨a2, b2, rest2, h2', heq2, hp2, hp2', hleast2, hnext2, -, hok2'⟩ :=
    merge_spec hok2 (hperm.length_eq ▸ htwo)
  obtain ⟨rfl, hothers⟩ := least_unique (hp1.symm.trans (hperm.trans hp2)) hleast1 hleast2
  obtain ⟨rfl, hrest⟩ := least_unique hothers hnext1 hnext2
  exact ⟨_, h1', h2', heq1, heq2, hp1'.trans ((hrest.cons _).trans hp2'.symm), hok1', hok2'⟩

theorem mergeAll_perm (fuel : Nat) {nodes : List Node} {h1 h2 : List Nat} (hok1 : ForestOk nodes h1)
    (hok2 : ForestOk nodes h2) (hperm : h1.Perm h2) :
    (mergeAll fuel (nodes, h1)).1.1 = (mergeAll fuel (nodes, h2)).1.1 ∧
    (mergeAll fuel (nodes, h1)).1.2.Perm (mergeAll fuel (nodes, h2)).1.2 := by
  induction fuel generalizing nodes h1 h2 with
  | zero => exact ⟨rfl, hperm⟩
  | succ fuel ih =>
    have hsame : h1.length < 2 ↔ h2.length < 2 := by rw [hperm.length_eq]
    unfold mergeAll
    by_cases hfew : h1.length < 2
    · rw [if_pos hfew, if_pos (hsame.1 hfew)]
      exact ⟨rfl, hperm⟩
    · obtain ⟨nodes', h1', h2', heq1, heq2, hperm', hok1', hok2'⟩ := merge_perm hok1 hok2 hperm (by omega)
      rw [if_neg hfew, if_neg (mt hsame.2 hfew), heq1, heq2]
      exact ih hok1' hok2' hperm'

theorem head?_eq_of_perm {α : Type} {as bs : List α} (hperm : as.Perm bs) (h : as.length ≤ 1) : as.head? = bs.head? := by
  match as, h with
  | [], _ => rw [List.nil_perm.1 hperm]
  | [a], _ => rw [List.singleton_perm.1 hperm]

/-! ### The leaves and their total (R133) -/

theorem leafWeights_eq_leafPairs (nodes : List Node) : leafWeights nodes = leafPairs nodes := by
  induction nodes with
  | nil => rfl
  | cons node rest ih =>
    cases node with
    | leaf w sym => exact congrArg _ ih
    | internal w l r => exact ih

theorem leafWeights_append_internals (nodes : List Node) {more : List Node}
    (hm : ∀ node ∈ more, ∃ w l r, node = Node.internal w l r) : leafWeights (nodes ++ more) = leafWeights nodes := by
  have hmore : leafPairs more = [] := by
    rw [leafPairs, List.filterMap_eq_nil_iff]
    intro node hn
    obtain ⟨w, l, r, rfl⟩ := hm node hn
    rfl
  rw [leafWeights_eq_leafPairs, leafWeights_eq_leafPairs, leafPairs, List.filterMap_append]
  exact (congrArg _ hmore).trans (List.append_nil _)

theorem leafCount_eq_length (nodes : List Node) : leafCount nodes = (leafWeights nodes).length := by
  rw [leafWeights_eq_leafPairs, leafCount, ← leafPairs_syms, List.length_map]

theorem Shape.leaves_weight (t : Shape) : (t.leaves.map Prod.snd).sum = t.weight := by
  induction t with
  | leaf w sym => simp [Shape.leaves, Shape.weight]
  | node l r ihl ihr => simp [Shape.leaves, Shape.weight, ihl, ihr]

/-- The queued nodes together weigh what the leaves weigh: each leaf is below exactly one of them (R133(d)). -/
theorem ForestOk.queuedTotal_eq {nodes : List Node} {heap : List Nat} (h : ForestOk nodes heap) :
    queuedTotal nodes heap = ((leafWeights nodes).map Prod.snd).sum := by
  have hshape : ∀ n ∈ heap, (weightAt nodes n).toNat = ((shapeAt nodes n).leaves.map Prod.snd).sum := fun n hn => by
    rw [Shape.leaves_weight, h.weight_shape (h.queued_defined n hn)]
  calc queuedTotal nodes heap
      = (heap.map fun n => ((shapeAt nodes n).leaves.map Prod.snd).sum).sum := by
        rw [queuedTotal, List.map_congr_left hshape]
    _ = ((heap.flatMap fun n => (shapeAt nodes n).leaves).map Prod.snd).sum := by
        rw [List.map_flatMap, List.flatMap_def, List.sum_flatten, List.map_map]
        rfl
    _ = ((leafWeights nodes).map Prod.snd).sum := by
        rw [leafWeights_eq_leafPairs]
        exact ((queued_leaves h.childrenBelow h.onceEach).map _).sum_eq

/-- A BUILT tree with k leaves: nothing when k = 0, else 2k-1 nodes with the root 2k-2, which weighs the total (R133). -/
theorem Invariant.built_complete {s : State} (h : Invariant s) (hphase : s.bstate = .built) :
    (leafCount s.nodes = 0 → s.nodes = [] ∧ s.heap = [] ∧ s.root = none) ∧
    (1 ≤ leafCount s.nodes →
      s.nodes.length = 2 * leafCount s.nodes - 1 ∧ s.heap = [2 * leafCount s.nodes - 2] ∧
      s.root = some (2 * leafCount s.nodes - 2) ∧
      (weightAt s.nodes (2 * leafCount s.nodes - 2)).toNat = ((leafWeights s.nodes).map Prod.snd).sum) := by
  have hcount := h.forestOk.count
  have htotal := h.forestOk.queuedTotal_eq
  rcases h.built_cases hphase with ⟨hroot, hnodes, hheap⟩ | ⟨r, hroot, hheap, hr, -⟩
  · have hzero : leafCount s.nodes = 0 := by simpa [hnodes, hheap] using hcount.symm
    exact ⟨fun _ => ⟨hnodes, hheap, hroot⟩, fun hpos => by omega⟩
  · have hlast := h.forestOk.last_queued (List.length_pos_iff.1 (by omega))
    rw [hheap, List.mem_singleton] at hlast
    rw [hheap, List.length_singleton] at hcount
    obtain rfl : r = 2 * leafCount s.nodes - 2 := by omega
    rw [hheap, queuedTotal_cons] at htotal
    exact ⟨fun hzero => by omega, fun _ => ⟨by omega, hheap, hroot, by simpa [queuedTotal] using htotal⟩⟩

/-! ### The order in the words of the statements (R121) -/

theorem nodeWeight_eq (nodes : List Node) (n : Nat) : nodeWeight nodes n = (weightAt nodes n).toNat := by
  unfold nodeWeight weightAt
  rcases nodes[n]? with _ | ⟨_, _⟩ | ⟨_, _, _⟩ <;> rfl

theorem lighter_iff (nodes : List Node) (x y : Nat) : Lighter nodes x y ↔ less nodes x y = true := by
  rw [Lighter, less_iff, nodeWeight_eq, nodeWeight_eq]

/-- Of two different nodes the one that no other is less than is the lighter one (R134). -/
theorem lighter_of_not_less {nodes : List Node} {x y : Nat} (hne : x ≠ y) (h : less nodes y x = false) :
    Lighter nodes x y :=
  (lighter_iff nodes x y).2 ((less_total hne).resolve_right (by simp [h]))

/-- No node is queued twice (R48(c)). -/
theorem ForestOk.heap_nodup {nodes : List Node} {heap : List Nat} (h : ForestOk nodes heap) : heap.Nodup :=
  (h.onceEach.nodup_iff.2 List.nodup_range).of_append_left

end Sys2Proof.Machine
end

section
/-! SUPPORT. Words of format I (30_encoding.md R84), and the tree builder commands (42_builder.md R126 to R132). -/

namespace Sys2Proof

open Machine Claims

/-- A row of the map in format I gives the words of its opcode (R84). -/
theorem encodedI_of_formatOf {opc : Nat} {mk : Nat → Instr} (h : formatOf opc = some (.index mk)) :
    EncodedI opc mk :=
  fun _ hopc => decode_or_eill_of_read (hopc ▸ h) rfl

/-! ### BLD_SEED (R126) -/

theorem exec_bldSeed_overflow {s : State} (h : wmax < s.freqTotal) : exec .bldSeed s = .next (raised s .eovf) :=
  State.guarded_error (by simp [h]) _

theorem exec_bldSeed {s : State} {leaves : List Node} (h : s.freqTotal ≤ wmax)
    (hleaves : seedNodes s (List.range s.cfg.nsym) = leaves) :
    exec .bldSeed s = .next { s with
      nodes := leaves, heap := (List.range leaves.length).foldl (heapInsert leaves) [], root := none,
      bstate := .seeded, result0 := BitVec.ofNat 32 leaves.length } := by
  refine (State.guarded_ok (by simpa using h) _).trans ?_
  rw [seedLeaves_eq_foldl, hleaves, foldl_add_nil]

theorem seedNodes_eq_decide (s : State) (syms : List Nat) : seedNodes s syms =
    (syms.filter fun sym => decide (s.freqOf sym ≠ 0)).map fun sym => Node.leaf (s.freqOf sym) sym := by
  simp [seedNodes, bne, beq_eq_decide]

/-- Settles O35: seeding adds the leaves in turn to an empty forest. -/
theorem bldSeedSeedsLeaves : Obligations.BldSeedSeedsLeaves := by
  exact ⟨encodedN_of_formatOf rfl, fun s =>
    ⟨exec_bldSeed_overflow, fun htotal => exec_bldSeed htotal (seedNodes_eq_decide s _)⟩⟩

/-! ### BLD_STEP and BLD_FINISH (R128, R129) -/

theorem Machine.State.heapDefined_iff (s : State) : s.heapDefined = true ↔ ∀ n ∈ s.heap, n < s.nodes.length := by
  simp [State.heapDefined]

theorem exec_bldStep_estate {s : State} (h : s.bstate ≠ .seeded ∨ s.heap.length < 2) :
    exec .bldStep s = .next (raised s .estate) :=
  State.guarded_error (by simpa [Decidable.imp_iff_not_or] using h) _

theorem exec_bldStep {s : State} {f : Forest} (hphase : s.bstate = .seeded) (htwo : 2 ≤ s.heap.length)
    (hdef : ∀ n ∈ s.heap, n < s.nodes.length) (hf : merge (s.nodes, s.heap) = f) :
    exec .bldStep s = .next { s with
      nodes := f.1, heap := f.2, result0 := BitVec.ofNat 32 s.nodes.length,
      result1 := weightAt f.1 s.nodes.length } := by
  subst hf
  have hpass : firstError [(s.bstate != .seeded || decide (s.heap.length < 2), .estate)] = none := by
    simp [hphase, Nat.not_lt.2 htwo]
  exact (State.guarded_ok hpass _).trans (if_pos (s.heapDefined_iff.2 hdef))

/-- Settles O36: the new node's weight is what RESULT1 reads at its index. -/
theorem bldStepMergesOnce : Obligations.BldStepMergesOnce := by
  refine ⟨encodedN_of_formatOf rfl, fun s => ⟨exec_bldStep_estate, fun hphase htwo hdef => ?_⟩⟩
  obtain ⟨a, h1, b, h2, hremove1, hremove2, -, hmerge⟩ := merge_eq s.nodes s.heap htwo
  refine ⟨a, h1, b, h2, _, hremove1, hremove2, rfl, hmerge, ?_⟩
  rw [exec_bldStep hphase htwo hdef hmerge]
  simp only [weightAt_new]
  rfl

/-- Settles O37: the two removed nodes are the least of the queue, and no node is queued twice. -/
theorem mergeTakesTheTwoLeast : Obligations.MergeTakesTheTwoLeast := by
  intro s h hphase htwo
  obtain ⟨a, b, rest, heap, hmerge, hqueue, hrest, hleast, hnext, hsum, -⟩ := merge_spec h.forestOk htwo
  obtain ⟨ha, hb⟩ : (∀ n ∈ b :: rest, a ≠ n) ∧ (∀ n ∈ rest, b ≠ n) := by
    have hnodup := List.nodup_cons.1 (hqueue.nodup_iff.1 h.forestOk.heap_nodup)
    exact ⟨fun n hn he => hnodup.1 (he ▸ hn), fun n hn he => (List.nodup_cons.1 hnodup.2).1 (he ▸ hn)⟩
  refine ⟨_, a, b, rest, _, exec_bldStep hphase htwo h.forestOk.queued_defined hmerge, hqueue,
    fun n hn => lighter_of_not_less (ha n hn) (hleast n hn), fun n hn => lighter_of_not_less (hb n hn) (hnext n hn),
    rfl, hrest, ?_⟩
  rw [nodeWeight_eq, nodeWeight_eq, hsum]

/-- RESULT1 of BLD_FINISH: the weight of the node at the queue's head, or 0 (R129). -/
def Machine.Forest.headWeight (f : Forest) : Word :=
  match f.2.head? with
  | some root => weightAt f.1 root
  | none => 0

theorem exec_bldFinish_estate {s : State} (h : s.bstate ≠ .seeded) :
    exec .bldFinish s = .next (raised s .estate) :=
  State.guarded_error (by simpa using h) _

theorem exec_bldFinish {s : State} {f : Forest} {merges : Nat} (hphase : s.bstate = .seeded)
    (hdef : ∀ n ∈ s.heap, n < s.nodes.length) (hm : mergeAll s.heap.length (s.nodes, s.heap) = (f, merges)) :
    exec .bldFinish s = .next { s with
      nodes := f.1, heap := f.2, root := f.2.head?, bstate := .built,
      result0 := BitVec.ofNat 32 merges, result1 := Forest.headWeight f } := by
  refine (State.guarded_ok (by simp [hphase]) _).trans ((if_pos (s.heapDefined_iff.2 hdef)).trans ?_)
  rw [hm]
  rfl

/-- Settles O38: the loop is HSIZE-1 merges, each of which shortens the queue by one. -/
theorem bldFinishMergesAll : Obligations.BldFinishMergesAll := by
  refine ⟨encodedN_of_formatOf rfl, fun s => ⟨exec_bldFinish_estate, fun hphase hdef =>
    ⟨?_, exec_bldFinish hphase hdef (mergeAll_eq_iterate (Nat.le_succ _))⟩⟩⟩
  calc (merge^[s.heap.length - 1] (s.nodes, s.heap)).2.length
      = s.heap.length - (s.heap.length - 1) := iterate_merge_length le_rfl
    _ = min 1 s.heap.length := by omega

/-- Settles O39: BLD_FINISH keeps the invariant and the leaves, and a BUILT tree of the invariant is complete. -/
theorem builtTreeIsComplete : Obligations.BuiltTreeIsComplete := by
  intro s h hphase
  obtain ⟨-, -, -, ⟨more, hnodes, -, hmore⟩, -⟩ := mergeAll_spec s.heap.length h.forestOk (Nat.le_succ _)
  have hleaves : leafWeights (mergeAll s.heap.length (s.nodes, s.heap)).1.1 = leafWeights s.nodes :=
    hnodes ▸ leafWeights_append_internals s.nodes hmore
  have hbuilt := (h.bldFinish (BitVec.ofNat 32 (mergeAll s.heap.length (s.nodes, s.heap)).2)
    (Forest.headWeight (mergeAll s.heap.length (s.nodes, s.heap)).1)).built_complete rfl
  simp only [leafCount_eq_length, hleaves] at hbuilt
  refine ⟨_, exec_bldFinish hphase h.forestOk.queued_defined rfl, rfl, hleaves, ?_⟩
  simpa only [leafCount_eq_length] using hbuilt

/-- Settles O40: both loops make the same merges, and a queue of at most one node has one arrangement. -/
theorem treeIgnoresHeapArrangement : Obligations.TreeIgnoresHeapArrangement := by
  intro s heap h h' hperm hphase
  have hlen : (mergeAll s.heap.length (s.nodes, s.heap)).1.2.length ≤ 1 := by
    obtain ⟨-, hmin, -⟩ := mergeAll_spec s.heap.length h.forestOk (Nat.le_succ _)
    omega
  obtain ⟨hnodes, hqueue⟩ := mergeAll_perm s.heap.length h.forestOk h'.forestOk hperm.symm
  refine ⟨_, _, exec_bldFinish hphase h.forestOk.queued_defined rfl,
    exec_bldFinish hphase h'.forestOk.queued_defined rfl, ?_⟩
  simp only [hperm.length_eq]
  exact ⟨hnodes, head?_eq_of_perm hqueue hlen⟩

/-! ### Reading the queue and the node store (R130 to R132) -/

theorem Machine.State.reportQueued_defined {s : State} {n : Nat} {node : Node} (h : s.nodes[n]? = some node) :
    s.reportQueued n = .next { s with result0 := BitVec.ofNat 32 n, result1 := node.weight } := by
  simp [State.reportQueued, h]

theorem Machine.heapAt_of_getElem? {h : List Nat} {i n : Nat} (hi : h[i]? = some n) : heapAt h i = n := by
  simp [heapAt, hi]

theorem exec_pqPeek_estate {s : State} (h : s.heap = []) : exec .pqPeek s = .next (raised s .estate) :=
  State.guarded_error (by simp [h]) _

theorem exec_heapRd_earg {s : State} {idx : Nat} (h : s.heap.length ≤ idx) :
    exec (.heapRd idx) s = .next (raised s .earg) :=
  State.guarded_error (by simp [h]) _

theorem exec_heapRd {s : State} {idx n : Nat} {node : Node} (hqueued : s.heap[idx]? = some n)
    (hnode : s.nodes[n]? = some node) :
    exec (.heapRd idx) s = .next { s with result0 := BitVec.ofNat 32 n, result1 := node.weight } := by
  obtain ⟨hidx, -⟩ := List.getElem?_eq_some_iff.1 hqueued
  refine (State.guarded_ok (by simpa using hidx) _).trans ?_
  rw [heapAt_of_getElem? hqueued, State.reportQueued_defined hnode]

/-- On a queue that is not empty PQ_PEEK is HEAP_RD of position 0 (R130, R131). -/
theorem exec_pqPeek_eq_heapRd {s : State} (h : s.heap ≠ []) : exec .pqPeek s = exec (.heapRd 0) s :=
  (State.guarded_ok (by simpa using h) _).trans (State.guarded_ok (by simpa using h) _).symm

/-- Settles O41: behind its check each command reports one defined position of the queue. -/
theorem queueReads : Obligations.QueueReads := by
  refine ⟨encodedN_of_formatOf rfl, encodedI_of_formatOf rfl, fun s =>
    ⟨exec_pqPeek_estate, fun n rest node hheap hnode => ?_, fun _ => exec_heapRd_earg, fun _ _ _ => exec_heapRd⟩⟩
  rw [exec_pqPeek_eq_heapRd (by simp [hheap]), exec_heapRd (by simp [hheap]) hnode]

theorem exec_nodeRd_earg {s : State} {idx : Nat} (h : s.nodes.length ≤ idx) :
    exec (.nodeRd idx) s = .next (raised s .earg) := by
  simp only [exec, execNodeRd, List.getElem?_eq_none h]
  rfl

theorem exec_nodeRd_leaf {s : State} {idx sym : Nat} {w : Word} (h : s.nodes[idx]? = some (.leaf w sym)) :
    exec (.nodeRd idx) s = .next { s with result0 := w, result1 := BitVec.ofNat 32 sym, result2 := 0 } := by
  simp only [exec, execNodeRd, h]

theorem exec_nodeRd_internal {s : State} {idx l r : Nat} {w : Word}
    (h : s.nodes[idx]? = some (.internal w l r)) :
    exec (.nodeRd idx) s = .next { s with
      result0 := w, result1 := 0x80000000 + BitVec.ofNat 32 l, result2 := BitVec.ofNat 32 r } := by
  simp only [exec, execNodeRd, h]

/-- Settles O42: one case per kind of entry, and EARG where there is none. -/
theorem nodeRdReportsAnEntry : Obligations.NodeRdReportsAnEntry :=
  ⟨encodedI_of_formatOf rfl, fun _ _ =>
    ⟨exec_nodeRd_earg, fun _ _ => exec_nodeRd_leaf, fun _ _ _ => exec_nodeRd_internal⟩⟩

end Sys2Proof
end

section
/-! SUPPORT. The checks of the code table commands (30_encoding.md R88, 43_extractor.md R150), words of formats SW and W
(30_encoding.md R83, R85), and the commands CODE_RD, CODE_CLR, CBUF_WR and CODE_WR (43_extractor.md R153 to R156). -/

namespace Sys2Proof

open Machine Claims

/-- A row of the map in format SW gives the words of its opcode (R83). -/
theorem encodedSW_of_formatOf {opc : Nat} {mk : Nat → Nat → Instr} (h : formatOf opc = some (.symbolWord mk)) :
    EncodedSW opc mk :=
  fun _ hopc => decode_of_formatOf (hopc ▸ h)

/-- A row of the map in format W gives the words of its opcode (R85). -/
theorem encodedW_of_formatOf {opc : Nat} {mk : Nat → Instr} (h : formatOf opc = some (.word mk)) :
    EncodedW opc mk :=
  fun _ hopc => decode_or_eill_of_read (hopc ▸ h) rfl

/-! ### The checks -/

/-- An open stream raises ESTATE, whatever is checked after it (R150, R223). -/
theorem Machine.State.guarded_streamOpen {s : State} (h : s.pkActive = true ∨ s.decActive = true)
    (rest : List (Bool × ErrCode)) (effect : Host.Outcome State Fault Refusal) :
    s.guarded (s.streamOpen :: rest) effect = .next (raised s .estate) :=
  State.guarded_error (by simp [State.streamOpen, h]) effect

/-- With no stream open the later checks decide. -/
theorem Machine.State.firstError_streamOpen {s : State} (hpk : s.pkActive = false) (hdec : s.decActive = false)
    (rest : List (Bool × ErrCode)) : firstError (s.streamOpen :: rest) = firstError rest := by
  simp [State.streamOpen, hpk, hdec]

/-- A word index below NCW leaves the later checks to decide (R88). -/
theorem Machine.State.firstError_badWord {s : State} {w : Nat} (h : w < s.cfg.ncw)
    (rest : List (Bool × ErrCode)) : firstError (s.badWord w :: rest) = firstError rest := by
  simp [State.badWord, h]

/-- A word index at or above NCW fails (R88). -/
theorem Machine.State.firstError_badWord_earg {s : State} {w : Nat} (h : s.cfg.ncw ≤ w)
    (rest : List (Bool × ErrCode)) : firstError (s.badWord w :: rest) = some .earg := by
  simp [State.badWord, h]

/-- A symbol at or above NSYM fails (R88). -/
theorem Machine.State.firstError_badSym_esym {s : State} {sym : Nat} (h : s.cfg.nsym ≤ sym)
    (rest : List (Bool × ErrCode)) : firstError (s.badSym sym :: rest) = some .esym := by
  simp [State.badSym, h]

/-! ### CODE_RD and CBUF_WR (R153, R155) -/

/-- A register takes the low 32 bits of a number (R12). -/
theorem ofNat_word (n : Nat) : BitVec.ofNat 32 (n % 2 ^ 32) = BitVec.ofNat 32 n :=
  BitVec.eq_of_toNat_eq (by simp)

theorem exec_codeRd_earg {s : State} {w sym : Nat} (hsym : sym < s.cfg.nsym) (hw : s.cfg.ncw ≤ w) :
    exec (.codeRd w sym) s = .next (raised s .earg) :=
  State.guarded_error ((State.firstError_badSym hsym _).trans (State.firstError_badWord_earg hw _)) _

theorem exec_codeRd {s : State} {w sym : Nat} (hsym : sym < s.cfg.nsym) (hw : w < s.cfg.ncw) :
    exec (.codeRd w sym) s = .next { s with
      result0 := BitVec.ofNat 32 (s.codeOf sym).len,
      result1 := BitVec.ofNat 32 ((s.codeOf sym).val / 2 ^ (32 * w)) } :=
  State.guarded_ok ((State.firstError_badSym hsym _).trans (State.firstError_badWord hw _)) _

/-- Settles O46: RESULT1 holds the low 32 bits of what is left of the value, which is its word w. -/
theorem codeRdReports : Obligations.CodeRdReports := by
  refine ⟨encodedSW_of_formatOf rfl, fun s w sym =>
    ⟨fun hbad => State.guarded_badSym hbad _ _, exec_codeRd_earg, fun hsym hw => ?_⟩⟩
  rw [ofNat_word]
  exact exec_codeRd hsym hw

theorem exec_cbufWr_earg {s : State} {w : Nat} (h : s.cfg.ncw ≤ w) :
    exec (.cbufWr w) s = .next (raised s .earg) :=
  State.guarded_error (State.firstError_badWord_earg h _) _

theorem exec_cbufWr {s : State} {w : Nat} (h : w < s.cfg.ncw) :
    exec (.cbufWr w) s = .next (s.setCbuf w s.a0) :=
  State.guarded_ok (State.firstError_badWord h _) _

/-- Settles O48: behind the EARG check the command is one array write. -/
theorem cbufWrStores : Obligations.CbufWrStores :=
  ⟨encodedW_of_formatOf rfl, fun s w =>
    ⟨exec_cbufWr_earg, fun hw => ⟨s.setCbuf w s.a0, exec_cbufWr hw, s.cbufOf_setCbuf w s.a0, rfl⟩⟩⟩

/-! ### CODE_CLR and CODE_WR (R154, R156) -/

theorem exec_codeClr {s : State} (hpk : s.pkActive = false) (hdec : s.decActive = false) :
    exec .codeClr s = .next { s with codes := [] } :=
  State.guarded_ok (State.firstError_streamOpen hpk hdec _) _

/-- Settles O47: the empty array has no code for any symbol. -/
theorem codeClrClears : Obligations.CodeClrClears :=
  ⟨encodedN_of_formatOf rfl, fun s => ⟨fun hopen => State.guarded_streamOpen hopen _ _,
    fun hpk hdec => ⟨{ s with codes := [] }, exec_codeClr hpk hdec, fun _ => rfl, rfl⟩⟩⟩

section
variable {s : State} {sym : Nat} (hpk : s.pkActive = false) (hdec : s.decActive = false)
include hpk hdec

theorem exec_codeWr_esym (hsym : s.cfg.nsym ≤ sym) : exec (.codeWr sym) s = .next (raised s .esym) :=
  State.guarded_error
    ((State.firstError_streamOpen hpk hdec _).trans (State.firstError_badSym_esym hsym _)) _

/-- With no stream open and a symbol below NSYM, the length check decides. -/
theorem firstError_codeWr (hsym : sym < s.cfg.nsym) (length : Bool × ErrCode) :
    firstError [s.streamOpen, s.badSym sym, length] = firstError [length] :=
  (State.firstError_streamOpen hpk hdec _).trans (State.firstError_badSym hsym _)

theorem exec_codeWr_earg (hsym : sym < s.cfg.nsym) (hlen : s.cfg.codeMax < s.lengthArg) :
    exec (.codeWr sym) s = .next (raised s .earg) :=
  State.guarded_error ((firstError_codeWr hpk hdec hsym _).trans (by simp [hlen])) _

theorem exec_codeWr (hsym : sym < s.cfg.nsym) (hlen : s.lengthArg ≤ s.cfg.codeMax) :
    exec (.codeWr sym) s =
      .next (s.setCode sym { len := s.lengthArg, val := s.cbufValue % 2 ^ s.lengthArg }) :=
  State.guarded_ok ((firstError_codeWr hpk hdec hsym _).trans (by simpa using hlen)) _

end

/-- Settles O49: behind its three checks the command is one array write. -/
theorem codeWrStores : Obligations.CodeWrStores :=
  ⟨encodedS_of_formatOf rfl, fun s sym => ⟨fun hopen => State.guarded_streamOpen hopen _ _,
    exec_codeWr_esym, exec_codeWr_earg,
    fun hpk hdec hsym hlen => ⟨_, exec_codeWr hpk hdec hsym hlen, s.codeOf_setCode sym _, rfl⟩⟩⟩

end Sys2Proof
end

section
/-! SUPPORT. The code table is locked while a stream is open (43_extractor.md R150, 70_reset_and_hazards.md R260): whoever writes
it, the engine or the host, leaves no stream open. -/

namespace Sys2Proof.Machine

/-- A command that writes the code table ends with no stream open (R150). -/
theorem exec_codes {i : Instr} {s t : State} (h : exec i s = .next t) :
    t.codes = s.codes ∨ (t.pkActive = false ∧ t.decActive = false) := by
  cases exec_effect h with
  | softReset => exact .inr ⟨rfl, rfl⟩
  | extract _ _ _ hpk hdec => exact .inr ⟨hpk, hdec⟩
  | codeClr hpk hdec => exact .inr ⟨hpk, hdec⟩
  | codeWr _ hpk hdec => exact .inr ⟨hpk, hdec⟩
  | _ => exact .inl (by simp)

theorem State.engineStep_codes {s t : State} {c : Word} (h : s.engineStep c = .next t) :
    t.codes = s.codes ∨ (t.pkActive = false ∧ t.decActive = false) := by
  rcases State.engineStep_cases h with ⟨why, -, rfl⟩ | ⟨i, u, -, hexec, rfl⟩
  · exact .inl (by simp)
  · simpa using exec_codes hexec

/-- The host touches the code table by a reset only, which closes every stream (R251). -/
theorem State.hostOp_codes {s t : State} {op : HostOp} (h : s.hostOp op = .next t) :
    t.codes = s.codes ∨ (t.pkActive = false ∧ t.decActive = false) := by
  rcases State.hostOp_cases h with ⟨-, off, rfl⟩ | ⟨-, off, v, rfl⟩ | rfl | rfl
  · exact .inl rfl
  · rcases s.regWrite_cases off v with e | e | e | e <;> rw [e]
    · rcases s.acceptCmd_cases v with ⟨-, e⟩ | ⟨-, -, e⟩ | ⟨-, -, -, e⟩ | ⟨-, -, -, e⟩ <;> rw [e]
      · exact .inr ⟨rfl, rfl⟩
      · exact .inl (by simp)
      · exact .inl rfl
      · exact .inl rfl
    · exact .inl rfl
    · exact .inl rfl
    · exact .inl rfl
  · exact .inr ⟨rfl, rfl⟩
  · exact .inl rfl

/-- Settles O28: what writes the table, of either agent, leaves no stream open. -/
theorem tableLockedWhileStreamOpen : Obligations.TableLockedWhileStreamOpen := by
  intro s t hstep hopen
  have hclosed : ¬ (t.pkActive = false ∧ t.decActive = false) := by simpa [Decidable.imp_iff_not_or] using hopen
  rcases step_cases hstep with ⟨l, -, -, hengine⟩ | ⟨op, rest, -, hhost⟩
  · simpa using (State.engineStep_codes hengine).resolve_right hclosed
  · simpa using (State.hostOp_codes hhost).resolve_right hclosed

end Sys2Proof.Machine
end

section
/-! SUPPORT. The codes of a shape are the paths of the statements: a leaf is reached from a node by a path of edges exactly when
the shape below the node lists the leaf's symbol with that path (43_extractor.md R151). -/

namespace Sys2Proof.Machine

open Claims

/-- The entry at the end of a path of edges that starts at an entry: one bit longer for each edge (R151). -/
def CodeEntry.extend (e : CodeEntry) (bits : List Bool) : CodeEntry :=
  { len := e.len + bits.length, val := bits.foldl (fun v b => 2 * v + b.toNat) e.val }

@[simp] theorem CodeEntry.extend_nil (e : CodeEntry) : e.extend [] = e := rfl

theorem CodeEntry.extend_cons (v d : Nat) (b : Bool) (bits : List Bool) :
    CodeEntry.extend { len := d, val := v } (b :: bits) =
      CodeEntry.extend { len := d + 1, val := 2 * v + b.toNat } bits := by
  simp [CodeEntry.extend, Nat.add_comm, Nat.add_left_comm]

/-- From the root the entry is the path itself, as the statements spell it out (R10, R151). -/
theorem CodeEntry.extend_root (bits : List Bool) :
    CodeEntry.extend { len := 0, val := 0 } bits = { len := bits.length, val := bitsValue bits } := by
  simp [CodeEntry.extend, bitsValue]

/-- A path with an edge starts at an internal node and goes on from the child the edge leads to. -/
theorem follow_cons_iff {nodes : List Node} {b : Bool} {bits : List Bool} {n m : Nat} :
    follow nodes (b :: bits) n = some m ↔
      ∃ w l r, nodes[n]? = some (.internal w l r) ∧ follow nodes bits (if b then r else l) = some m := by
  rw [follow]
  rcases nodes[n]? with _ | ⟨_, _⟩ | ⟨_, _, _⟩ <;> simp

/-- No edge leaves a leaf. -/
theorem eq_nil_of_follow_leaf {nodes : List Node} {bits : List Bool} {n m sym : Nat} {w : Word}
    (hleaf : nodes[n]? = some (.leaf w sym)) (hpath : follow nodes bits n = some m) : bits = [] := by
  cases bits with
  | nil => rfl
  | cons b bits =>
    obtain ⟨_, _, _, hnode, -⟩ := follow_cons_iff.1 hpath
    simp [hleaf] at hnode

/-- The leaf at the end of a path is listed with the path. -/
theorem mem_codes_of_follow {nodes : List Node} (hb : ChildrenBelow nodes) {bits : List Bool} {n m sym : Nat} {w : Word}
    (hpath : follow nodes bits n = some m) (hleaf : nodes[m]? = some (.leaf w sym)) (v d : Nat) :
    (sym, CodeEntry.extend { len := d, val := v } bits) ∈ (shapeAt nodes n).codes v d := by
  induction bits generalizing n v d with
  | nil =>
    obtain rfl : n = m := Option.some.inj hpath
    simp [shapeAt_leaf hleaf, Shape.codes]
  | cons b bits ih =>
    obtain ⟨w, l, r, hnode, hrest⟩ := follow_cons_iff.1 hpath
    rw [shapeAt_internal hb hnode, Shape.codes, List.mem_append, CodeEntry.extend_cons]
    cases b with
    | false => exact .inl (ih hrest (2 * v) (d + 1))
    | true => exact .inr (ih hrest (2 * v + 1) (d + 1))

/-- Every listed code is the path to a leaf of its symbol. -/
theorem follow_of_mem_codes {nodes : List Node} (hb : ChildrenBelow nodes) {n : Nat} (hn : n < nodes.length) {v d : Nat}
    {e : Nat × CodeEntry} (he : e ∈ (shapeAt nodes n).codes v d) :
    ∃ bits m w, follow nodes bits n = some m ∧ nodes[m]? = some (.leaf w e.1) ∧
      e.2 = CodeEntry.extend { len := d, val := v } bits := by
  induction n using Nat.strong_induction_on generalizing v d with
  | _ n ih =>
    have hnode := List.getElem?_eq_getElem hn
    cases hkind : nodes[n] with
    | leaf w sym =>
      rw [hkind] at hnode
      obtain rfl : e = (sym, { len := d, val := v }) := by simpa [shapeAt_leaf hnode, Shape.codes] using he
      exact ⟨[], n, w, rfl, hnode, rfl⟩
    | internal w l r =>
      rw [hkind] at hnode
      obtain ⟨hl, hr⟩ := hb n w l r hnode
      rw [shapeAt_internal hb hnode, Shape.codes, List.mem_append] at he
      rcases he with he | he
      · obtain ⟨bits, m, w', hpath, hleaf, hcode⟩ := ih l hl (by omega) he
        exact ⟨false :: bits, m, w', follow_cons_iff.2 ⟨w, l, r, hnode, hpath⟩, hleaf,
          hcode.trans (CodeEntry.extend_cons v d false bits).symm⟩
      · obtain ⟨bits, m, w', hpath, hleaf, hcode⟩ := ih r hr (by omega) he
        exact ⟨true :: bits, m, w', follow_cons_iff.2 ⟨w, l, r, hnode, hpath⟩, hleaf,
          hcode.trans (CodeEntry.extend_cons v d true bits).symm⟩

end Sys2Proof.Machine
end

section
/-! SUPPORT. The table of a shape, "0" for a single leaf and the paths of a larger tree: how long its codes are, its Kraft sum
and its cost (43_extractor.md R152, 42_builder.md R133). -/

namespace Sys2Proof.Machine

theorem Shape.two_le_leaves (l r : Shape) : 2 ≤ (Shape.node l r).leaves.length := by
  have := l.leaves_pos
  have := r.leaves_pos
  rw [Shape.leaves, List.length_append]
  omega

/-- No code is as long as there are leaves, but for the one bit of a single leaf (R133(e)). -/
theorem Shape.table_depth (t : Shape) : ∀ e ∈ t.table, e.2.len ≤ max 1 (t.leaves.length - 1) := by
  cases t with
  | leaf w sym => simp [Shape.table]
  | node l r =>
    intro e he
    have := Shape.codes_depth (.node l r) 0 0 e he
    omega

/-- The Kraft sum, scaled by 2^D: the whole for two or more leaves, half of it for a single one (R152(c)). -/
theorem Shape.table_kraft (t : Shape) {D : Nat} (hD : ∀ e ∈ t.table, e.2.len ≤ D) :
    (2 ≤ t.leaves.length → (t.table.map fun e => 2 ^ (D - e.2.len)).sum = 2 ^ D) ∧
    (t.leaves.length = 1 → 2 * (t.table.map fun e => 2 ^ (D - e.2.len)).sum = 2 ^ D) := by
  cases t with
  | leaf w sym =>
    have hpos : 1 ≤ D := hD (sym, { len := 1, val := 0 }) (by simp [Shape.table])
    exact ⟨fun htwo => by simp [Shape.leaves] at htwo,
      fun _ => by simpa [Shape.table] using mul_pow_sub_one (by omega) 2⟩
  | node l r =>
    have := Shape.two_le_leaves l r
    exact ⟨fun _ => (Shape.codes_kraft (.node l r) 0 hD).1, fun hone => by omega⟩

/-- Weights times code lengths: the internal nodes' weights for two or more leaves, the weight of a single one (R152(d)). -/
theorem Shape.table_cost (t : Shape) :
    (2 ≤ t.leaves.length → (List.zipWith (fun leaf e => leaf.2 * e.2.len) t.leaves t.table).sum = t.innerTotal) ∧
    (t.leaves.length = 1 → (List.zipWith (fun leaf e => leaf.2 * e.2.len) t.leaves t.table).sum = t.weight) := by
  cases t with
  | leaf w sym => simp [Shape.leaves, Shape.table, Shape.weight]
  | node l r =>
    have := Shape.two_le_leaves l r
    exact ⟨fun _ => by simpa [Shape.table] using Shape.codes_cost (.node l r) 0 0, fun hone => by omega⟩

end Sys2Proof.Machine
end

section
/-! SUPPORT. The state EXTRACT leaves of a BUILT tree (43_extractor.md R151, R152). `State.treeTable` is the list of codes of
the tree's shape, tied to the model by `Invariant.treeCodes_eq_treeTable`, and `State.extracted` the state with the table made
of it, which `exec_extract` gives to EXTRACT. -/

namespace Sys2Proof.Machine

open Claims

/-- The codes the tree gives: none without a root, else those of the shape below it (R151). -/
def State.treeTable (s : State) : List (Nat × CodeEntry) :=
  match s.root with
  | none => []
  | some r => (shapeAt s.nodes r).table

theorem State.treeTable_none {s : State} (h : s.root = none) : s.treeTable = [] := by simp [State.treeTable, h]

theorem State.treeTable_some {s : State} {r : Nat} (h : s.root = some r) :
    s.treeTable = (shapeAt s.nodes r).table := by simp [State.treeTable, h]

/-- A root that is a leaf gives its symbol the code "0" (R151). -/
theorem State.treeTable_leaf {s : State} {r sym : Nat} {w : Word} (hroot : s.root = some r)
    (hleaf : s.nodes[r]? = some (.leaf w sym)) : s.treeTable = [(sym, { len := 1, val := 0 })] := by
  rw [State.treeTable_some hroot, shapeAt_leaf hleaf, Shape.table]

/-- An internal root gives the codes of its shape (R151). -/
theorem State.treeTable_internal {s : State} (hb : ChildrenBelow s.nodes) {r a b : Nat} {w : Word}
    (hroot : s.root = some r) (hnode : s.nodes[r]? = some (.internal w a b)) :
    s.treeTable = (shapeAt s.nodes r).codes 0 0 := by
  rw [State.treeTable_some hroot, shapeAt_internal hb hnode, Shape.table]

/-- The block with the tree's table and its two counters (R151). -/
def State.extracted (s : State) : State := s.installCodes (tableOf s.treeTable)

/-- The internal nodes' weights of the statements and of the laws have one sum. -/
theorem innerWeights_sum (nodes : List Node) : (innerWeights nodes).sum = innerTotal nodes := by
  induction nodes with
  | nil => rfl
  | cons node rest ih => cases node <;> simp [innerWeights, innerTotal, Node.innerWeight, ih]

/-- The validity of the statements is the model's (R191). -/
theorem prefixFree_iff_tableValid (s : State) : PrefixFree s ↔ s.tableValid = true := by
  simp only [PrefixFree, State.tableValid_iff, ← Bool.not_eq_true, CodeEntry.begins_iff]

section
variable {s : State} (h : Invariant s) (hphase : s.bstate = .built)
include h hphase

/-! ### The list of codes -/

/-- The codes of a BUILT tree are those of EXTRACT's walk (R151). -/
theorem Invariant.treeCodes_eq_treeTable : s.treeCodes = some s.treeTable := by
  rcases h.built_cases hphase with ⟨hroot, -, -⟩ | ⟨r, hroot, -, hr, -⟩
  · simp [State.treeCodes, State.treeTable_none hroot, hroot]
  · rw [State.treeCodes_eq h.forestOk hroot hr, State.treeTable_some hroot]

/-- A BUILT tree has no leaf, or is one shape with the leaves and the internal weights of the node store (R133, R152(d)). -/
theorem Invariant.treeTable_cases :
    (leafCount s.nodes = 0 ∧ s.treeTable = []) ∨
    ∃ t : Shape, s.treeTable = t.table ∧ t.leaves.Perm (leafWeights s.nodes) ∧
      t.innerTotal = (innerWeights s.nodes).sum := by
  rcases h.built_cases hphase with ⟨hroot, hnodes, -⟩ | ⟨r, hroot, hheap, -, hperm⟩
  · exact .inl ⟨by rw [hnodes]; rfl, State.treeTable_none hroot⟩
  · have hinners := queued_inners h.forestOk
    rw [hheap, List.flatMap_singleton, Shape.inners_sum] at hinners
    exact .inr ⟨_, State.treeTable_some hroot, leafWeights_eq_leafPairs s.nodes ▸ hperm,
      hinners.trans (innerWeights_sum s.nodes).symm⟩

/-- Exactly the leaves' symbols have a code, each one (R152(a)). -/
theorem Invariant.treeTable_syms : (s.treeTable.map Prod.fst).Perm (leafSyms s.nodes) := by
  rcases h.treeTable_cases hphase with ⟨hnone, htable⟩ | ⟨t, htable, hleaves, -⟩
  · rw [htable, List.eq_nil_of_length_eq_zero hnone]
    exact .nil
  · rw [htable, Shape.table_syms, ← leafPairs_syms, ← leafWeights_eq_leafPairs]
    exact hleaves.map _

theorem Invariant.treeTable_nodup : (s.treeTable.map Prod.fst).Nodup :=
  (h.treeTable_syms hphase).nodup_iff.2 h.leavesOk.1

theorem Invariant.exists_code {sym : Nat} (hsym : sym ∈ leafSyms s.nodes) : ∃ code, (sym, code) ∈ s.treeTable := by
  obtain ⟨e, he, rfl⟩ := List.mem_map.1 ((h.treeTable_syms hphase).mem_iff.2 hsym)
  exact ⟨e.2, he⟩

theorem Invariant.treeTable_len_pos {e : Nat × CodeEntry} (he : e ∈ s.treeTable) : 1 ≤ e.2.len := by
  rcases h.treeTable_cases hphase with ⟨-, htable⟩ | ⟨t, htable, -, -⟩ <;> rw [htable] at he
  · cases he
  · exact (t.table_fits e he).1

theorem Invariant.treeTable_depth {e : Nat × CodeEntry} (he : e ∈ s.treeTable) :
    e.2.len ≤ max 1 (leafCount s.nodes - 1) := by
  rcases h.treeTable_cases hphase with ⟨-, htable⟩ | ⟨t, htable, hleaves, -⟩ <;> rw [htable] at he
  · cases he
  · rw [leafCount_eq_length, ← hleaves.length_eq]
    exact t.table_depth e he

/-- No code of the tree begins another one (R152(b)). -/
theorem Invariant.treeTable_apart {e f : Nat × CodeEntry} (he : e ∈ s.treeTable) (hf : f ∈ s.treeTable) (hne : e ≠ f) :
    e.2.begins f.2 = false := by
  rcases h.treeTable_cases hphase with ⟨-, htable⟩ | ⟨t, htable, -, -⟩ <;> rw [htable] at he hf
  · cases he
  · have hsymm : Std.Symm fun x y : Nat × CodeEntry => x.2.begins y.2 = false ∧ y.2.begins x.2 = false :=
      ⟨fun _ _ hxy => hxy.symm⟩
    exact (t.table_apart.forall he hf hne).1

/-- Every leaf is within CODE_MAX exactly when every code is: the path to a leaf is its code, and the code of a single leaf is
one bit long, which CODE_MAX admits (R5, R151). -/
theorem Invariant.depthFits_iff :
    (∀ r, s.root = some r → DepthFits s r) ↔ ∀ e ∈ s.treeTable, e.2.len ≤ s.cfg.codeMax := by
  rcases h.built_cases hphase with ⟨hroot, -, -⟩ | ⟨r, hroot, -, hr, -⟩
  · simp [hroot, State.treeTable_none hroot]
  simp only [hroot, Option.some.injEq, forall_eq']
  have hb := h.forestOk.childrenBelow
  have hnode := List.getElem?_eq_getElem hr
  cases hkind : s.nodes[r] with
  | leaf w sym =>
    rw [hkind] at hnode
    obtain ⟨-, -, hmax, -⟩ := h.cfgValid
    have hfits : DepthFits s r := fun bits n w' sym' hpath _ => by simp [eq_nil_of_follow_leaf hnode hpath]
    simpa [State.treeTable_leaf hroot hnode, hfits] using hmax
  | internal w a b =>
    rw [hkind] at hnode
    rw [State.treeTable_internal hb hroot hnode]
    constructor
    · intro hdepth e he
      obtain ⟨bits, n, w', hpath, hleaf, hcode⟩ := follow_of_mem_codes hb hr he
      rw [hcode, CodeEntry.extend_root]
      exact hdepth bits n w' e.1 hpath hleaf
    · intro hlen bits n w' sym hpath hleaf
      have := hlen _ (mem_codes_of_follow hb hpath hleaf 0 0)
      rwa [CodeEntry.extend_root] at this

/-! ### The table made of it -/

theorem Invariant.extracted_codeOf {sym : Nat} {code : CodeEntry} (he : (sym, code) ∈ s.treeTable) :
    s.extracted.codeOf sym = code :=
  tableOf_get_mem (h.treeTable_nodup hphase) he

theorem Invariant.extracted_codeOf_absent {sym : Nat} (hsym : sym ∉ leafSyms s.nodes) :
    s.extracted.codeOf sym = CodeEntry.absent :=
  tableOf_get_absent (mt (h.treeTable_syms hphase).mem_iff.1 hsym)

/-- Exactly the symbols of the leaves have a code (R152(a)). -/
theorem Invariant.extracted_coded_iff (sym : Nat) : (s.extracted.codeOf sym).len ≠ 0 ↔ sym ∈ leafSyms s.nodes := by
  by_cases hsym : sym ∈ leafSyms s.nodes
  · obtain ⟨code, hcode⟩ := h.exists_code hphase hsym
    have hpos : 1 ≤ code.len := h.treeTable_len_pos hphase hcode
    rw [h.extracted_codeOf hphase hcode]
    exact iff_of_true (by omega) hsym
  · rw [h.extracted_codeOf_absent hphase hsym]
    exact iff_of_false (fun hne => hne rfl) hsym

/-- NCODES is the number of leaves (R152(a)). -/
theorem Invariant.extracted_ncodes : s.extracted.ncodes = leafCount s.nodes := by
  obtain ⟨hnodup, hsyms⟩ := h.leavesOk
  have hperm : s.extracted.codedSyms.Perm (leafSyms s.nodes) := by
    have hcoded : s.extracted.codedSyms.Nodup := List.nodup_range.filter _
    refine (List.perm_ext_iff_of_nodup hcoded hnodup).2 fun sym => ?_
    rw [State.mem_codedSyms, h.extracted_coded_iff hphase]
    exact ⟨And.right, fun hsym => ⟨hsyms sym hsym, hsym⟩⟩
  exact hperm.length_eq

theorem Invariant.extracted_len_le (sym : Nat) :
    (s.extracted.codeOf sym).len ≤ max 1 (leafCount s.nodes - 1) := by
  by_cases hsym : sym ∈ leafSyms s.nodes
  · obtain ⟨code, hcode⟩ := h.exists_code hphase hsym
    rw [h.extracted_codeOf hphase hcode]
    exact h.treeTable_depth hphase hcode
  · rw [h.extracted_codeOf_absent hphase hsym]
    exact Nat.zero_le _

/-- The extracted table is valid: its codes are those of distinct leaves (R152(b)). -/
theorem Invariant.extracted_prefixFree : PrefixFree s.extracted := by
  rw [prefixFree_iff_tableValid, State.tableValid_iff]
  intro x _ y _ hne hx hy
  obtain ⟨a, ha⟩ := h.exists_code hphase ((h.extracted_coded_iff hphase x).1 hx)
  obtain ⟨b, hb⟩ := h.exists_code hphase ((h.extracted_coded_iff hphase y).1 hy)
  rw [h.extracted_codeOf hphase ha, h.extracted_codeOf hphase hb]
  exact h.treeTable_apart hphase ha hb fun he => hne (congrArg Prod.fst he)

/-- A sum over the leaves' symbols by their codes is a sum over the list of codes. -/
theorem Invariant.extracted_sum (g : CodeEntry → Nat) :
    ((leafSyms s.nodes).map fun sym => g (s.extracted.codeOf sym)).sum = (s.treeTable.map fun e => g e.2).sum := by
  rw [← ((h.treeTable_syms hphase).map _).sum_eq, List.map_map]
  exact congrArg List.sum (List.map_congr_left fun e he => congrArg g (h.extracted_codeOf hphase he))

/-- The Kraft sum of the extracted table, scaled by 2^MAXLEN (R152(c)). -/
theorem Invariant.extracted_kraft :
    let kraft := ((leafSyms s.nodes).map fun sym => 2 ^ (s.extracted.maxLen - (s.extracted.codeOf sym).len)).sum
    (2 ≤ leafCount s.nodes → kraft = 2 ^ s.extracted.maxLen) ∧
    (leafCount s.nodes = 1 → 2 * kraft = 2 ^ s.extracted.maxLen) := by
  have hmax : ∀ e ∈ s.treeTable, e.2.len ≤ s.extracted.maxLen := fun e he => by
    have hsym := h.leavesOk.2 e.1 ((h.treeTable_syms hphase).mem_iff.1 (List.mem_map_of_mem he))
    simpa [h.extracted_codeOf hphase he] using s.extracted.len_le_maxLen hsym
  intro kraft
  have hkraft : kraft = (s.treeTable.map fun e => 2 ^ (s.extracted.maxLen - e.2.len)).sum :=
    h.extracted_sum hphase fun code => 2 ^ (s.extracted.maxLen - code.len)
  rcases h.treeTable_cases hphase with ⟨hnone, -⟩ | ⟨t, htable, hleaves, -⟩
  · exact ⟨fun htwo => by omega, fun hone => by omega⟩
  · rw [hkraft, leafCount_eq_length, ← hleaves.length_eq, htable]
    exact t.table_kraft (htable ▸ hmax)

/-- The list of codes is that of its symbols, each paired with what the extracted table reads. -/
theorem Invariant.treeTable_eq_map :
    s.treeTable = (s.treeTable.map Prod.fst).map fun sym => (sym, s.extracted.codeOf sym) := by
  have hread : ∀ e ∈ s.treeTable, (e.1, s.extracted.codeOf e.1) = e := fun e he =>
    Prod.ext rfl (h.extracted_codeOf hphase he)
  rw [List.map_map]
  exact ((List.map_congr_left hread).trans (List.map_id' _)).symm

/-- The cost of the extracted table is the cost of its shape's (R152(d)). -/
theorem Invariant.extracted_cost :
    let cost := ((leafWeights s.nodes).map fun leaf => leaf.2 * (s.extracted.codeOf leaf.1).len).sum
    (2 ≤ leafCount s.nodes → cost = (innerWeights s.nodes).sum) ∧
    (leafCount s.nodes = 1 → cost = ((leafWeights s.nodes).map Prod.snd).sum) := by
  intro cost
  rcases h.treeTable_cases hphase with ⟨hnone, -⟩ | ⟨t, htable, hleaves, hinner⟩
  · exact ⟨fun htwo => by omega, fun hone => by omega⟩
  have hcost : cost = (List.zipWith (fun leaf e => leaf.2 * e.2.len) t.leaves t.table).sum := by
    have hmap := h.treeTable_eq_map hphase
    rw [htable, Shape.table_syms, List.map_map] at hmap
    rw [hmap, List.zipWith_map_right, List.zipWith_self]
    exact (hleaves.map _).sum_eq.symm
  rw [hcost, leafCount_eq_length, ← hleaves.length_eq, ← hinner, ← (hleaves.map Prod.snd).sum_eq, t.leaves_weight]
  exact t.table_cost

end

end Sys2Proof.Machine
end

section
/-! SUPPORT. The command EXTRACT (43_extractor.md R151, R152). -/

namespace Sys2Proof

open Machine Claims

theorem exec_extract_estate {s : State} (h : s.bstate ≠ .built ∨ s.pkActive = true ∨ s.decActive = true) :
    exec .extract s = .next (raised s .estate) := by
  refine State.guarded_error ?_ _
  by_cases hphase : s.bstate = .built
  · have hopen := h.resolve_left (not_not_intro hphase)
    simp [State.streamOpen, hphase, hopen]
  · simp [hphase]

section
variable {s : State} (h : Invariant s) (hphase : s.bstate = .built) (hpk : s.pkActive = false)
  (hdec : s.decActive = false)
include h hphase hpk hdec

/-- Behind its ESTATE checks EXTRACT makes the table of the tree, if every code fits (R151). -/
theorem exec_extract_eq : exec .extract s =
    s.guarded [(s.treeTable.any fun e => decide (s.cfg.codeMax < e.2.len), .ecodelen)] (.next s.extracted) := by
  refine (State.guarded_ok (by simp [hphase, State.streamOpen, hpk, hdec]) _).trans ?_
  rw [h.treeCodes_eq_treeTable hphase]
  rfl

theorem exec_extract_ecodelen {r : Nat} (hroot : s.root = some r) (hdeep : ¬ DepthFits s r) :
    exec .extract s = .next (raised s .ecodelen) := by
  have hlong : ¬ ∀ e ∈ s.treeTable, e.2.len ≤ s.cfg.codeMax := fun hfits =>
    hdeep ((h.depthFits_iff hphase).2 hfits r hroot)
  rw [exec_extract_eq h hphase hpk hdec]
  exact State.guarded_error (by simpa using hlong) _

theorem exec_extract (hfits : ∀ r, s.root = some r → DepthFits s r) : exec .extract s = .next s.extracted := by
  rw [exec_extract_eq h hphase hpk hdec]
  exact State.guarded_ok (by simpa using (h.depthFits_iff hphase).1 hfits) _

end

/-- Settles O43: the list of codes holds the path to each leaf, and the table is made of it. -/
theorem extractRecordsPaths : Obligations.ExtractRecordsPaths := by
  refine ⟨encodedN_of_formatOf rfl, fun s => ⟨exec_extract_estate, fun h hphase hpk hdec =>
    ⟨fun r => exec_extract_ecodelen h hphase hpk hdec, fun hfits =>
      ⟨s.extracted, exec_extract h hphase hpk hdec hfits, fun _ => h.extracted_codeOf_absent hphase, ?single, ?path,
        rfl⟩⟩⟩⟩
  case single =>
    intro r w sym hroot hleaf
    exact h.extracted_codeOf hphase (by simp [State.treeTable_leaf hroot hleaf])
  case path =>
    intro r w a b bits n v sym hroot hnode hpath hleaf
    have hb := h.forestOk.childrenBelow
    apply h.extracted_codeOf hphase
    rw [State.treeTable_internal hb hroot hnode, ← CodeEntry.extend_root]
    exact mem_codes_of_follow hb hpath hleaf 0 0

/-- Settles O44: each part is one of the extracted state. -/
theorem extractedCodeIsCompleteAndPrefixFree : Obligations.ExtractedCodeIsCompleteAndPrefixFree := by
  intro s t h hphase hpk hdec hexec hfits
  obtain rfl : s.extracted = t := by
    injection (exec_extract h hphase hpk hdec hfits).symm.trans hexec
  obtain ⟨hfull, hhalf⟩ := h.extracted_kraft hphase
  exact ⟨h.extracted_ncodes hphase, fun sym _ => h.extracted_coded_iff hphase sym, h.extracted_len_le hphase,
    h.extracted_prefixFree hphase, hfull, hhalf⟩

/-- Settles O45: it is the cost of the extracted state. -/
theorem extractedCodeCost : Obligations.ExtractedCodeCost := by
  intro s t h hphase hpk hdec hexec hfits
  obtain rfl : s.extracted = t := by
    injection (exec_extract h hphase hpk hdec hfits).symm.trans hexec
  exact h.extracted_cost hphase

end Sys2Proof
end

section
/-! SUPPORT. Cutting bit strings into bytes: whole bytes come off the front, and a partial byte is filled with zero bits
(44_packer.md R173, R174). -/

namespace Sys2Proof

open Machine Claims

/-- The statements' value of a bit string is the one the laws speak of (R10). -/
theorem bitsValue_eq_bitsVal (bs : List Bool) : bitsValue bs = bitsVal bs := rfl

/-- Zero bits appended to a string double its value once each. -/
theorem bitsVal_append_zeros (bs : List Bool) (n : Nat) :
    bitsVal (bs ++ List.replicate n false) = bitsVal bs * 2 ^ n := by
  induction n with
  | zero => simp
  | succ n ih =>
    rw [List.replicate_succ', ← List.append_assoc, bitsVal_append_one, ih, pow_succ]
    simp only [Bool.toNat_false]
    ring

@[simp] theorem byteBits_length (y : Byte) : (byteBits y).length = 8 := bitsOf_length 8 y.toNat

theorem ofNat_bitsValue_byteBits (y : Byte) : BitVec.ofNat 8 (bitsValue (byteBits y)) = y := by
  rw [bitsValue_eq_bitsVal, byteBits, bitsVal_bitsOf, Nat.mod_eq_of_lt y.isLt, BitVec.ofNat_toNat, BitVec.setWidth_eq]

@[simp] theorem packedBytes_nil : packedBytes [] = [] := rfl

theorem packedBytes_byteBits_append (y : Byte) (bs : List Bool) :
    packedBytes (byteBits y ++ bs) = y :: packedBytes bs := by
  have hcount : ((byteBits y ++ bs).length + 7) / 8 = (bs.length + 7) / 8 + 1 := by
    rw [List.length_append, byteBits_length]
    omega
  rw [packedBytes, hcount, cutBytes, List.take_left' (byteBits_length y), List.drop_left' (byteBits_length y)]
  simp [ofNat_bitsValue_byteBits, packedBytes]

theorem packedBytes_bytes_append (bytes : List Byte) (bs : List Bool) :
    packedBytes (bytes.flatMap byteBits ++ bs) = bytes ++ packedBytes bs := by
  induction bytes with
  | nil => rfl
  | cons y bytes ih => rw [List.flatMap_cons, List.append_assoc, packedBytes_byteBits_append, ih, List.cons_append]

/-- Fewer than 8 bits are one byte, filled with zero bits (R174). -/
theorem packedBytes_partial {bs : List Bool} (hne : bs ≠ []) (hlen : bs.length < 8) :
    packedBytes bs = [BitVec.ofNat 8 (bitsVal bs * 2 ^ (8 - bs.length))] := by
  have hpos : 0 < bs.length := List.length_pos_iff.2 hne
  have hcount : (bs.length + 7) / 8 = 1 := by omega
  rw [packedBytes, hcount, cutBytes, cutBytes, List.take_of_length_le hlen.le, bitsValue_eq_bitsVal,
    bitsVal_append_zeros]

end Sys2Proof
end

section
/-! SUPPORT. The packer's pending bits, and what PK_SYM and PK_FLUSH make of them (44_packer.md R172, R173). -/

namespace Sys2Proof

open Machine Claims

/-- The bits the packer holds, oldest first (R40). -/
def Machine.State.pendingBits (s : State) : List Bool := bitsOf s.pkNb.toNat s.pkAcc.toNat

/-- The state PK_START leaves with no stream open: an empty packer stream (R171). -/
def Machine.State.pkStarted (s : State) : State :=
  { s with ofifo := [], pkAcc := 0, pkNb := 0, pkBitcnt := 0, pkActive := true }

/-- The state PK_SYM leaves when its checks pass (R172). -/
def Machine.State.symPacked (s : State) (sym : Nat) : State :=
  { s.pushAll ((s.packSym sym).1.map byteEntry) with
    pkAcc := (s.packSym sym).2.1.setWidth 7, pkNb := BitVec.ofNat 3 (s.packSym sym).2.2,
    pkBitcnt := s.pkBitcnt + BitVec.ofNat 64 (s.codeOf sym).len }

/-- A byte as a FIFO entry keeps its number (R43). -/
theorem byteEntry_eq_ofNat : byteEntry = fun y => BitVec.ofNat 16 y.toNat :=
  funext fun y => (BitVec.ofNat_toNat 16 y).symm

section
variable {s : State} (hacc : s.pkAcc.toNat < 2 ^ s.pkNb.toNat)
include hacc

/-- R172's loop on the packer's registers: the pending bits and the code are the bytes pushed and the bits left. -/
theorem packSym_spec (sym : Nat) :
    s.pendingBits ++ codeBits s sym =
      (s.packSym sym).1.flatMap byteBits ++ bitsOf (s.packSym sym).2.2 (s.packSym sym).2.1.toNat ∧
    (s.packSym sym).2.1.toNat < 2 ^ (s.packSym sym).2.2 ∧
    (s.packSym sym).2.2 = (s.pkNb.toNat + (s.codeOf sym).len) % 8 ∧
    (s.packSym sym).1.length = (s.pkNb.toNat + (s.codeOf sym).len) / 8 := by
  have hnb : s.pkNb.toNat ≤ 7 := by omega
  have hwide : (s.pkAcc.setWidth 8).toNat = s.pkAcc.toNat := BitVec.toNat_setWidth_of_le (by decide)
  have hspec := packBits_spec (codeBits s sym) (s.pkAcc.setWidth 8) s.pkNb.toNat hnb (by rwa [hwide])
  rw [hwide, codeBits, bitsOf_length] at hspec
  exact hspec

theorem symPacked_pkNb (sym : Nat) : (s.symPacked sym).pkNb.toNat = (s.packSym sym).2.2 := by
  obtain ⟨-, -, hleft, -⟩ := packSym_spec hacc sym
  have hlt : (s.packSym sym).2.2 < 2 ^ 3 := by omega
  exact (BitVec.toNat_ofNat ..).trans (Nat.mod_eq_of_lt hlt)

theorem symPacked_pkAcc (sym : Nat) : (s.symPacked sym).pkAcc.toNat = (s.packSym sym).2.1.toNat := by
  obtain ⟨-, hfits, hleft, -⟩ := packSym_spec hacc sym
  have hlt : (s.packSym sym).2.1.toNat < 2 ^ 7 :=
    hfits.trans_le (Nat.pow_le_pow_right (by decide) (by omega))
  exact (BitVec.toNat_setWidth ..).trans (Nat.mod_eq_of_lt hlt)

/-- The bits PK_SYM leaves pending fit their count (R48(f)). -/
theorem symPacked_fits (sym : Nat) : (s.symPacked sym).pkAcc.toNat < 2 ^ (s.symPacked sym).pkNb.toNat := by
  obtain ⟨-, hfits, -, -⟩ := packSym_spec hacc sym
  rwa [symPacked_pkAcc hacc, symPacked_pkNb hacc]

/-- PK_SYM appends the code: pending bits and code go out as whole bytes, and the rest is pending (R172). -/
theorem pendingBits_append_codeBits (sym : Nat) :
    s.pendingBits ++ codeBits s sym = (s.packSym sym).1.flatMap byteBits ++ (s.symPacked sym).pendingBits := by
  obtain ⟨hbits, -, -, -⟩ := packSym_spec hacc sym
  rw [hbits, State.pendingBits, symPacked_pkAcc hacc, symPacked_pkNb hacc]

/-- The padded partial byte is below 256, so no pending bit is shifted out (R173). -/
theorem paddedByte_lt : s.pkAcc.toNat * 2 ^ (8 - s.pkNb.toNat) < 2 ^ 8 :=
  calc s.pkAcc.toNat * 2 ^ (8 - s.pkNb.toNat)
      < 2 ^ s.pkNb.toNat * 2 ^ (8 - s.pkNb.toNat) := Nat.mul_lt_mul_of_pos_right hacc (Nat.two_pow_pos _)
    _ = 2 ^ 8 := by rw [← pow_add, Nat.add_sub_cancel' (by omega)]

/-- What PK_FLUSH pushes, as a number (R173). -/
theorem flushEntries_eq : s.flushEntries =
    if s.pkNb = 0 then [] else [BitVec.ofNat 16 (s.pkAcc.toNat * 2 ^ (8 - s.pkNb.toNat))] := by
  have hbyte : (s.pkAcc.setWidth 8 <<< (8 - s.pkNb.toNat)).toNat = s.pkAcc.toNat * 2 ^ (8 - s.pkNb.toNat) := by
    rw [BitVec.toNat_shiftLeft, BitVec.toNat_setWidth_of_le (by decide), Nat.shiftLeft_eq,
      Nat.mod_eq_of_lt (paddedByte_lt hacc)]
  simp only [State.flushEntries, byteEntry_eq_ofNat, hbyte]

/-- PK_FLUSH pushes the bytes of the pending bits (R173, R174). -/
theorem flushEntries_eq_packedBytes : s.flushEntries = (packedBytes s.pendingBits).map byteEntry := by
  rw [flushEntries_eq hacc]
  split
  case isTrue hnone => simp [State.pendingBits, hnone, bitsOf]
  case isFalse hsome =>
    have hpos : s.pkNb.toNat ≠ 0 := fun hzero => hsome (BitVec.eq_of_toNat_eq hzero)
    have hlen : s.pendingBits.length = s.pkNb.toNat := bitsOf_length ..
    have hval : bitsVal s.pendingBits = s.pkAcc.toNat := (bitsVal_bitsOf ..).trans (Nat.mod_eq_of_lt hacc)
    rw [packedBytes_partial (List.ne_nil_of_length_pos (by omega)) (by omega), hlen, hval, byteEntry_eq_ofNat,
      List.map_singleton, BitVec.toNat_ofNat, Nat.mod_eq_of_lt (paddedByte_lt hacc)]

end

end Sys2Proof
end

section
/-! SUPPORT. The packer commands (44_packer.md R171 to R174). -/

namespace Sys2Proof

open Machine Claims

/-! ### PK_START (R171) -/

theorem exec_pkStart {s : State} (hpk : s.pkActive = false) (hdec : s.decActive = false) :
    exec .pkStart s = .next s.pkStarted :=
  State.guarded_ok (State.firstError_streamOpen hpk hdec _) _

/-- Settles O50: behind the ESTATE check the command opens an empty stream. -/
theorem pkStartOpens : Obligations.PkStartOpens :=
  ⟨encodedN_of_formatOf rfl, fun _ => ⟨fun hopen => State.guarded_streamOpen hopen _ _, exec_pkStart⟩⟩

/-! ### The check for a packer stream -/

/-- Without a packer stream PK_SYM and PK_FLUSH raise ESTATE, whatever is checked after it (R172, R173). -/
theorem Machine.State.guarded_noPacker {s : State} (hpk : s.pkActive = false) (rest : List (Bool × ErrCode))
    (effect : Host.Outcome State Fault Refusal) :
    s.guarded (s.noPacker :: rest) effect = .next (raised s .estate) :=
  State.guarded_error (by simp [State.noPacker, hpk]) effect

/-- With a packer stream open the later checks decide. -/
theorem Machine.State.firstError_noPacker {s : State} (hpk : s.pkActive = true) (rest : List (Bool × ErrCode)) :
    firstError (s.noPacker :: rest) = firstError rest := by
  simp [State.noPacker, hpk]

/-! ### PK_SYM (R172) -/

section
variable {s : State} {sym : Nat} (hpk : s.pkActive = true)
include hpk

theorem exec_pkSym_esym (hsym : s.cfg.nsym ≤ sym) : exec (.pkSym sym) s = .next (raised s .esym) :=
  State.guarded_error ((State.firstError_noPacker hpk _).trans (State.firstError_badSym_esym hsym _)) _

/-- With a packer stream open and a symbol below NSYM, the code's length decides. -/
theorem firstError_pkSymChecks (hsym : sym < s.cfg.nsym) :
    firstError (s.pkSymChecks sym) = if (s.codeOf sym).len = 0 then some .enocode else none := by
  rw [State.pkSymChecks, State.firstError_noPacker hpk, State.firstError_badSym hsym]
  simp

theorem exec_pkSym_enocode (hsym : sym < s.cfg.nsym) (hlen : (s.codeOf sym).len = 0) :
    exec (.pkSym sym) s = .next (raised s .enocode) :=
  State.guarded_error ((firstError_pkSymChecks hpk hsym).trans (if_pos hlen)) _

theorem exec_pkSym (hsym : sym < s.cfg.nsym) (hlen : (s.codeOf sym).len ≠ 0) :
    exec (.pkSym sym) s = .next (s.symPacked sym) :=
  State.guarded_ok ((firstError_pkSymChecks hpk hsym).trans (if_neg hlen)) _

end

/-- Settles O51: the state PK_SYM leaves and the bytes its loop pushes fulfil the equation on the bits. -/
theorem pkSymAppendsTheCode : Obligations.PkSymAppendsTheCode := by
  refine ⟨encodedS_of_formatOf rfl, fun s sym => ⟨fun hpk => State.guarded_noPacker hpk _ _, exec_pkSym_esym,
    exec_pkSym_enocode, fun hpk hsym hlen hacc => ?_⟩⟩
  obtain ⟨-, -, hleft, hcount⟩ := packSym_spec hacc sym
  refine ⟨s.symPacked sym, (s.packSym sym).1, exec_pkSym hpk hsym hlen, pendingBits_append_codeBits hacc sym, hcount,
    (symPacked_pkNb hacc sym).trans hleft, symPacked_fits hacc sym, ?_⟩
  rw [← byteEntry_eq_ofNat]
  rfl

/-! ### PK_FLUSH (R173) -/

theorem exec_pkFlush {s : State} (hpk : s.pkActive = true) :
    exec .pkFlush s = .next { s.pushAll s.flushEntries with pkAcc := 0, pkNb := 0, pkActive := false } :=
  State.guarded_ok (State.firstError_noPacker hpk _) _

/-- Settles O52: the entries pushed are the padded partial byte, if there is one. -/
theorem pkFlushPadsAndCloses : Obligations.PkFlushPadsAndCloses := by
  refine ⟨encodedN_of_formatOf rfl, fun s => ⟨fun hpk => State.guarded_noPacker hpk _ _, fun hpk hacc => ?_⟩⟩
  rw [← flushEntries_eq hacc]
  exact exec_pkFlush hpk

/-! ### A whole stream (R174) -/

theorem execAll_cons {i : Instr} {s t : State} (h : exec i s = .next t) (rest : List Instr) :
    execAll (i :: rest) s = execAll rest t := by
  simp [execAll, h]

/-- From any open packer stream: the symbols' codes after the pending bits go out as bytes, and the stream closes. -/
theorem execAll_pkSyms_pkFlush {s : State} {syms : List Nat} (hpk : s.pkActive = true)
    (hacc : s.pkAcc.toNat < 2 ^ s.pkNb.toNat) (hsyms : ∀ sym ∈ syms, sym < s.cfg.nsym ∧ (s.codeOf sym).len ≠ 0) :
    execAll (syms.map Instr.pkSym ++ [.pkFlush]) s = .next { s with
      ofifo := s.ofifo ++ (packedBytes (s.pendingBits ++ syms.flatMap (codeBits s))).map byteEntry,
      pkAcc := 0, pkNb := 0, pkBitcnt := s.pkBitcnt + BitVec.ofNat 64 (syms.flatMap (codeBits s)).length,
      pkActive := false } := by
  induction syms generalizing s with
  | nil =>
    rw [List.map_nil, List.nil_append, execAll_cons (exec_pkFlush hpk), flushEntries_eq_packedBytes hacc]
    simp [execAll, State.pushAll]
  | cons sym syms ih =>
    obtain ⟨hsym, hlen⟩ := hsyms sym List.mem_cons_self
    have hrest : ∀ y ∈ syms, y < s.cfg.nsym ∧ (s.codeOf y).len ≠ 0 := fun y hy => hsyms y (List.mem_cons_of_mem _ hy)
    have hcodes : codeBits (s.symPacked sym) = codeBits s := rfl
    have hbytes : packedBytes (s.pendingBits ++ (sym :: syms).flatMap (codeBits s)) =
        (s.packSym sym).1 ++ packedBytes ((s.symPacked sym).pendingBits ++ syms.flatMap (codeBits s)) := by
      rw [List.flatMap_cons, ← List.append_assoc, pendingBits_append_codeBits hacc, List.append_assoc,
        packedBytes_bytes_append]
    have hcount : s.pkBitcnt + BitVec.ofNat 64 ((sym :: syms).flatMap (codeBits s)).length =
        (s.symPacked sym).pkBitcnt + BitVec.ofNat 64 (syms.flatMap (codeBits s)).length := by
      rw [List.flatMap_cons, List.length_append, codeBits, bitsOf_length]
      exact (count_add ..).symm
    rw [List.map_cons, List.cons_append, execAll_cons (exec_pkSym hpk hsym hlen),
      ih (s := s.symPacked sym) hpk (symPacked_fits hacc sym) hrest, hcodes, hbytes, hcount, List.map_append,
      ← List.append_assoc]
    rfl

/-- PK_START, the symbols and PK_FLUSH: the FIFO holds the bytes of the codes' concatenation, PK_BITCNT counts its bits, and
nothing else is changed (R174). -/
theorem execAll_packStream {s : State} {syms : List Nat} (hpk : s.pkActive = false) (hdec : s.decActive = false)
    (hsyms : ∀ sym ∈ syms, sym < s.cfg.nsym ∧ (s.codeOf sym).len ≠ 0) :
    execAll (.pkStart :: (syms.map Instr.pkSym ++ [.pkFlush])) s = .next { s with
      ofifo := (packedBytes (syms.flatMap (codeBits s))).map byteEntry, pkAcc := 0, pkNb := 0,
      pkBitcnt := BitVec.ofNat 64 (syms.flatMap (codeBits s)).length, pkActive := false } := by
  have hcodes : codeBits s.pkStarted = codeBits s := rfl
  have hnone : s.pkStarted.pendingBits = [] := rfl
  have hcount : s.pkStarted.pkBitcnt = 0#64 := rfl
  rw [execAll_cons (exec_pkStart hpk hdec), execAll_pkSyms_pkFlush (s := s.pkStarted) rfl Nat.one_pos hsyms, hcodes,
    hnone, hcount, BitVec.zero_add]
  rfl

/-- Settles O53: its clauses are fields of the state the stream ends in. -/
theorem packedStreamIsTheCodes : Obligations.PackedStreamIsTheCodes := by
  intro s syms hpk hdec hsyms
  refine ⟨_, execAll_packStream hpk hdec hsyms, ?_, rfl, rfl, rfl, rfl⟩
  rw [← byteEntry_eq_ofNat]

end Sys2Proof
end

section
/-! SUPPORT. The bits of packed bytes: the string that was cut, and the zero bits that fill its last byte (44_packer.md
R174). -/

namespace Sys2Proof

open Machine Claims

/-- A string of 8 bits is the bits of the byte of its value (R69). -/
theorem byteBits_ofNat_bitsValue {bs : List Bool} (h : bs.length = 8) :
    byteBits (BitVec.ofNat 8 (bitsValue bs)) = bs := by
  have hlt : bitsVal bs < 2 ^ 8 := h ▸ bitsVal_lt bs
  rw [byteBits, bitsValue_eq_bitsVal, BitVec.toNat_ofNat, Nat.mod_eq_of_lt hlt, ← h, bitsOf_bitsVal]

/-- Cutting into enough bytes loses no bit, and adds zero bits at the end only. -/
theorem flatMap_byteBits_cutBytes {n : Nat} {bs : List Bool} (h : bs.length ≤ 8 * n) :
    (cutBytes n bs).flatMap byteBits = bs ++ List.replicate (8 * n - bs.length) false := by
  induction n generalizing bs with
  | zero => simpa [cutBytes] using h
  | succ n ih =>
    have hfull : (bs.take 8 ++ List.replicate (8 - (bs.take 8).length) false).length = 8 := by simp
    rw [cutBytes, List.flatMap_cons, byteBits_ofNat_bitsValue hfull,
      ih (by rw [List.length_drop]; omega), List.length_take, List.length_drop]
    rcases le_total 8 bs.length with hlong | hshort
    · have hfill : 8 - min 8 bs.length = 0 := by omega
      have hrest : 8 * n - (bs.length - 8) = 8 * (n + 1) - bs.length := by omega
      rw [hfill, hrest, List.replicate_zero, List.append_nil, ← List.append_assoc, List.take_append_drop]
    · have hfill : 8 - min 8 bs.length + (8 * n - (bs.length - 8)) = 8 * (n + 1) - bs.length := by omega
      rw [List.take_of_length_le hshort, List.drop_eq_nil_of_le hshort, List.nil_append, List.append_assoc,
        List.replicate_append_replicate, hfill]

theorem cutBytes_length (n : Nat) (bs : List Bool) : (cutBytes n bs).length = n := by
  induction n generalizing bs with
  | zero => rfl
  | succ n ih => rw [cutBytes, List.length_cons, ih]

/-- The bits of the packed bytes are the packed bits and the padding (R174). -/
theorem flatMap_byteBits_packedBytes (bs : List Bool) :
    (packedBytes bs).flatMap byteBits = bs ++ List.replicate (8 * (packedBytes bs).length - bs.length) false := by
  rw [packedBytes, cutBytes_length]
  exact flatMap_byteBits_cutBytes (by omega)

end Sys2Proof
end

section
/-! SUPPORT. Words of formats B and F (30_encoding.md R86, R87), and the decoder commands DEC_START and DEC_END (45_decoder.md
R193, R196). -/

namespace Sys2Proof

open Machine Claims

/-- A row of the map in format B gives the words of its opcode (R86). -/
theorem encodedB_of_formatOf {opc : Nat} {mk : Byte → Instr} (h : formatOf opc = some (.byte mk)) :
    EncodedB opc mk :=
  fun _ hopc => decode_or_eill_of_read (hopc ▸ h) rfl

/-- A row of the map in format F gives the words of its opcode (R87). -/
theorem encodedF_of_formatOf {opc : Nat} {mk : Bool → Instr} (h : formatOf opc = some (.flag mk)) :
    EncodedF opc mk :=
  fun _ hopc => decode_or_eill_of_read (hopc ▸ h) rfl

/-! ### The check for a decoder stream -/

/-- Without a decoder stream DEC_BYTE and DEC_END raise ESTATE (R195, R196). -/
theorem Machine.State.guarded_noDecoder {s : State} (hdec : s.decActive = false)
    (effect : Host.Outcome State Fault Refusal) : s.guarded [s.noDecoder] effect = .next (raised s .estate) :=
  State.guarded_error (by simp [State.noDecoder, hdec]) effect

/-- With a decoder stream open the effect takes place. -/
theorem Machine.State.guarded_decoder {s : State} (hdec : s.decActive = true)
    (effect : Host.Outcome State Fault Refusal) : s.guarded [s.noDecoder] effect = effect :=
  State.guarded_ok (by simp [State.noDecoder, hdec]) effect

/-! ### DEC_START (R193) -/

/-- The state DEC_START leaves when its checks pass (R193). -/
def Machine.State.decStarted (s : State) (limit : Bool) : State :=
  { s with
    ofifo := [], acc := 0, accLen := 0, decBitcnt := 0, decResidue := 0, limitEn := limit,
    decNbits := if limit then s.limitArg else 0, decActive := true }

/-- `{a1, a0}` as a number (R69). -/
theorem Machine.State.limitArg_toNat (s : State) : s.limitArg.toNat = s.a1.toNat * 2 ^ 32 + s.a0.toNat := by
  rw [State.limitArg, BitVec.toNat_append, ← Nat.shiftLeft_add_eq_or_of_lt s.a0.isLt, Nat.shiftLeft_eq]

theorem Machine.State.limitArg_eq (s : State) :
    s.limitArg = BitVec.ofNat 64 (s.a1.toNat * 2 ^ 32 + s.a0.toNat) := by
  rw [← s.limitArg_toNat, BitVec.ofNat_toNat, BitVec.setWidth_eq]

section
variable {s : State} (hpk : s.pkActive = false) (hdec : s.decActive = false)
include hpk hdec

theorem exec_decStart_ebadtable (hbad : ¬ PrefixFree s) (limit : Bool) :
    exec (.decStart limit) s = .next (raised s .ebadtable) := by
  rw [prefixFree_iff_tableValid] at hbad
  exact State.guarded_error ((State.firstError_streamOpen hpk hdec _).trans (by simp [hbad])) _

theorem exec_decStart (hvalid : PrefixFree s) (limit : Bool) :
    exec (.decStart limit) s = .next (s.decStarted limit) := by
  rw [prefixFree_iff_tableValid] at hvalid
  exact State.guarded_ok ((State.firstError_streamOpen hpk hdec _).trans (by simp [hvalid])) _

end

/-- Settles O54: behind the ESTATE and EBADTABLE checks the command opens an empty stream, with the limit as a number. -/
theorem decStartOpens : Obligations.DecStartOpens := by
  refine ⟨encodedF_of_formatOf rfl, fun s limit => ⟨fun hopen => State.guarded_streamOpen hopen _ _,
    fun hpk hdec hbad => exec_decStart_ebadtable hpk hdec hbad limit, fun hpk hdec hvalid => ?_⟩⟩
  rw [← State.limitArg_eq]
  exact exec_decStart hpk hdec hvalid limit

/-! ### DEC_END (R196) -/

/-- The terminated stream, before the checks of limit mode (R196). -/
def Machine.State.decEnded (s : State) : State :=
  { s with decResidue := s.accLen, acc := 0, accLen := 0, decActive := false }

theorem exec_decEnd {s : State} (hdec : s.decActive = true) : exec .decEnd s = .next (
    if s.limitEn = true ∧ s.decBitcnt.toNat < s.decNbits.toNat then raised s.decEnded .eshort
    else if s.limitEn = true ∧ 0 < s.accLen then raised s.decEnded .epartial
    else s.decEnded) := by
  refine (State.guarded_decoder hdec _).trans ?_
  simp only [State.endError, firstError_cons, firstError_nil, Bool.and_eq_true, decide_eq_true_eq]
  split_ifs <;> rfl

/-- In whole-byte mode, or with all bits given and the last code complete, DEC_END records no error (R196). -/
theorem exec_decEnd_ok {s : State} (hdec : s.decActive = true)
    (hlimit : s.limitEn = true → s.decNbits.toNat ≤ s.decBitcnt.toNat ∧ s.accLen = 0) :
    exec .decEnd s = .next s.decEnded := by
  rw [exec_decEnd hdec, if_neg fun hshort => (hlimit hshort.1).1.not_gt hshort.2,
    if_neg fun hpartial => hpartial.2.ne' (hlimit hpartial.1).2]

/-- Settles O57: the stream terminates behind the ESTATE check, and ESHORT is looked at before EPARTIAL. -/
theorem decEndTerminates : Obligations.DecEndTerminates :=
  ⟨encodedN_of_formatOf rfl, fun _ => ⟨fun hdec => State.guarded_noDecoder hdec _, exec_decEnd⟩⟩

end Sys2Proof
end

section
/-! SUPPORT. DEC_BYTE (45_decoder.md R194, R195): the bits within the limit are decoded, up to the first that no code can
match. -/

namespace Sys2Proof

open Machine Claims

/-! ### The bits within the limit (R190) -/

/-- The part of a bit string that the decoder does not ignore: all of it, or in limit mode the bits before the limit. -/
def Machine.State.withinLimit (s : State) (bs : List Bool) : List Bool :=
  if s.limitEn then bs.take (s.decNbits.toNat - s.decBitcnt.toNat) else bs

/-- The decoder's registers before a byte, with nothing pushed yet (R194). -/
def Machine.State.matchStart (s : State) : Match :=
  { acc := s.acc, accLen := s.accLen, bitcnt := s.decBitcnt, out := [], stopped := false }

/-- Decoding a string is decoding its bits within the limit (R194). -/
theorem decBits_withinLimit (s : State) (bs : List Bool) :
    decBits s bs s.matchStart = decBits s (s.withinLimit bs) s.matchStart := by
  unfold State.withinLimit
  split
  case isTrue hlimit => exact decBits_take hlimit bs s.matchStart rfl
  case isFalse => rfl

/-- Where there is a bit within the limit, the limit allows all of them. -/
theorem limitAllows_withinLimit {s : State} {bs : List Bool} (h : s.withinLimit bs ≠ []) :
    s.limitAllows s.decBitcnt (s.withinLimit bs).length := by
  intro hlimit
  simp only [State.withinLimit, hlimit, if_true] at h ⊢
  have hpos := List.length_pos_iff.2 h
  rw [List.length_take] at hpos ⊢
  omega

/-- A fresh stream in limit mode decodes the first `{a1, a0}` bits (R190, R193). -/
theorem decStarted_withinLimit (s : State) (bs : List Bool) :
    (s.decStarted true).withinLimit bs = bs.take s.limitArg.toNat := rfl

/-- A stream in whole-byte mode decodes every bit (R190). -/
theorem decStarted_withinLimit_wholeByte (s : State) (bs : List Bool) :
    (s.decStarted false).withinLimit bs = bs := rfl

/-- An accumulator of the statements is one the bit loop goes on with (R194). -/
theorem mayGrow_of_unfinished {s : State} {rest : List Bool} (h : Unfinished s rest) : s.mayGrow rest := by
  rcases h with hnil | ⟨hnone, sym, hsym, hlonger⟩
  · exact .inl hnil
  · exact .inr ⟨hlonger.trans_le (s.len_le_maxLen hsym), hnone⟩

/-! ### The bit that no code can match (R194) -/

/-- A bit within the limit that makes MAXLEN bits or more and no code stops the loop. -/
theorem decBit_stops {s : State} {b : Bool} {m : Match} (hlimit : s.beyondLimit m = false)
    (hnone : s.lookup (m.accLen + 1) (2 * m.acc + b.toNat) = none) (hmax : s.maxLen ≤ m.accLen + 1) :
    decBit s b m = { m with
      acc := 2 * m.acc + b.toNat, accLen := m.accLen + 1, bitcnt := m.bitcnt + 1, stopped := true } := by
  rcases decBit_cases s b m with ⟨hbeyond, -⟩ | ⟨-, ⟨sym, hmatch, -⟩ | ⟨-, heq⟩⟩
  · simp [hlimit] at hbeyond
  · simp [hnone] at hmatch
  · rw [heq, decide_eq_true hmax]

/-- A string that is no symbol's code is not found (R192). -/
theorem lookup_bits_none {s : State} {bs : List Bool} (h : ∀ sym < s.cfg.nsym, codeBits s sym ≠ bs) :
    s.lookup bs.length (bitsVal bs) = none := by
  refine Option.eq_none_iff_forall_ne_some.2 fun sym hfound => ?_
  obtain ⟨hsym, hcode⟩ := State.lookup_sound hfound
  exact h sym hsym (by rw [codeBits, hcode, bitsOf_bitsVal])

/-! ### Parsing the bits (R194) -/

section
variable {s : State} {syms : List Nat} {rest : List Bool} (hvalid : PrefixFree s) (hfit : CodesFit s)
  (hsyms : ∀ sym ∈ syms, sym < s.cfg.nsym ∧ (s.codeOf sym).len ≠ 0) (hrest : s.mayGrow rest)
  (hacc : s.acc < 2 ^ s.accLen) (hhead : syms = [] ∨ s.accLen < (codeBits s (syms.headD 0)).length)
include hvalid hfit hsyms hrest hacc hhead

/-- Bits that complete some codes push their symbols, and the bits after the last code stay (R194). -/
theorem decBits_matchStart_parse {bs : List Bool}
    (hbits : bitsOf s.accLen s.acc ++ s.withinLimit bs = syms.flatMap (codeBits s) ++ rest) :
    decBits s bs s.matchStart =
      { acc := bitsVal rest, accLen := rest.length,
        bitcnt := s.decBitcnt + BitVec.ofNat 64 (s.withinLimit bs).length,
        out := syms.map (BitVec.ofNat 16), stopped := false } := by
  rw [prefixFree_iff_tableValid] at hvalid
  rw [decBits_withinLimit]
  by_cases hnone : s.withinLimit bs = []
  · rw [hnone] at hbits ⊢
    -- With no bit to decode the loop does not look at the limit, which the count may have passed.
    exact decBits_parse (s := { s with limitEn := false }) hvalid hfit syms hsyms hrest [] s.matchStart rfl hacc
      (fun hlimit => nomatch hlimit) hhead hbits
  · exact decBits_parse hvalid hfit syms hsyms hrest _ s.matchStart rfl hacc (limitAllows_withinLimit hnone) hhead
      hbits

/-- The first bit after which the accumulator is no code and has MAXLEN bits or more stops the loop, and is kept and
counted (R194, R227). -/
theorem decBits_matchStart_stops {bs before after : List Bool} {b : Bool}
    (hsplit : s.withinLimit bs = before ++ b :: after)
    (hbits : bitsOf s.accLen s.acc ++ before = syms.flatMap (codeBits s) ++ rest)
    (hnone : ∀ sym < s.cfg.nsym, codeBits s sym ≠ rest ++ [b])
    (hmax : ∀ sym < s.cfg.nsym, (s.codeOf sym).len ≤ rest.length + 1) :
    decBits s bs s.matchStart =
      { acc := bitsVal (rest ++ [b]), accLen := rest.length + 1,
        bitcnt := s.decBitcnt + BitVec.ofNat 64 (before.length + 1),
        out := syms.map (BitVec.ofNat 16), stopped := true } := by
  rw [prefixFree_iff_tableValid] at hvalid
  have hlimit : s.limitAllows s.decBitcnt (before.length + (after.length + 1)) := by
    simpa [hsplit] using limitAllows_withinLimit (s := s) (bs := bs) (by simp [hsplit])
  have hbefore := decBits_parse hvalid hfit syms hsyms hrest before s.matchStart rfl hacc
    (fun hon => (Nat.add_le_add_left (Nat.le_add_right ..) _).trans (hlimit hon)) hhead hbits
  have hlookup : s.lookup (rest.length + 1) (2 * bitsVal rest + b.toNat) = none := by
    simpa [bitsVal_append_one] using lookup_bits_none hnone
  have hstop := decBit_stops (m := decBits s before s.matchStart) (by rw [hbefore]; exact hlimit.drop.head)
    (by rw [hbefore]; exact hlookup) (by rw [hbefore]; exact (s.maxLen_le_iff _).2 hmax)
  rw [hbefore] at hstop
  rw [decBits_withinLimit, hsplit, decBits_append _ _ _ _ rfl, hbefore, if_neg (by simp [State.matchStart]), decBits,
    hstop, if_pos rfl, bitsVal_append_one, ← count_add]
  rfl

end

/-! ### The command (R195) -/

/-- The state with the decoder's registers after some bits, and the symbols they pushed. -/
def Machine.State.decoded (s : State) (m : Match) : State :=
  { s.pushAll m.out with acc := m.acc, accLen := m.accLen, decBitcnt := m.bitcnt }

/-- No bit decoded, nothing changed. -/
theorem decoded_matchStart (s : State) : s.decoded s.matchStart = s := by
  simp [State.decoded, State.matchStart, State.pushAll]

theorem exec_decByte {s : State} {byte : Byte} (hdec : s.decActive = true)
    (hgo : (decBits s (byteBits byte) s.matchStart).stopped = false) :
    exec (.decByte byte) s = .next (s.decoded (decBits s (byteBits byte) s.matchStart)) :=
  (State.guarded_decoder hdec _).trans (congrArg _ (if_neg (Bool.eq_false_iff.1 hgo)))

theorem exec_decByte_enomatch {s : State} {byte : Byte} (hdec : s.decActive = true)
    (hstop : (decBits s (byteBits byte) s.matchStart).stopped = true) :
    exec (.decByte byte) s =
      .next (raised { s.decoded (decBits s (byteBits byte) s.matchStart) with decActive := false } .enomatch) :=
  (State.guarded_decoder hdec _).trans (congrArg _ (if_pos hstop))

/-- The error is recorded with the latched word, whatever the decoder's registers are (R224, R227). -/
theorem raised_decoded (s : State) (m : Match) (e : ErrCode) :
    raised { s.decoded m with decActive := false } e = { raised s e with
      ofifo := s.ofifo ++ m.out, acc := m.acc, accLen := m.accLen, decBitcnt := m.bitcnt, decActive := false } := by
  by_cases hfirst : s.errcode = .none <;> simp [raised, hfirst, State.decoded, State.pushAll, State.cmd]

/-- Settles O55: the bits within the limit are parsed; with none of them, the registers stay. -/
theorem decByteDecodes : Obligations.DecByteDecodes := by
  refine ⟨fun s byte syms rest hdec hvalid hfit hacc hsyms hrest hhead hbits => ?_,
    fun s byte hdec hlimit hpast => ?_⟩
  · have hparse := decBits_matchStart_parse (bs := byteBits byte) hvalid hfit hsyms (mayGrow_of_unfinished hrest) hacc
      hhead hbits
    rw [exec_decByte hdec (by rw [hparse]), hparse]
    rfl
  · have hnone : s.withinLimit (byteBits byte) = [] := by
      simp [State.withinLimit, hlimit, Nat.sub_eq_zero_of_le hpast]
    have hsame : decBits s (byteBits byte) s.matchStart = s.matchStart := by
      rw [decBits_withinLimit, hnone, decBits]
    rw [exec_decByte hdec (by rw [hsame]; rfl), hsame, decoded_matchStart]

/-- Settles O56: the loop stops at the failing bit, and the error is recorded with the registers as they are then. -/
theorem decByteStopsAtNoMatch : Obligations.DecByteStopsAtNoMatch := by
  refine ⟨encodedB_of_formatOf rfl, fun s byte => ⟨fun hdec => State.guarded_noDecoder hdec _, ?_⟩⟩
  intro syms rest before after b hdec hvalid hfit hacc hsyms hrest hhead hsplit hbits hnone hmax
  have hstop := decBits_matchStart_stops (bs := byteBits byte) hvalid hfit hsyms (mayGrow_of_unfinished hrest) hacc
    hhead hsplit hbits hnone hmax
  rw [exec_decByte_enomatch hdec (by rw [hstop]), hstop, raised_decoded]
  rfl

end Sys2Proof
end

section
/-! SUPPORT. A whole decoder stream, and what it makes of the bytes of a packer stream (45_decoder.md R197). -/

namespace Sys2Proof

open Machine Claims

/-! ### A whole stream -/

/-- The loop reads the table and the limit, which decoding leaves alone. -/
theorem decBits_of_decoded (s : State) (m : Match) (bs : List Bool) (n : Match) :
    decBits (s.decoded m) bs n = decBits s bs n := by
  induction bs generalizing n with
  | nil => rfl
  | cons b bs ih =>
    have hbit : decBit (s.decoded m) b n = decBit s b n := rfl
    rw [decBits, decBits, hbit, ih]

/-- Decoding on from the registers that earlier bits left is one loop with them, but for the symbols pushed before. -/
theorem decBits_resume (s : State) (bs : List Bool) {m : Match} (hm : m.stopped = false) :
    decBits s bs m = { decBits (s.decoded m) bs (s.decoded m).matchStart with
      out := m.out ++ (decBits (s.decoded m) bs (s.decoded m).matchStart).out } := by
  obtain ⟨acc, accLen, bitcnt, out, stopped⟩ := m
  obtain rfl : stopped = false := hm
  have hout := decBits_out s bs { acc, accLen, bitcnt, out := [], stopped := false } out
  rw [List.append_nil] at hout
  rw [decBits_of_decoded]
  exact hout

/-- The bytes given are decoded as one string, as long as no bit of it stops the decoder. -/
theorem execAll_decBytes {s : State} {bytes : List Byte} (hdec : s.decActive = true)
    (hgo : (decBits s (bytes.flatMap byteBits) s.matchStart).stopped = false) (more : List Instr) :
    execAll (bytes.map Instr.decByte ++ more) s =
      execAll more (s.decoded (decBits s (bytes.flatMap byteBits) s.matchStart)) := by
  induction bytes generalizing s with
  | nil => rw [List.map_nil, List.flatMap_nil, decBits, decoded_matchStart, List.nil_append]
  | cons y bytes ih =>
    rw [List.flatMap_cons, decBits_append _ _ _ _ rfl] at hgo ⊢
    split at hgo
    case isTrue hstop => simp [hstop] at hgo
    case isFalse hon =>
      have hfirst := Bool.eq_false_iff.2 hon
      rw [decBits_resume s _ hfirst] at hgo ⊢
      rw [List.map_cons, List.cons_append, execAll_cons (exec_decByte hdec hfirst), ih (s := s.decoded _) hdec hgo,
        if_neg hon]
      simp [State.decoded, State.pushAll]

theorem execAll_singleton (i : Instr) (s : State) : execAll [i] s = exec i s := by
  cases h : exec i s <;> simp [execAll, h]

/-- A stream whose bits within the limit are the codes of some symbols and a rest (R193 to R195): the symbols are in the
FIFO, and DEC_END finds the rest in the accumulator. -/
theorem execAll_decStream {s : State} {limit : Bool} {bytes : List Byte} {syms : List Nat} {rest : List Bool}
    (hpk : s.pkActive = false) (hdec : s.decActive = false) (hvalid : PrefixFree s) (hfit : CodesFit s)
    (hsyms : ∀ sym ∈ syms, sym < s.cfg.nsym ∧ (s.codeOf sym).len ≠ 0) (hrest : s.mayGrow rest)
    (hbits : (s.decStarted limit).withinLimit (bytes.flatMap byteBits) = syms.flatMap (codeBits s) ++ rest) :
    execAll (.decStart limit :: (bytes.map Instr.decByte ++ [.decEnd])) s =
      exec .decEnd { s.decStarted limit with
        ofifo := syms.map (BitVec.ofNat 16), acc := bitsVal rest, accLen := rest.length,
        decBitcnt := BitVec.ofNat 64 (syms.flatMap (codeBits s) ++ rest).length } := by
  have hhead : syms = [] ∨ 0 < (codeBits s (syms.headD 0)).length := by
    cases syms with
    | nil => exact .inl rfl
    | cons sym _ => exact .inr (by simpa [codeBits] using Nat.pos_of_ne_zero (hsyms sym List.mem_cons_self).2)
  have hparse := decBits_matchStart_parse (s := s.decStarted limit) hvalid hfit hsyms hrest Nat.one_pos hhead hbits
  have hzero : (s.decStarted limit).decBitcnt = 0#64 := rfl
  rw [hbits, hzero, BitVec.zero_add] at hparse
  rw [execAll_cons (exec_decStart hpk hdec hvalid limit), execAll_decBytes rfl (by rw [hparse]), hparse,
    execAll_singleton]
  rfl

/-! ### The bytes of a packer stream (R174) -/

/-- The state a packer stream of some symbols leaves (R174). -/
def Machine.State.packed (s : State) (syms : List Nat) : State :=
  { s with
    ofifo := (packedBytes (syms.flatMap (codeBits s))).map byteEntry, pkAcc := 0, pkNb := 0,
    pkBitcnt := BitVec.ofNat 64 (syms.flatMap (codeBits s)).length, pkActive := false }

section
variable {s t : State} {syms : List Nat} {bytes : List Byte} (hpk : s.pkActive = false) (hdec : s.decActive = false)
  (hsyms : ∀ sym ∈ syms, sym < s.cfg.nsym ∧ (s.codeOf sym).len ≠ 0)
  (hexec : execAll (.pkStart :: (syms.map Instr.pkSym ++ [.pkFlush])) s = .next t)
include hpk hdec hsyms hexec

theorem eq_packed_of_execAll : t = s.packed syms := by
  injection hexec.symm.trans (execAll_packStream hpk hdec hsyms)

/-- The bytes read from the FIFO hold the codes and the padding (R174). -/
theorem packed_bits (hfifo : t.ofifo = bytes.map (fun y => BitVec.ofNat 16 y.toNat)) :
    bytes.flatMap byteBits = syms.flatMap (codeBits s) ++
      List.replicate (8 * bytes.length - (syms.flatMap (codeBits s)).length) false := by
  have hinj : Function.Injective byteEntry := fun x y hxy => by
    simpa [byteEntry, BitVec.setWidth_setWidth_of_le] using congrArg (BitVec.setWidth 8) hxy
  rw [eq_packed_of_execAll hpk hdec hsyms hexec, ← byteEntry_eq_ofNat] at hfifo
  obtain rfl : packedBytes (syms.flatMap (codeBits s)) = bytes := List.map_injective_iff.2 hinj hfifo
  exact flatMap_byteBits_packedBytes _

end

/-! ### Limit mode (R197(a)) -/

/-- Settles O58: the bits before the limit are exactly the codes, so nothing is left in the accumulator, and the count
reaches the limit. -/
theorem limitModeRoundTrip : Obligations.LimitModeRoundTrip := by
  intro s t syms bytes herr hpk hdec hvalid hfit hsyms hlimit hexec hfifo
  have hbits := packed_bits hpk hdec hsyms hexec hfifo
  obtain rfl := eq_packed_of_execAll hpk hdec hsyms hexec
  have harg : (s.packed syms).limitArg.toNat = (syms.flatMap (codeBits s)).length := s.limitArg_toNat.trans hlimit
  have hparse : ((s.packed syms).decStarted true).withinLimit (bytes.flatMap byteBits) =
      syms.flatMap (codeBits s) ++ [] := by
    rw [decStarted_withinLimit, harg, hbits, List.take_left, List.append_nil]
  have hcount : (s.packed syms).limitArg.toNat ≤
      (BitVec.ofNat 64 (syms.flatMap (codeBits s) ++ []).length).toNat := by
    rw [List.append_nil, ← harg, BitVec.ofNat_toNat, BitVec.setWidth_eq]
  rw [execAll_decStream (s := s.packed syms) rfl hdec hvalid hfit hsyms (.inl rfl) hparse]
  exact ⟨_, exec_decEnd_ok rfl fun _ => ⟨hcount, rfl⟩, rfl, herr, rfl, rfl⟩

/-! ### Whole-byte mode (R197(b)) -/

theorem bitsOf_zero (len : Nat) : bitsOf len 0 = List.replicate len false := by
  induction len with
  | zero => rfl
  | succ len ih => rw [bitsOf, Nat.zero_testBit, ih, List.replicate_succ]

/-- Zero bits are copies of the all-zero code and a beginning of one more. -/
theorem replicate_zeros_eq {s : State} {z d0 : Nat} (hz : s.codeOf z = { len := d0, val := 0 }) (p : Nat) :
    List.replicate p false =
      (List.replicate (p / d0) z).flatMap (codeBits s) ++ List.replicate (p % d0) false := by
  rw [List.flatMap_replicate, codeBits, hz, bitsOf_zero, List.flatten_replicate_replicate,
    List.replicate_append_replicate, Nat.div_add_mod']

/-- Settles O59: the padding bits are the codes of the copies of z and a beginning of one more, which is the residue. -/
theorem wholeByteRoundTrip : Obligations.WholeByteRoundTrip := by
  intro s t syms bytes z d0 herr hpk hdec hvalid hfit hsyms hz hpos hcode hexec hfifo p
  have hbits := packed_bits hpk hdec hsyms hexec hfifo
  obtain rfl := eq_packed_of_execAll hpk hdec hsyms hexec
  have hparse : ((s.packed syms).decStarted false).withinLimit (bytes.flatMap byteBits) =
      (syms ++ List.replicate (p / d0) z).flatMap (codeBits s) ++ List.replicate (p % d0) false := by
    rw [decStarted_withinLimit_wholeByte, hbits, List.flatMap_append, List.append_assoc, ← replicate_zeros_eq hcode]
  have hcoded : ∀ sym ∈ syms ++ List.replicate (p / d0) z, sym < s.cfg.nsym ∧ (s.codeOf sym).len ≠ 0 := by
    intro sym hsym
    rcases List.mem_append.1 hsym with hgiven | hcopy
    · exact hsyms sym hgiven
    · rw [List.eq_of_mem_replicate hcopy, hcode]
      exact ⟨hz, hpos.ne'⟩
  have hrest : s.mayGrow (List.replicate (p % d0) false) := by
    have hmore : d0 - p % d0 ≠ 0 := Nat.sub_ne_zero_of_lt (Nat.mod_lt p hpos)
    refine State.mayGrow_of_begins ((prefixFree_iff_tableValid s).1 hvalid) hfit hz
      (more := List.replicate (d0 - p % d0) false) (by simpa using hmore) ?_
    rw [State.codeBits, hcode, bitsOf_zero, List.replicate_append_replicate,
      Nat.add_sub_cancel' (Nat.mod_lt p hpos).le]
  rw [execAll_decStream (s := s.packed syms) rfl hdec hvalid hfit hcoded hrest hparse]
  exact ⟨_, exec_decEnd_ok rfl (by rintro ⟨⟩), rfl, herr, List.length_replicate, rfl⟩

end Sys2Proof
end

section
/-! SUPPORT. What each command and each host step makes of the error registers: a recorded error stays, and
recording one is all that a failing command does (60_exceptions.md R222, R224, R226, R227). -/

namespace Sys2Proof.Machine

/-! ### A recorded error stays (R224, R226) -/

/-- With an error recorded, only ERR_CLR and SOFT_RESET touch the error registers: to raise another error changes nothing
(R224). -/
theorem exec_keeps_error {i : Instr} {s t : State} (herr : s.errcode ≠ .none) (h : exec i s = .next t) :
    (t.errcode = s.errcode ∧ t.errinfo = s.errinfo) ∨ (i = .errClr ∧ t = s.clearError) ∨
    (i = .softReset ∧ t = s.resetAction) := by
  cases exec_effect h with
  | errClr => exact .inr (.inl ⟨rfl, rfl⟩)
  | softReset => exact .inr (.inr ⟨rfl, rfl⟩)
  | error | decByteNoMatch | decEndError => exact .inl (by simp [State.raise_errcode, State.raise_errinfo, herr])
  | _ => exact .inl (by simp [State.installCodes])

theorem State.engineStep_keeps_error {s t : State} {c : Word} (herr : s.errcode ≠ .none)
    (h : s.engineStep c = .next t) :
    (t.errcode = s.errcode ∧ t.errinfo = s.errinfo) ∨
    (t.errcode = .none ∧ t.errinfo = 0 ∧ (decode c = .ok .errClr ∨ t.block = State.resetWith s.cfg)) := by
  rcases State.engineStep_cases h with ⟨why, -, rfl⟩ | ⟨i, u, hc, hu, rfl⟩
  · exact .inl (by simp [State.raise_errcode, State.raise_errinfo, herr])
  rcases exec_keeps_error herr hu with hkeep | ⟨rfl, rfl⟩ | ⟨-, rfl⟩
  · exact .inl hkeep
  · exact .inr ⟨rfl, rfl, .inl hc⟩
  · exact .inr ⟨rfl, rfl, .inr rfl⟩

theorem State.acceptCmd_keeps_error {s : State} (herr : s.errcode ≠ .none) (c : Word) :
    ((s.acceptCmd c).errcode = s.errcode ∧ (s.acceptCmd c).errinfo = s.errinfo) ∨
    (s.acceptCmd c).block = State.resetWith s.cfg := by
  rcases s.acceptCmd_cases c with ⟨-, e⟩ | ⟨-, -, e⟩ | ⟨-, -, -, e⟩ | ⟨-, -, -, e⟩ <;> rw [e]
  · exact .inr rfl
  · rw [State.record_later herr]
    exact .inl ⟨rfl, rfl⟩
  · exact .inl ⟨rfl, rfl⟩
  · exact .inl ⟨rfl, rfl⟩

/-- The host takes a recorded error away by a reset only (R251). -/
theorem State.hostOp_keeps_error {s t : State} {op : HostOp} (herr : s.errcode ≠ .none) (h : s.hostOp op = .next t) :
    (t.errcode = s.errcode ∧ t.errinfo = s.errinfo) ∨ t.block = State.resetWith s.cfg := by
  rcases State.hostOp_cases h with ⟨-, off, rfl⟩ | ⟨-, off, v, rfl⟩ | rfl | rfl
  · exact .inl ⟨rfl, rfl⟩
  · rcases s.regWrite_cases off v with e | e | e | e <;> rw [e]
    · exact State.acceptCmd_keeps_error herr v
    · exact .inl ⟨rfl, rfl⟩
    · exact .inl ⟨rfl, rfl⟩
    · exact .inl ⟨rfl, rfl⟩
  · exact .inr rfl
  · exact .inl ⟨rfl, rfl⟩

theorem State.error_of_block_reset {t : State} {cfg : Config} (h : t.block = State.resetWith cfg) :
    t.errcode = .none ∧ t.errinfo = 0 :=
  ⟨congrArg State.errcode h, congrArg State.errinfo h⟩

/-- Settles O25: the engine takes a recorded error away by ERR_CLR or a reset, the host by a reset. -/
theorem firstErrorStays : Obligations.FirstErrorStays := by
  intro s t herr hstep
  rcases step_cases hstep with ⟨l, hl, -, hengine⟩ | ⟨op, rest, -, hhost⟩
  · rcases State.engineStep_keeps_error (by simpa using herr) hengine with hkeep | ⟨hcode, hinfo, hcause⟩
    · exact .inl (by simpa using hkeep)
    · rw [State.takeTurn_cfg] at hcause
      exact .inr ⟨hcode, hinfo, State.engineStep_pending hengine, hcause.imp_left fun hc => ⟨l, hl, hc⟩⟩
  · rcases State.hostOp_keeps_error (by simpa using herr) hhost with hkeep | hblock
    · exact .inl (by simpa using hkeep)
    · obtain ⟨hcode, hinfo⟩ := State.error_of_block_reset hblock
      exact .inr ⟨hcode, hinfo, State.pending_of_block_reset hblock, .inr (hblock.trans (by simp))⟩

/-! ### Errors are precise (R222, R227) -/

theorem State.raise_first {s : State} (h : s.errcode = .none) (e : ErrCode) :
    s.raise e = { s with errcode := e, errinfo := s.cmd } :=
  State.record_first h e s.cmd

theorem State.endError_cases {s : State} {e : ErrCode} (h : s.endError = some e) : e = .eshort ∨ e = .epartial := by
  simpa using List.mem_map_of_mem (f := Prod.snd) (firstError_mem h)

/-- Settles O26: a failed check records its code and nothing else; ENOMATCH and the errors of DEC_END are raised on the state
their command has reached; every other outcome records no error. -/
theorem errorsArePrecise : Obligations.ErrorsArePrecise := by
  intro i s t hnone hexec herr
  cases exec_effect hexec with
  | error _ e =>
    rw [State.raise_first hnone]
    exact .inl rfl
  | decByteNoMatch byte m =>
    rw [State.raise_first (by simpa using hnone)]
    exact .inr (.inl ⟨rfl, ⟨byte, rfl⟩, m.out, rfl⟩)
  | decEndError e _ hend =>
    rw [State.raise_first (by simpa using hnone)]
    exact .inr (.inr ⟨State.endError_cases hend, rfl, rfl⟩)
  | softReset | errClr => exact absurd rfl herr
  | _ => exact absurd (by simpa [State.installCodes] using hnone) herr

end Sys2Proof.Machine
end

section
/-! SUPPORT. Under the invariant no command reaches a stop of the model (20_memory.md R64, 10_state.md R35, R37, R48), and
what the two events of the reset input do (60_exceptions.md R250, R252). -/

namespace Sys2Proof

open Machine Claims

/-! ### Every command completes (R262) -/

/-- A failed check ends a guarded command in a next state, so it completes if its effect does (R223). -/
theorem Machine.State.guarded_completes {s : State} {checks : List (Bool × ErrCode)}
    {effect : Host.Outcome State Fault Refusal} (h : (∀ c ∈ checks, c.1 = false) → ∃ t, effect = .next t) :
    ∃ t, s.guarded checks effect = .next t := by
  rcases s.guarded_cases checks effect with ⟨hpass, heq⟩ | ⟨e, -, heq⟩
  · rw [heq]
    exact h (firstError_none.1 hpass)
  · exact ⟨_, heq⟩

theorem exec_nodeRd_completes (idx : Nat) (s : State) : ∃ t, exec (.nodeRd idx) s = .next t := by
  rcases hnode : s.nodes[idx]? with _ | ⟨w, sym⟩ | ⟨w, l, r⟩
  · exact ⟨_, exec_nodeRd_earg (List.getElem?_eq_none_iff.1 hnode)⟩
  · exact ⟨_, exec_nodeRd_leaf hnode⟩
  · exact ⟨_, exec_nodeRd_internal hnode⟩

section
variable {s : State} (h : Invariant s)
include h

/-- A merge finds every queued node defined (R37, R128). -/
theorem exec_bldStep_completes : ∃ t, exec .bldStep s = .next t := by
  by_cases hstate : s.bstate = .seeded ∧ 2 ≤ s.heap.length
  · exact ⟨_, exec_bldStep hstate.1 hstate.2 h.forestOk.queued_defined rfl⟩
  · exact ⟨_, exec_bldStep_estate (by simpa [Decidable.imp_iff_not_or] using hstate)⟩

/-- Every merge of BLD_FINISH starts from a queue of defined nodes (R37, R129). -/
theorem exec_bldFinish_completes : ∃ t, exec .bldFinish s = .next t := by
  by_cases hphase : s.bstate = .seeded
  · exact ⟨_, exec_bldFinish hphase h.forestOk.queued_defined rfl⟩
  · exact ⟨_, exec_bldFinish_estate hphase⟩

/-- A heap position below HSIZE refers to a defined entry of the node store (R35, R37, R131). -/
theorem exec_heapRd_completes (idx : Nat) : ∃ t, exec (.heapRd idx) s = .next t := by
  by_cases hidx : idx < s.heap.length
  · have hdef : s.heap[idx] < s.nodes.length := h.forestOk.queued_defined _ (List.getElem_mem hidx)
    exact ⟨_, exec_heapRd (List.getElem?_eq_getElem hidx) (List.getElem?_eq_getElem hdef)⟩
  · exact ⟨_, exec_heapRd_earg (Nat.not_lt.1 hidx)⟩

theorem exec_pqPeek_completes : ∃ t, exec .pqPeek s = .next t := by
  by_cases hheap : s.heap = []
  · exact ⟨_, exec_pqPeek_estate hheap⟩
  · rw [exec_pqPeek_eq_heapRd hheap]
    exact exec_heapRd_completes h 0

/-- The walk of a BUILT tree meets defined entries only (R48(b), R151). -/
theorem exec_extract_completes : ∃ t, exec .extract s = .next t := by
  by_cases hready : s.bstate = .built ∧ s.pkActive = false ∧ s.decActive = false
  · obtain ⟨hphase, hpk, hdec⟩ := hready
    rw [exec_extract_eq h hphase hpk hdec]
    exact State.guarded_completes fun _ => ⟨_, rfl⟩
  · exact ⟨_, exec_extract_estate (by simpa [Decidable.imp_iff_not_or] using hready)⟩

end

/-- Settles O11: the five commands that read a heap position or a node find it defined; the rest have no stop of the model. -/
theorem everyCommandCompletes : Obligations.EveryCommandCompletes := by
  intro i s h
  cases i with
  | nop | softReset | errClr | freqClr => exact ⟨_, rfl⟩
  | bldStep => exact exec_bldStep_completes h
  | bldFinish => exact exec_bldFinish_completes h
  | pqPeek => exact exec_pqPeek_completes h
  | heapRd idx => exact exec_heapRd_completes h idx
  | nodeRd idx => exact exec_nodeRd_completes idx s
  | extract => exact exec_extract_completes h
  | _ => exact State.guarded_completes fun _ => ⟨_, rfl⟩

/-! ### The reset input (R250, R252) -/

/-- Settles O22: asserting the input is the reset action with the block held in reset, and releasing it clears that level
alone. -/
theorem hardwareReset : Obligations.HardwareReset := fun _ => ⟨rfl, rfl⟩

end Sys2Proof
end
